-- ==== Sys2Proof/Word.lean ====
section
/-! DEFINITION. The words of the MEE: bytes, the 64-bit slots of the register port, 32-bit command
words and limb addresses (R22, R60, R80), and the limb width W, which is 32 or 64 (R5). A limb
itself is an unsigned integer below 2^W (R7, R8) and is carried as a `Nat`: W is a parameter of the
machine, and every rule narrows explicitly where it narrows at all (R128). -/

namespace Sys2Proof

/-- Eight bits, the cell of the byte view of LMEM (R62). -/
abbrev Byte := BitVec 8

/-- The data of one register-port or LMEM-port access (R22, R30, R61). -/
abbrev Slot := BitVec 64

/-- A command word (R80), and every other 32-bit register. -/
abbrev Word32 := BitVec 32

/-- The limb width W of a machine: 32 or 64 and nothing else (R5, D2). -/
inductive LimbWidth where
  | w32
  | w64
deriving DecidableEq, Repr

/-- W in bits. -/
def LimbWidth.bits : LimbWidth → Nat
  | .w32 => 32
  | .w64 => 64

/-- W/8, the bytes of a limb (R62). -/
def LimbWidth.bytes : LimbWidth → Nat
  | .w32 => 4
  | .w64 => 8

end Sys2Proof
end

