-- ==== Sys2Proof/Syntax.lean ====
section
/-! DEFINITION. The six commands of the MEE (R2, R81), one constructor for each row of the opcode
table. A command carries no immediate, no register number and no operand field: every operand comes
from the registers when the command is issued (R83, R88). -/

namespace Sys2Proof

/-- A command (R81). -/
inductive Instr where
  /-- INV1, the word inverse modulo 2^W (R141). -/
  | inv1
  /-- REDC, the Montgomery reduction of a double-width value (R150). -/
  | redc
  /-- MUL, the Montgomery product (R171). -/
  | mul
  /-- SQR, the Montgomery square (R172). -/
  | sqr
  /-- BUILD, the 64-entry power table (R190). -/
  | build
  /-- MODPOW, the windowed exponentiation (R200). -/
  | modpow
deriving DecidableEq, Repr

end Sys2Proof
end

