-- ==== Sys2Proof/WellFormed.lean ====
section
/-! DEFINITION. Well-formed command words and commands (R80, R82). A command word has two checks: its
reserved bits are 0 and its opcode is one of 1 to 6. A command as syntax has no field, so there is
nothing to check in it (R83): every command is well-formed. -/

namespace Sys2Proof

/-- RSV, bits 31:4 of a command word, is 0 (R80). -/
def Word32.rsvIsZero (w : Word32) : Bool :=
  w.extractLsb' 4 28 == 0#28

/-- OP, bits 3:0 of a command word, is an opcode of R81. -/
def Word32.opIsLegal (w : Word32) : Bool :=
  let op := (w.extractLsb' 0 4).toNat
  decide (1 ≤ op) && decide (op ≤ 6)

/-- A command word that is not illegal (R82). -/
def Word32.wellFormed (w : Word32) : Bool :=
  Word32.rsvIsZero w && Word32.opIsLegal w

/-- Every command is well-formed: it has no operand field to be wrong (R83, R88). -/
def Instr.wellFormed : Instr → Bool
  | .inv1 => true
  | .redc => true
  | .mul => true
  | .sqr => true
  | .build => true
  | .modpow => true

end Sys2Proof
end

