-- ==== Sys2Proof/Decode.lean ====
section
/-! DEFINITION. Decoding and encoding of command words (R80 to R82, R86). The decoder is total on all
2^32 words and names why it rejects one; nothing but the word decides what it means. -/

namespace Sys2Proof

/-- Why a command word is illegal (R82). Both are reported as ILLEGAL_CMD (R220). -/
inductive IllegalWord where
  /-- RSV, bits 31:4, is not 0. -/
  | reservedBits
  /-- OP is 0x0 or 0x7 to 0xF. -/
  | opcode (op : BitVec 4)
deriving DecidableEq, Repr

/-- OP, bits 3:0 (R80). -/
def opField (w : Word32) : BitVec 4 := w.extractLsb' 0 4

/-- RSV, bits 31:4 (R80). -/
def rsvField (w : Word32) : BitVec 28 := w.extractLsb' 4 28

/-- The opcode map of R81. -/
def opcodeMap (op : BitVec 4) : Option Instr :=
  match op.toNat with
  | 1 => some .inv1
  | 2 => some .redc
  | 3 => some .mul
  | 4 => some .sqr
  | 5 => some .build
  | 6 => some .modpow
  | _ => none

/-- The command a word stands for, or why it is illegal (R81, R82). -/
def decode (w : Word32) : Except IllegalWord Instr :=
  if rsvField w = 0#28 then
    match opcodeMap (opField w) with
    | some i => .ok i
    | none => .error (.opcode (opField w))
  else .error .reservedBits

/-- The opcode of a command (R81), 3 bits as R40's `op` holds it. -/
def Instr.opcode : Instr → BitVec 3
  | .inv1 => 1#3
  | .redc => 2#3
  | .mul => 3#3
  | .sqr => 4#3
  | .build => 5#3
  | .modpow => 6#3

/-- The full word of a command (R81, R88): OP zero-extended, RSV = 0. -/
def encode (i : Instr) : Word32 := i.opcode.setWidth 32

/-- The command read from an opcode-table row whose bits are `w`, bit 0 the least significant. The
table gives a row 32 bits, one command word; it is presented as a number below 2^nbits, and CMD
takes its low 32 bits (R30). -/
def decodeTableWord (nbits w : Nat) : Option Instr :=
  match decode (BitVec.ofNat 32 (w % 2 ^ nbits)) with
  | .ok i => some i
  | .error _ => none

end Sys2Proof
end

