-- ==== Sys2Proof/Config.lean ====
section
/-! DEFINITION. What is fixed for a machine and what the spec leaves free. The two parameters of a
machine, W and LMEM_LIMBS (R5), are a record that State carries, so that a statement about every
state is a statement about every machine. K = 6 is a constant (R5, R86). The free values have no
body: nothing can be proved of what they are. -/

namespace Sys2Proof

/-- The parameters of one engine (R5): the limb width, and the index of the last LMEM limb,
LMEM_LIMBS - 1. The 32 bits of `lastLimb` are exactly the legal range 1 ≤ LMEM_LIMBS ≤ 2^32.
See log entry 2. -/
structure Params where
  width    : LimbWidth
  lastLimb : BitVec 32
deriving DecidableEq, Repr

/-- The window width K (R5: "6, fixed, reported in ID.K"). -/
abbrev Config.windowBits : Nat := 6

/-- TBL = 2^K, the entries of the power table (R5, R194). -/
abbrev Config.tableEntries : Nat := 64

/-- The free value of R9's `Draw`: the byte at a byte address of LMEM that draw number `draw` left
there. Draw numbers come from a counter in State, so each Draw of a run is a fresh value; the
power-on contents of LMEM (R250, R254) are a Draw too. It has no body: no proof can say what a drawn
byte is. Log entries 4 and 5 (DEDUCED from R9 and R254; safe). -/
opaque Config.drawn (draw address : Nat) : Byte

/-- MEE_REG_BASE, where the platform places the register block in the host's address map
(R232, D4): the platform's choice, left without a value. Log entry 19. -/
opaque Config.regBase : Nat

/-- MEE_LMEM_BASE, where the platform places the LMEM window (R232, D5): the platform's choice, left
without a value. Log entry 19. -/
opaque Config.lmemBase : Nat

end Sys2Proof
end

