-- ==== Sys2Proof/Machine/State.lean ====
section
/-! DEFINITION. Everything the spec gives the MEE to hold, as plain data: the parameters of the
machine, the registers of R22, LMEM (R37), the hidden state of a running command (R40), and the
events still to come from the two agents (R20). INVENTORY.md lists each field with its rule and its
reset value. -/

namespace Sys2Proof.Machine

/-- STATUS.ERR (R220). The reserved codes 5 to 15 are never produced and have no constructor (U14,
log entry 24). -/
inductive ErrCode where
  /-- 0: the last command was accepted and completed, or none has run since reset. -/
  | none
  /-- 1: the command word is illegal (R82). -/
  | illegalCmd
  /-- 2: R_LIMBS = 0. -/
  | badLen
  /-- 3: a buffer extends past LMEM_LIMBS (R104). -/
  | range
  /-- 4, the spec's ALIAS: a forbidden overlap of buffers (R105). -/
  | overlap
deriving DecidableEq, Repr

/-- The stored fields of STATUS (R26). BUSY is not among them: it is 1 exactly while a command runs
and is computed from `State.engine` (log entry 6). -/
structure Status where
  done     : Bool
  overrun  : Bool
  hostviol : Bool
  err      : ErrCode
deriving DecidableEq, Repr

/-- The eleven cfg registers (R22, R28, R29, R34, R35, R36): RW for the host, but not while BUSY
(R31). NQUOTE0 and INV_X are W bits wide and are held zero-extended (log entry 12). -/
structure CfgRegs where
  rLimbs  : BitVec 32
  nquote0 : BitVec 64
  addrOut : BitVec 32
  addrN   : BitVec 32
  addrA   : BitVec 32
  addrB   : BitVec 32
  addrT   : BitVec 32
  addrScr : BitVec 32
  addrExp : BitVec 32
  expBits : BitVec 32
  invX    : BitVec 64
deriving DecidableEq, Repr

/-- LMEM as a list of (byte address, byte), addresses strictly rising. Byte b of limb a has the
address a*(W/8) + b (R62). An unlisted byte has not been written since power-on. -/
abbrev Memory := List Host.Cell

/-- The controller's phase (R40, R42). -/
inductive Phase where
  | idle
  | inv
  | redcRed
  | redcFix
  | prod
  | tbl
  | winSq
  | winMul
  | finish
deriving DecidableEq, Repr

/-- The controller's position while a command runs (R40, R42): the phase, and with it those hidden
elements that the rest of the command still uses. DESIGN CHOICE (log entry 26): R40 says that no element
holds a value when BUSY = 0, and is silent on which ones do in which phase while BUSY = 1. Beside R40's
elements it carries the working values of the command (log entry 7): `t`, the 2r limbs of the
double-width working area; `entries`, the table entries built so far; `acc`, the accumulator; `results`,
the values about to be published. -/
inductive Position where
  /-- INV: bits below `bitpos` of the partial inverse `y` are settled (R141). -/
  | inv (y bitpos : Nat)
  /-- PROD: the full product of MUL or SQR is about to be formed (R171, R172). -/
  | prod
  /-- REDC_RED: digit step `i` is about to be done with digit `m`; `c` is the sticky carry (R151). -/
  | redcRed (t : List Nat) (i : Nat) (c : Bool) (m : Nat)
  /-- REDC_FIX: the sweep is over; the conditional subtraction is about to be done (R151). -/
  | redcFix (t : List Nat) (c : Bool)
  /-- TBL: entry `ti` of the power table is about to be built (R191). -/
  | tbl (entries : List Nat) (ti : Nat)
  /-- WIN_SQ: block `j` with window `w`, `s` squarings done (R201). -/
  | winSq (entries : List Nat) (acc j s : Nat) (w : BitVec 6)
  /-- WIN_MUL: block `j`, whose window `w` is not 0, is about to be multiplied in (R201). -/
  | winMul (entries : List Nat) (acc j : Nat) (w : BitVec 6)
  /-- FINISH: the command is about to complete and publish `results` (R42, R108). -/
  | finish (results : List Nat)
deriving DecidableEq, Repr

/-- The running command: its opcode `op`, latched at acceptance (R40, R106), and where it is. -/
structure Engine where
  op  : Instr
  pos : Position
deriving DecidableEq, Repr

/-- The width of a mixed-width access to the byte window of a platform (R62). -/
inductive WindowWidth where
  | byte
  | halfLimb
deriving DecidableEq, Repr

/-- One event of the schedule: a transaction of the host (R87, R89), a reset input, or a move of the
engine. Log entry 9. -/
inductive Event where
  /-- A host write of `v` to the register port at a byte offset (R30). -/
  | regWrite (offset : Nat) (v : Slot)
  /-- A host read of the register port (R33). -/
  | regRead (offset : Nat)
  /-- A host write of one LMEM limb (R61). The limb address is unbounded: one at or above LMEM_LIMBS
  is out of range and does not wrap (R7, R87; log entry 20). -/
  | lmemWrite (a : Nat) (v : Slot)
  /-- A host read of one LMEM limb (R61). -/
  | lmemRead (a : Nat)
  /-- A host read of a byte or half-limb at a byte address of the window (R62; log entry 23). -/
  | windowLoad (k : WindowWidth) (a : Nat)
  /-- A host write of a byte or half-limb at a byte address of the window (R62; log entry 23). -/
  | windowStore (k : WindowWidth) (a : Nat) (v : Slot)
  /-- The next read of STATUS of a `WAIT` loop (R87, R89): made only if the host's last read showed
  BUSY = 1; otherwise the loop has ended and there is no transaction (log entry 21). -/
  | pollStatus
  /-- A host write to the register port of the value that its last read returned, as NQ0's
  `RD INV_Y` -> y ; `WR NQUOTE0, y` needs it (R95; log entry 21). -/
  | regWriteBack (offset : Nat)
  /-- RST is asserted (R251, R252). -/
  | rst
  /-- The engine is powered on anew (R250). -/
  | powerOn
  /-- The controller takes one hidden move (R42). -/
  | advance
  /-- The engine takes its completion step (R108, R109). -/
  | complete
deriving DecidableEq, Repr

/-- The state of one engine and its host port. -/
structure State where
  /-- W and LMEM_LIMBS of this machine (R5); no step changes them. -/
  params    : Params
  /-- CTRL.IE (R25). -/
  ie        : Bool
  /-- STATUS, all but BUSY (R26). -/
  status    : Status
  /-- The cfg registers (R22). -/
  cfg       : CfgRegs
  /-- INV_Y (R36), W bits, held zero-extended. -/
  invY      : BitVec 64
  /-- LMEM (R37). -/
  lmem      : Memory
  /-- The hidden state (R40): absent when idle (phase IDLE, no element holds a value). -/
  engine    : Option Engine
  /-- The events still to come, the next one first. The model's own (log entries 9 and 10). -/
  bus       : List Event
  /-- What the host's last read returned. The model's own; only the host's own later transactions
  (`pollStatus`, `regWriteBack`) look at it (log entry 11). -/
  readData  : Option Slot
  /-- The number of the Draw that filled LMEM at power-on. The model's own (log entry 4). -/
  powerDraw : Nat
  /-- The number of the next Draw. The model's own (log entry 5). -/
  draws     : Nat
deriving DecidableEq, Repr

/-- How a step can stop. The MEE itself has no fault and no trap (R223, R225). -/
inductive Fault where
  /-- Raised by the completion of a command (every meaning but INV1's) when one of its buffers is
  not inside LMEM, so that the engine would touch a limb that does not exist (R37). Acceptance
  checks the ranges (R104) and nothing can change them while BUSY (R31), so no run reaches it: safe.
  Log entry 13. -/
  | engineOutsideLmem
deriving DecidableEq, Repr

/-- Why a command has no meaning. -/
inductive Refusal where
  /-- Raised only by an arm of `exec` for a command not modelled yet; safe. No arm does. -/
  | notModelled (mnemonic : String)
deriving DecidableEq, Repr

/-- STATUS with every stored field at its reset value (R26, R250). -/
def Status.reset : Status :=
  { done := false, overrun := false, hostviol := false, err := .none }

/-- The cfg registers at their reset value 0 (R22, R250). -/
def CfgRegs.reset : CfgRegs :=
  { rLimbs := 0, nquote0 := 0, addrOut := 0, addrN := 0, addrA := 0, addrB := 0, addrT := 0,
    addrScr := 0, addrExp := 0, expBits := 0, invX := 0 }

/-- The machine with parameters `p` right after power-on reset (R250): registers 0, interrupt
masked, phase IDLE, every LMEM limb unspecified (Draw number 0). No event is pending. -/
def State.powerOn (p : Params) : State :=
  { params := p, ie := false, status := Status.reset, cfg := CfgRegs.reset, invY := 0, lmem := [],
    engine := none, bus := [], readData := none, powerDraw := 0, draws := 1 }

/-- The machine right after power-on reset (R250), for the machine that 95_test_vectors.md section 3
starts its programs on: W = 32 and LMEM_LIMBS = 256. That choice of parameters is log entry 2
(DESIGN CHOICE, unsafe for a claim about this one state only). -/
def State.reset : State := State.powerOn { width := .w32, lastLimb := 255#32 }

end Sys2Proof.Machine
end

