-- ==== Sys2Proof/Machine/Ops.lean ====
section
/-! DEFINITION. The named operations over LMEM and the registers: limb sequences as integers (R8),
`MemRead`, `MemWrite` and `Draw` (R9), and the start, the rejection and the end of a command's
status (R102, R107, R108). The rejection of a command is the MEE's nearest thing to taking an
exception (R225): `State.raiseCmdError`; nothing returns from it (R226). -/

namespace Sys2Proof.Machine

/-! ### Limb sequences as integers (R8) -/

/-- The integer held by limbs (or bytes) of `w` bits, least significant first (R8). -/
def valOf (w : Nat) : List Nat → Nat
  | [] => 0
  | x :: xs => x + 2 ^ w * valOf w xs

/-- The `n` limbs of `w` bits of an integer, least significant first; what does not fit is dropped,
as `MemWrite` takes v mod 2^(n*W) (R8, R9). -/
def limbsOf (w : Nat) : Nat → Nat → List Nat
  | 0, _ => []
  | n + 1, v => v % 2 ^ w :: limbsOf w n (v / 2 ^ w)

/-- limb(v, j) of an integer v (R8). -/
def limbOf (w v j : Nat) : Nat := v / 2 ^ (j * w) % 2 ^ w

/-- The `n` bytes of an integer, least significant first (R62). -/
def bytesOf : Nat → Nat → List Byte
  | 0, _ => []
  | n + 1, v => BitVec.ofNat 8 v :: bytesOf n (v / 256)

/-! ### Memory: one canonical list of (byte address, byte) -/

/-- The canonical form: addresses strictly rising. Unlisted means never written, so no entry equals
what an unlisted address holds. -/
abbrev Memory.wf (m : Memory) : Prop := m.Pairwise (fun c d => c.1 < d.1)

/-- The byte listed at an address; `none` at an address nothing has written since power-on. -/
def Memory.read? (m : Memory) (a : Nat) : Option Byte := m.lookup a

/-- Bytes as cells at rising addresses from `lo`. -/
def Memory.cells : Nat → List Byte → Memory
  | _, [] => []
  | lo, b :: bs => (lo, b) :: Memory.cells (lo + 1) bs

/-- The memory with the bytes `bs` at `lo` and up, and every other address as before. -/
def Memory.writeBytes (m : Memory) (lo : Nat) (bs : List Byte) : Memory :=
  m.filter (fun c => decide (c.1 < lo)) ++ Memory.cells lo bs ++
    m.filter (fun c => decide (lo + bs.length ≤ c.1))

/-! ### LMEM -/

/-- W, the limb width in bits (R5). -/
def State.limbBits (s : State) : Nat := s.params.width.bits

/-- W/8, the bytes of a limb (R62). -/
def State.limbBytes (s : State) : Nat := s.params.width.bytes

/-- LMEM_LIMBS (R5, R37): 1 to 2^32. -/
def State.lmemLimbs (s : State) : Nat := s.params.lastLimb.toNat + 1

/-- The byte at a byte address of LMEM: what was last written there, or the power-on draw (R250,
R254: "It must never assume zero"; U1). -/
def State.byteAt (s : State) (a : Nat) : Byte :=
  (Memory.read? s.lmem a).getD (Config.drawn s.powerDraw a)

/-- The `n` bytes from a byte address up, as numbers. -/
def State.bytesAt (s : State) : Nat → Nat → List Nat
  | _, 0 => []
  | a, n + 1 => (s.byteAt a).toNat :: s.bytesAt (a + 1) n

/-- LMEM[a], the limb at limb address `a` (R37, R62). -/
def State.limb (s : State) (a : Nat) : Nat := valOf 8 (s.bytesAt (a * s.limbBytes) s.limbBytes)

/-- The `n` limbs from limb address `a` up. -/
def State.limbs (s : State) : Nat → Nat → List Nat
  | _, 0 => []
  | a, n + 1 => s.limb a :: s.limbs (a + 1) n

/-- `MemRead(addr, n)`: the integer held by the n limbs at `addr` (R8, R9). n = 0 gives 0. -/
def State.memRead (s : State) (addr n : Nat) : Nat := valOf s.limbBits (s.limbs addr n)

/-- Limbs as the bytes they are stored as, each limb little-endian (R62). -/
def bytesOfLimbs (k : Nat) : List Nat → List Byte
  | [] => []
  | x :: xs => bytesOf k x ++ bytesOfLimbs k xs

/-- `MemWrite(addr, n, v)`: limb j of v mod 2^(n*W) to LMEM[addr+j] (R9). -/
def State.memWrite (s : State) (addr n v : Nat) : State :=
  { s with
    lmem := Memory.writeBytes s.lmem (addr * s.limbBytes)
      (bytesOfLimbs s.limbBytes (limbsOf s.limbBits n v)) }

/-- `n` bytes of Draw number `draw` from byte address `lo` up. -/
def drawnBytes (draw : Nat) : Nat → Nat → List Byte
  | _, 0 => []
  | lo, n + 1 => Config.drawn draw lo :: drawnBytes draw (lo + 1) n

/-- `Draw(addr, n)`: the n limbs at `addr` become unspecified values (R9, R85, D10). Each Draw takes
a fresh number, so no two Draws are known to give the same bytes (log entry 5). -/
def State.drawLimbs (s : State) (addr n : Nat) : State :=
  { s with
    lmem := Memory.writeBytes s.lmem (addr * s.limbBytes)
      (drawnBytes s.draws (addr * s.limbBytes) (n * s.limbBytes))
    draws := s.draws + 1 }

/-! ### Status and the life of a command -/

/-- STATUS.BUSY (R26): 1 exactly while a command runs (R40, R106, R108). Log entry 6. -/
def State.busy (s : State) : Bool := s.engine.isSome

/-- A CMD write while BUSY = 0 first clears DONE and ERR and nothing else (R102). -/
def State.beginCommand (s : State) : State :=
  { s with status := { s.status with done := false, err := .none } }

/-- `raise CmdError(code)`: ERR <- code and DONE <- 1, and nothing else (R107, R225). -/
def State.raiseCmdError (s : State) (code : ErrCode) : State :=
  { s with status := { s.status with done := true, err := code } }

/-- The status side of completion: BUSY <- 0, phase IDLE, the hidden elements lose their values, and
DONE <- 1; ERR stays as it is (R108, R40). -/
def State.endCommand (s : State) : State :=
  { s with engine := none, status := { s.status with done := true } }

/-- OVERRUN <- 1 (R101). -/
def State.setOverrun (s : State) : State :=
  { s with status := { s.status with overrun := true } }

/-- HOSTVIOL <- 1 (R31, R63). -/
def State.setHostviol (s : State) : State :=
  { s with status := { s.status with hostviol := true } }

end Sys2Proof.Machine
end

