-- ==== Sys2Proof/Machine/Datapath.lean ====
section
/-! DEFINITION. The datapath primitives (R120 to R128): limb operations, and the multi-limb operations
as carry chains from limb 0 upwards. Limbs are integers below 2^W; every operation is exact and
narrows only where the rule says so (R128). The internal algorithm of the product is open and only its
exact result is fixed (R121, log entry 18). -/

namespace Sys2Proof.Machine

/-! ### Limb operations (R120) -/

/-- `MulLL(x, y)`: (hi, lo) of the exact product. -/
def mulLL (w x y : Nat) : Nat × Nat := (x * y / 2 ^ w, x * y % 2 ^ w)

/-- `MulLo(x, y)`: the product modulo 2^W. -/
def mulLo (w x y : Nat) : Nat := x * y % 2 ^ w

/-- `AddC(x, y, ci)`: (co, s) of x + y + ci. -/
def addC (w x y ci : Nat) : Nat × Nat := ((x + y + ci) / 2 ^ w, (x + y + ci) % 2 ^ w)

/-- `MulAddC(x, y, z, cy)`: (hi, lo) of x*y + z + cy. -/
def mulAddC (w x y z cy : Nat) : Nat × Nat := ((x * y + z + cy) / 2 ^ w, (x * y + z + cy) % 2 ^ w)

/-- (x - y) modulo m, on integers (R120, R124, R151). -/
def subMod (x y m : Nat) : Nat := (((x : Int) - (y : Int)) % (m : Int)).toNat

/-- `SubB(x, y, bi)`: (bo, d) with d = (x - y - bi) mod 2^W and bo = 1 iff x < y + bi. -/
def subB (w x y bi : Nat) : Nat × Nat :=
  (if x < y + bi then 1 else 0, subMod x (y + bi) (2 ^ w))

/-! ### Multi-limb operations -/

/-- `FullMul`: the exact product of two r-limb values in 2r limbs (R122). -/
def fullMul (w r : Nat) (a b : List Nat) : List Nat := limbsOf w (2 * r) (valOf w a * valOf w b)

/-- `Square`: the exact square of an r-limb value in 2r limbs (R123). -/
def square (w r : Nat) (a : List Nat) : List Nat := limbsOf w (2 * r) (valOf w a * valOf w a)

/-- The borrow chain of `SubN` from borrow `bw`; the final borrow is discarded (R124). -/
def subChain (w : Nat) : List Nat → List Nat → Nat → List Nat
  | x :: xs, y :: ys, bw =>
    let d := subB w x y bw
    d.2 :: subChain w xs ys d.1
  | _, _, _ => []

/-- `SubN(x, y)` (R124). -/
def subN (w : Nat) (x y : List Nat) : List Nat := subChain w x y 0

/-- `Cmp(x, y)` on the values (R125). -/
def cmpLimbs (w : Nat) (x y : List Nat) : Ordering := compare (valOf w x) (valOf w y)

/-- `Copy(src)` (R126). -/
def copyLimbs (src : List Nat) : List Nat := src

/-- The first loop of `AddMulShift` (R127): add m * n to as many limbs of t, from carry limb `cy`;
the rest of t is returned beside the new limbs and the carry. -/
def addMulRow (w m : Nat) : List Nat → List Nat → Nat → List Nat × List Nat × Nat
  | x :: t, y :: n, cy =>
    let p := mulAddC w m y x cy
    let rest := addMulRow w m t n p.1
    (p.2 :: rest.1, rest.2)
  | t, _, cy => ([], t, cy)

/-- The second loop of `AddMulShift` (R127): propagate a carry through the higher limbs of t; with
no limb left the carry out is 1 iff the carry is not 0. -/
def carryChain (w : Nat) : List Nat → Nat → List Nat × Nat
  | [], cy => ([], if cy = 0 then 0 else 1)
  | x :: t, cy =>
    let p := addC w x cy 0
    let rest := carryChain w t p.1
    (p.2 :: rest.1, rest.2)

/-- `AddMulShift(t, i, m, n)` (R127): (co, new t). -/
def addMulShift (w : Nat) (t : List Nat) (i m : Nat) (n : List Nat) : Nat × List Nat :=
  let row := addMulRow w m (t.drop i) n 0
  let top := carryChain w row.2.1 row.2.2
  (top.2, t.take i ++ row.1 ++ top.1)

end Sys2Proof.Machine
end

