-- ==== Sys2Proof/Machine/Algorithms.lean ====
section
/-! DEFINITION. The functions the commands compute, on integers: Inv1 (R141), Redc in its integer form
and in its limb form (R151), MontMul and MontSqr (R170), BuildTable (R191), and the window loop of
MODPOW (R201). They are total: a violated arithmetic precondition gives the value computed (R113,
log entry 15). -/

namespace Sys2Proof.Machine

/-! ### Inv1 (R141) -/

/-- One pass of Inv1: bit `bitpos` of the partial inverse `y` is set iff bit `bitpos` of
x*y mod 2^W is 1 (R141). -/
def inv1Bit (w x y bitpos : Nat) : Nat :=
  if (mulLo w x y).testBit bitpos then y ||| (1 <<< bitpos) else y

/-- `y` after the passes for bits 1 to k; bit 0 is "trivially 1" (R141). -/
def inv1Upto (w x : Nat) : Nat → Nat
  | 0 => 1
  | k + 1 => inv1Bit w x (inv1Upto w x k) (k + 1)

/-- `Inv1(x)`: passes for bits 1 to W-1 (R141). An even x gives this value too (R143). -/
def inv1 (w x : Nat) : Nat := inv1Upto w x (w - 1)

/-! ### Redc, integer form (R151) -/

/-- Iteration i of Redc on (T, c). -/
def redcStep (w n nq r i : Nat) (tc : Nat × Bool) : Nat × Bool :=
  let m := limbOf w tc.1 i * nq % 2 ^ w
  let sum := tc.1 + m * n * 2 ^ (i * w)
  (sum % 2 ^ (2 * r * w), tc.2 || sum / 2 ^ (2 * r * w) != 0)

/-- (T, c) after iterations 0 to k-1; c is the OR of the carries (R151, R154). -/
def redcSweep (w n nq r t : Nat) : Nat → Nat × Bool
  | 0 => (t, false)
  | k + 1 => redcStep w n nq r k (redcSweep w n nq r t k)

/-- `Redc(T, N, nq, r)` (R151): the sweep, then exactly one conditional subtraction (R153). -/
def redc (w t n nq r : Nat) : Nat :=
  let tc := redcSweep w n nq r t r
  let u := tc.1 / 2 ^ (r * w)
  if tc.2 || decide (n ≤ u) then subMod u n (2 ^ (r * w)) else u

/-! ### Redc, limb form (R151) -/

/-- The digit `m = t[i] * nquote0 mod 2^W`. -/
def redcDigit (w nq i : Nat) (t : List Nat) : Nat := mulLo w (t.getD i 0) nq

/-- Digit step i with digit m on (t, c): AddMulShift, and the carry is kept. -/
def redcDigitStep (w : Nat) (n : List Nat) (i m : Nat) (tc : List Nat × Bool) : List Nat × Bool :=
  let a := addMulShift w tc.1 i m n
  (a.2, tc.2 || a.1 != 0)

/-- (t, c) after digit steps 0 to k-1. -/
def redcLimbSweep (w nq : Nat) (n t : List Nat) : Nat → List Nat × Bool
  | 0 => (t, false)
  | k + 1 =>
    let tc := redcLimbSweep w nq n t k
    redcDigitStep w n k (redcDigit w nq k tc.1) tc

/-- REDC_FIX: the upper half of t, less n if the carry is set or the comparison is not LT. -/
def redcFixLimbs (w r : Nat) (n : List Nat) (tc : List Nat × Bool) : List Nat :=
  let u := tc.1.drop r
  if tc.2 || cmpLimbs w u n != Ordering.lt then subN w u n else copyLimbs u

/-- `Redc` on limbs. -/
def redcLimbs (w nq r : Nat) (n t : List Nat) : List Nat :=
  redcFixLimbs w r n (redcLimbSweep w nq n t r)

/-! ### Montgomery product and square (R170) -/

/-- `MontMul(x, y) = Redc(x * y, N, nq, r)`. -/
def montMul (w n nq r x y : Nat) : Nat := redc w (x * y) n nq r

/-- `MontSqr(x) = Redc(x * x, N, nq, r)`. -/
def montSqr (w n nq r x : Nat) : Nat := redc w (x * x) n nq r

/-- MontMul through the limb datapath: FullMul, then Redc on the working area (R171). -/
def montMulLimbs (w nq r : Nat) (n x y : List Nat) : List Nat :=
  redcLimbs w nq r n (fullMul w r x y)

/-- MontSqr through the limb datapath: Square, then Redc (R172). -/
def montSqrLimbs (w nq r : Nat) (n x : List Nat) : List Nat :=
  redcLimbs w nq r n (square w r x)

/-! ### BuildTable (R191) -/

/-- `count` table entries from the entry `x` on: each next one is MontMul(A, the one before). -/
def tableFrom (w n nq r a : Nat) : Nat → Nat → List Nat
  | 0, _ => []
  | count + 1, x => x :: tableFrom w n nq r a count (montMul w n nq r a x)

/-- `BuildTable(A)`: entry 0 is the literal 1 (R193), entry 1 is A, entry ti = MontMul(A, entry
ti-1) for ti = 2 to 63 (R191). -/
def buildTable (w n nq r a : Nat) : List Nat := 1 :: tableFrom w n nq r a 63 a

/-! ### The window loop (R201) -/

/-- k squarings of the accumulator. -/
def squarings (w n nq r : Nat) : Nat → Nat → Nat
  | 0, acc => acc
  | k + 1, acc => squarings w n nq r k (montSqr w n nq r acc)

/-- One block: six squarings, then the multiply by the entry of a window that is not 0 (R201). -/
def powBlock (w n nq r : Nat) (tbl : List Nat) (win acc : Nat) : Nat :=
  let sq := squarings w n nq r Config.windowBits acc
  if win = 0 then sq else montMul w n nq r sq (tbl.getD win 0)

/-- The blocks given as their windows, most significant first (R201). -/
def powBlocks (w n nq r : Nat) (tbl : List Nat) : List Nat → Nat → Nat
  | [], acc => acc
  | win :: wins, acc => powBlocks w n nq r tbl wins (powBlock w n nq r tbl win acc)

end Sys2Proof.Machine
end

