-- ==== Sys2Proof/Machine/Operands.lean ====
section
/-! DEFINITION. The operands of a command (R83 to R85): the registers it reads, the intervals of LMEM
it uses and in which role, the layout of its scratch interval, and the range and overlap conditions on
them (R10, R104, R105). All address arithmetic is on unbounded integers and does not wrap (R83). -/

namespace Sys2Proof.Machine

/-- `[base +: len]`, the limb addresses base to base+len-1 (R10). -/
structure Interval where
  base : Nat
  len  : Nat
deriving DecidableEq, Repr

/-- Limb address `a` lies in the interval (R10). -/
def Interval.has (x : Interval) (a : Nat) : Bool :=
  decide (x.base ≤ a) && decide (a < x.base + x.len)

/-- Both are nonempty and they share an address (R10). -/
def Interval.overlaps (x y : Interval) : Bool :=
  decide (0 < x.len) && decide (0 < y.len) &&
    decide (x.base < y.base + y.len) && decide (y.base < x.base + x.len)

/-- Same base and same length (R10). -/
def Interval.coincides (x y : Interval) : Bool :=
  decide (x.base = y.base) && decide (x.len = y.len)

/-- The interval is not empty and extends past LMEM_LIMBS (R104). -/
def Interval.outside (x : Interval) (lmemLimbs : Nat) : Bool :=
  decide (0 < x.len) && decide (lmemLimbs < x.base + x.len)

/-! ### Register operands (R83) -/

/-- `r = reg[R_LIMBS]`, zero-extended. -/
def State.r (s : State) : Nat := s.cfg.rLimbs.toNat

/-- `nq = reg[NQUOTE0]`, an unsigned limb. -/
def State.nq (s : State) : Nat := s.cfg.nquote0.toNat

/-- `L = reg[EXP_BITS]`, zero-extended. -/
def State.expLen (s : State) : Nat := s.cfg.expBits.toNat

/-- `x = reg[INV_X]`, an unsigned limb. -/
def State.invArg (s : State) : Nat := s.cfg.invX.toNat

/-- `ceil(a / b)` (R7). -/
def ceilDiv (a b : Nat) : Nat := (a + b - 1) / b

/-- The limbs of the exponent, `ceil(L / W)` (R35, R84, R202). -/
def State.expLimbs (s : State) : Nat := ceilDiv s.expLen s.limbBits

/-! ### Buffers (R84) -/

/-- What a command does with a buffer (R84). -/
inductive Role where
  /-- in: read only. -/
  | input
  /-- out: written. -/
  | output
  /-- inout: read, then written. -/
  | inout
  /-- scratch: written and read by the engine, left unspecified. -/
  | scratch
deriving DecidableEq, Repr

/-- The buffers of R84. -/
inductive BufName where
  | out
  | n
  | a
  | b
  | t
  | scr
  | exp
deriving DecidableEq, Repr

/-- One row of R84. -/
structure Buffer where
  name : BufName
  role : Role
  span : Interval
deriving DecidableEq, Repr

/-- The OUT buffer with a given length. -/
def State.outSpan (s : State) (len : Nat) : Interval := { base := s.cfg.addrOut.toNat, len := len }

/-- The N buffer, r limbs. -/
def State.nSpan (s : State) : Interval := { base := s.cfg.addrN.toNat, len := s.r }

/-- The A buffer, r limbs. -/
def State.aSpan (s : State) : Interval := { base := s.cfg.addrA.toNat, len := s.r }

/-- The B buffer, r limbs. -/
def State.bSpan (s : State) : Interval := { base := s.cfg.addrB.toNat, len := s.r }

/-- The T buffer, 2r limbs. -/
def State.tSpan (s : State) : Interval := { base := s.cfg.addrT.toNat, len := 2 * s.r }

/-- The SCR buffer with a given length. -/
def State.scrSpan (s : State) (len : Nat) : Interval := { base := s.cfg.addrScr.toNat, len := len }

/-- The EXP buffer, ceil(L/W) limbs. -/
def State.expSpan (s : State) : Interval := { base := s.cfg.addrExp.toNat, len := s.expLimbs }

/-- The operand buffers of a command (R84). -/
def buffers (i : Instr) (s : State) : List Buffer :=
  match i with
  | .inv1 => []
  | .redc =>
    [⟨.out, .output, s.outSpan s.r⟩, ⟨.n, .input, s.nSpan⟩, ⟨.t, .inout, s.tSpan⟩]
  | .mul =>
    [⟨.out, .output, s.outSpan s.r⟩, ⟨.a, .input, s.aSpan⟩, ⟨.b, .input, s.bSpan⟩,
     ⟨.n, .input, s.nSpan⟩, ⟨.scr, .scratch, s.scrSpan (4 * s.r)⟩]
  | .sqr =>
    [⟨.out, .output, s.outSpan s.r⟩, ⟨.a, .input, s.aSpan⟩, ⟨.n, .input, s.nSpan⟩,
     ⟨.scr, .scratch, s.scrSpan (4 * s.r)⟩]
  | .build =>
    [⟨.out, .output, s.outSpan (64 * s.r)⟩, ⟨.a, .input, s.aSpan⟩, ⟨.n, .input, s.nSpan⟩,
     ⟨.scr, .scratch, s.scrSpan (4 * s.r)⟩]
  | .modpow =>
    [⟨.out, .inout, s.outSpan s.r⟩, ⟨.a, .input, s.aSpan⟩, ⟨.n, .input, s.nSpan⟩,
     ⟨.exp, .input, s.expSpan⟩, ⟨.scr, .scratch, s.scrSpan (68 * s.r)⟩]

/-- The buffer is written by its command (R66, R252): its role is not `in`. -/
def Buffer.written (b : Buffer) : Bool :=
  match b.role with
  | .input => false
  | .output => true
  | .inout => true
  | .scratch => true

/-- The intervals a command writes (R66, R252): its output interval, its scratch interval and, for
REDC, `[ADDR_T +: 2r]`. -/
def writtenSpans (i : Instr) (s : State) : List Interval :=
  ((buffers i s).filter Buffer.written).map Buffer.span

/-! ### Scratch layout (R85) -/

/-- The product and REDC working area `t` of MUL, SQR and BUILD: `[S +: 2r]`. -/
def State.scratchT (s : State) : Interval := { base := s.cfg.addrScr.toNat, len := 2 * s.r }

/-- The multiply and square scratch of MUL, SQR and BUILD: `[S+2r +: 2r]`. -/
def State.scratchMul (s : State) : Interval :=
  { base := s.cfg.addrScr.toNat + 2 * s.r, len := 2 * s.r }

/-- MODPOW's table entry `e`: `[S + e*r +: r]`. -/
def State.powEntry (s : State) (e : Nat) : Interval :=
  { base := s.cfg.addrScr.toNat + e * s.r, len := s.r }

/-- MODPOW's working area `t`: `[S+64r +: 2r]`. -/
def State.powScratchT (s : State) : Interval :=
  { base := s.cfg.addrScr.toNat + 64 * s.r, len := 2 * s.r }

/-- MODPOW's multiply and square scratch: `[S+66r +: 2r]`. -/
def State.powScratchMul (s : State) : Interval :=
  { base := s.cfg.addrScr.toNat + 66 * s.r, len := 2 * s.r }

/-! ### The range and overlap conditions (R104, R105) -/

/-- `RangeViolation(op)`: some buffer is not empty and extends past LMEM_LIMBS (R104). -/
def rangeViolation (i : Instr) (s : State) : Bool :=
  (buffers i s).any (fun b => b.span.outside s.lmemLimbs)

/-- Two intervals overlap without coinciding (R105). -/
def Interval.partlyOverlaps (x y : Interval) : Bool := x.overlaps y && !x.coincides y

/-- `AliasViolation(op)`, the table of R105. -/
def aliasViolation (i : Instr) (s : State) : Bool :=
  match i with
  | .inv1 => false
  | .redc =>
    let out := s.outSpan s.r
    s.tSpan.overlaps s.nSpan || out.partlyOverlaps s.nSpan ||
      (out.overlaps s.tSpan && !decide (s.cfg.addrOut.toNat = s.cfg.addrT.toNat + s.r))
  | .mul =>
    let out := s.outSpan s.r
    let scr := s.scrSpan (4 * s.r)
    scr.overlaps out || scr.overlaps s.aSpan || scr.overlaps s.bSpan || scr.overlaps s.nSpan ||
      out.partlyOverlaps s.aSpan || out.partlyOverlaps s.bSpan || out.partlyOverlaps s.nSpan
  | .sqr =>
    let out := s.outSpan s.r
    let scr := s.scrSpan (4 * s.r)
    scr.overlaps out || scr.overlaps s.aSpan || scr.overlaps s.nSpan ||
      out.partlyOverlaps s.aSpan || out.partlyOverlaps s.nSpan
  | .build =>
    let out := s.outSpan (64 * s.r)
    let scr := s.scrSpan (4 * s.r)
    scr.overlaps out || scr.overlaps s.aSpan || scr.overlaps s.nSpan ||
      out.overlaps s.aSpan || out.overlaps s.nSpan
  | .modpow =>
    let out := s.outSpan s.r
    let scr := s.scrSpan (68 * s.r)
    scr.overlaps out || scr.overlaps s.aSpan || scr.overlaps s.nSpan || scr.overlaps s.expSpan ||
      out.overlaps s.aSpan || out.overlaps s.nSpan || out.overlaps s.expSpan

/-- The checks of `Check(v)` after the word has been decoded, in their order (R103, R222): INV1 has
none; then BAD_LEN, RANGE, ALIAS. -/
def checkOperands (i : Instr) (s : State) : ErrCode :=
  if i = .inv1 then .none
  else if s.r = 0 then .badLen
  else if rangeViolation i s then .range
  else if aliasViolation i s then .overlap
  else .none

end Sys2Proof.Machine
end

