-- ==== Sys2Proof/Machine/Exponent.lean ====
section
/-! DEFINITION. The exponent of MODPOW as the engine reads it (R202, R207): single bits of the
exponent's limbs, bits at positions L and above read as 0, and the windows of K = 6 bits. -/

namespace Sys2Proof.Machine

/-- `ebit(p)`: bit p of the exponent, 0 for p ≥ L (R202). -/
def State.ebit (s : State) (p : Nat) : Nat :=
  if s.expLen ≤ p then 0
  else ((s.limb (s.cfg.addrExp.toNat + p / s.limbBits)).testBit (p % s.limbBits)).toNat

/-- Bits p, p+1, ..., p+k-1 of the exponent as an integer, bit p least significant. -/
def State.ebits (s : State) (p : Nat) : Nat → Nat
  | 0 => 0
  | k + 1 => s.ebit p + 2 * s.ebits (p + 1) k

/-- `Window(j)`: bits 6j+5 .. 6j of the exponent, a 6-bit value (R202). -/
def State.window (s : State) (j : Nat) : Nat := s.ebits (Config.windowBits * j) Config.windowBits

/-- `B = ceil(L / 6)`, the number of blocks (R201). -/
def State.blocks (s : State) : Nat := ceilDiv s.expLen Config.windowBits

/-- The windows of blocks k-1 down to 0. -/
def State.windowsBelow (s : State) : Nat → List Nat
  | 0 => []
  | k + 1 => s.window k :: s.windowsBelow k

end Sys2Proof.Machine
end

