-- ==== Sys2Proof/Machine/Controller.lean ====
section
/-! DEFINITION. The hidden controller of a running command (R40, R42): its first phase, and its moves.
One move is one bit of INV1, one digit of REDC, the final step of REDC, one full product, one table
entry, one squaring or one window multiply, so that the number of moves is the work R265 counts. The
controller reads the registers and LMEM, which hold their values of acceptance throughout (R32, R63),
and works on limbs (R120, R127, R151); its working values stay in `Position` (log entries 7 and 8). -/

namespace Sys2Proof.Machine

/-- The limbs of N. -/
def State.nLimbs (s : State) : List Nat := s.limbs s.cfg.addrN.toNat s.r

/-- The limbs of A. -/
def State.aLimbs (s : State) : List Nat := s.limbs s.cfg.addrA.toNat s.r

/-- The limbs of B. -/
def State.bLimbs (s : State) : List Nat := s.limbs s.cfg.addrB.toNat s.r

/-- REDC_RED at digit 0 of the working area `t` (R151). -/
def State.enterRedc (s : State) (t : List Nat) : Position :=
  .redcRed t 0 false (redcDigit s.limbBits s.nq 0 t)

/-- WIN_SQ of the block below `k` blocks left, or FINISH when no block is left (R42, R201, R204). -/
def State.enterBlock (s : State) (entries : List Nat) (acc : Nat) : Nat → Position
  | 0 => .finish [acc]
  | j + 1 => .winSq entries acc j 0 (BitVec.ofNat 6 (s.window j))

/-- The first position of a command (R42): INV for INV1, REDC_RED for REDC, PROD for MUL and SQR,
TBL for BUILD and MODPOW. -/
def State.firstPosition (s : State) : Instr → Position
  | .inv1 => .inv 1 1
  | .redc => s.enterRedc (s.limbs s.cfg.addrT.toNat (2 * s.r))
  | .mul => .prod
  | .sqr => .prod
  | .build => .tbl [1, s.memRead s.cfg.addrA.toNat s.r] 2
  | .modpow => .tbl [1, s.memRead s.cfg.addrA.toNat s.r] 2

/-- MontMul of two r-limb values through the limb datapath. -/
def State.engineMul (s : State) (x y : Nat) : Nat :=
  valOf s.limbBits (montMulLimbs s.limbBits s.nq s.r s.nLimbs
    (limbsOf s.limbBits s.r x) (limbsOf s.limbBits s.r y))

/-- MontSqr of an r-limb value through the limb datapath. -/
def State.engineSqr (s : State) (x : Nat) : Nat :=
  valOf s.limbBits (montSqrLimbs s.limbBits s.nq s.r s.nLimbs (limbsOf s.limbBits s.r x))

/-- One move of the controller (R42). At FINISH it has no further move: what follows is the
completion. -/
def State.movePosition (s : State) (op : Instr) : Position → Position
  | .inv y bitpos =>
    let y' := inv1Bit s.limbBits s.invArg y bitpos
    if bitpos + 1 < s.limbBits then .inv y' (bitpos + 1) else .finish [y']
  | .prod =>
    s.enterRedc (if op = .sqr then square s.limbBits s.r s.aLimbs
      else fullMul s.limbBits s.r s.aLimbs s.bLimbs)
  | .redcRed t i c m =>
    let tc := redcDigitStep s.limbBits s.nLimbs i m (t, c)
    if i + 1 < s.r then .redcRed tc.1 (i + 1) tc.2 (redcDigit s.limbBits s.nq (i + 1) tc.1)
    else .redcFix tc.1 tc.2
  | .redcFix t c => .finish [valOf s.limbBits (redcFixLimbs s.limbBits s.r s.nLimbs (t, c))]
  | .tbl entries ti =>
    let entries' := entries ++
      [s.engineMul (s.memRead s.cfg.addrA.toNat s.r) (entries.getD (ti - 1) 0)]
    if ti + 1 < Config.tableEntries then .tbl entries' (ti + 1)
    else if op = .modpow then
      s.enterBlock entries' (s.memRead s.cfg.addrOut.toNat s.r) s.blocks
    else .finish entries'
  | .winSq entries acc j q w =>
    let acc' := s.engineSqr acc
    if q + 1 < Config.windowBits then .winSq entries acc' j (q + 1) w
    else if w = 0#6 then s.enterBlock entries acc' j
    else .winMul entries acc' j w
  | .winMul entries acc j w =>
    s.enterBlock entries (s.engineMul acc (entries.getD w.toNat 0)) j
  | .finish results => .finish results

/-- One move of a running engine. -/
def State.moveEngine (s : State) (e : Engine) : Engine :=
  { e with pos := s.movePosition e.op e.pos }

/-- The engine after k moves. -/
def State.moveEngines (s : State) : Nat → Engine → Engine
  | 0, e => e
  | k + 1, e => s.moveEngines k (s.moveEngine e)

/-! ### Work (R205, R265; informative timing: no rule depends on it) -/

/-- The windows of the exponent that are not 0 (R205). -/
def State.nonzeroWindows (s : State) : Nat :=
  ((s.windowsBelow s.blocks).filter (fun w => decide (w ≠ 0))).length

/-- The MontMul a command does, by the table of R265. -/
def State.montMuls (s : State) : Instr → Nat
  | .inv1 => 0
  | .redc => 0
  | .mul => 1
  | .sqr => 0
  | .build => 62
  | .modpow => 62 + s.nonzeroWindows

/-- The MontSqr a command does, by the table of R265. -/
def State.montSqrs (s : State) : Instr → Nat
  | .inv1 => 0
  | .redc => 0
  | .mul => 0
  | .sqr => 1
  | .build => 0
  | .modpow => 6 * s.blocks

/-- The controller moves from acceptance to FINISH: W-1 bit tests for INV1; r digit steps and the
final step for REDC; one product before them for MUL and SQR; one move per MontMul and MontSqr for
BUILD and MODPOW (R42, R265). -/
def State.moves (s : State) : Instr → Nat
  | .inv1 => s.limbBits - 1
  | .redc => s.r + 1
  | .mul => s.montMuls .mul + s.r + 1
  | .sqr => s.montSqrs .sqr + s.r + 1
  | .build => s.montMuls .build
  | .modpow => s.montMuls .modpow + s.montSqrs .modpow

/-! ### The phase -/

/-- The phase of a position (R40). -/
def Position.phase : Position → Phase
  | .inv _ _ => .inv
  | .prod => .prod
  | .redcRed _ _ _ _ => .redcRed
  | .redcFix _ _ => .redcFix
  | .tbl _ _ => .tbl
  | .winSq _ _ _ _ _ => .winSq
  | .winMul _ _ _ _ => .winMul
  | .finish _ => .finish

/-- `phase` (R40): IDLE when no command runs. -/
def State.phase (s : State) : Phase :=
  match s.engine with
  | none => .idle
  | some e => e.pos.phase

end Sys2Proof.Machine
end

