-- ==== Sys2Proof/Machine/Control.lean ====
section
/-! DEFINITION. The life of a command (R100 to R113): what issuing it to an idle engine does, what its
completion does, and the shape every meaning shares. -/

namespace Sys2Proof.Machine

/-- `Accept(op)`: BUSY <- 1, `op` is latched and `phase` leaves IDLE (R106). -/
def State.accept (s : State) (i : Instr) : State :=
  { s with engine := some { op := i, pos := s.firstPosition i } }

/-- A CMD write of command `i` to an idle engine (R100): DONE and ERR are cleared (R102), the
operands are checked (R103), and the command is accepted (R106) or rejected (R107). -/
def State.issue (s : State) (i : Instr) : State :=
  match checkOperands i s with
  | .none => s.beginCommand.accept i
  | code => s.beginCommand.raiseCmdError code

/-- The completion step of a running command (R108): its effect, computed from the registers and
LMEM as they have been since acceptance, then BUSY <- 0 and DONE <- 1. An engine whose buffers do
not lie in LMEM stops (log entry 13; no run reaches it). -/
def State.completeWith (s : State) (i : Instr) (effect : State → State) :
    Host.Outcome State Fault Refusal :=
  if rangeViolation i s then .fault .engineOutsideLmem else .next (effect s).endCommand

/-- What the machine does about command `i` (log entry 1): an idle engine has just been given it by a
CMD write (R100); a busy engine takes its completion step (R108). A CMD write to a busy engine is an
overrun, which never gets here (R101, R222: it "is not checked at all"). -/
def State.runCommand (s : State) (i : Instr) (effect : State → State) :
    Host.Outcome State Fault Refusal :=
  if s.busy then s.completeWith i effect else .next (s.issue i)

end Sys2Proof.Machine
end

