-- ==== Sys2Proof/Machine/Inverse.lean ====
section
/-! DEFINITION. The meaning of INV1 (R140 to R144). -/

namespace Sys2Proof.Machine

/-- INV1's effect: `INV_Y <- Inv1(reg[INV_X])`; no LMEM access (R141). An even x
gives the pseudocode's value (R143, log entry 14). -/
def inv1Effect (s : State) : State :=
  { s with invY := BitVec.ofNat 64 (inv1 s.limbBits s.invArg) }

/-- INV1 (R141). -/
def execInv1 (s : State) : Host.Outcome State Fault Refusal := s.runCommand .inv1 inv1Effect

end Sys2Proof.Machine
end

