-- ==== Sys2Proof/Machine/Redc.lean ====
section
/-! DEFINITION. The meaning of REDC (R150 to R157). -/

namespace Sys2Proof.Machine

/-- N, the value of the r limbs at ADDR_N. -/
def State.nVal (s : State) : Nat := s.memRead s.cfg.addrN.toNat s.r

/-- The value REDC publishes (R150). -/
def redcResult (s : State) : Nat :=
  redc s.limbBits (s.memRead s.cfg.addrT.toNat (2 * s.r)) s.nVal s.nq s.r

/-- The last two lines of REDC (R150): t is drawn, then the output is written. Where the output is the
upper half of t, its limbs end as the output, so exactly the limbs of t outside the output end drawn
(R155). -/
def State.publishReduced (s : State) (out : Nat) : State :=
  (s.drawLimbs s.cfg.addrT.toNat (2 * s.r)).memWrite s.cfg.addrOut.toNat s.r out

/-- REDC's effect (R150). -/
def redcEffect (s : State) : State := s.publishReduced (redcResult s)

/-- REDC (R150). -/
def execRedc (s : State) : Host.Outcome State Fault Refusal := s.runCommand .redc redcEffect

end Sys2Proof.Machine
end

