-- ==== Sys2Proof/Machine/MulSqr.lean ====
section
/-! DEFINITION. The meanings of MUL and SQR (R170 to R175). -/

namespace Sys2Proof.Machine

/-- A, the value of the r limbs at ADDR_A. -/
def State.aVal (s : State) : Nat := s.memRead s.cfg.addrA.toNat s.r

/-- B, the value of the r limbs at ADDR_B. -/
def State.bVal (s : State) : Nat := s.memRead s.cfg.addrB.toNat s.r

/-- The value MUL publishes: MontMul of A and B (R171). -/
def mulResult (s : State) : Nat := montMul s.limbBits s.nVal s.nq s.r s.aVal s.bVal

/-- The value SQR publishes: MontSqr of A (R172). -/
def sqrResult (s : State) : Nat := montSqr s.limbBits s.nVal s.nq s.r s.aVal

/-- The last two lines of MUL and SQR (R171, R172): the scratch is drawn, the output is written. -/
def State.publishProduct (s : State) (out : Nat) : State :=
  (s.drawLimbs s.cfg.addrScr.toNat (4 * s.r)).memWrite s.cfg.addrOut.toNat s.r out

/-- MUL's effect (R171). -/
def mulEffect (s : State) : State := s.publishProduct (mulResult s)

/-- SQR's effect (R172). -/
def sqrEffect (s : State) : State := s.publishProduct (sqrResult s)

/-- MUL (R171). -/
def execMul (s : State) : Host.Outcome State Fault Refusal := s.runCommand .mul mulEffect

/-- SQR (R172). -/
def execSqr (s : State) : Host.Outcome State Fault Refusal := s.runCommand .sqr sqrEffect

end Sys2Proof.Machine
end

