-- ==== Sys2Proof/Machine/PowerTable.lean ====
section
/-! DEFINITION. The meaning of BUILD (R190 to R195). -/

namespace Sys2Proof.Machine

/-- The 64 entries BUILD publishes (R190, R191). -/
def buildResult (s : State) : List Nat := buildTable s.limbBits s.nVal s.nq s.r s.aVal

/-- Entries one after another at limb address `o`, r limbs each: entry e at `o + e*r` (R190, R194). -/
def State.writeEntries (s : State) (o : Nat) : List Nat → State
  | [] => s
  | x :: xs => (s.memWrite o s.r x).writeEntries (o + s.r) xs

/-- The last two lines of BUILD (R190): the table is written, the scratch is drawn. -/
def State.publishTable (s : State) (tbl : List Nat) : State :=
  (s.writeEntries s.cfg.addrOut.toNat tbl).drawLimbs s.cfg.addrScr.toNat (4 * s.r)

/-- BUILD's effect (R190). -/
def buildEffect (s : State) : State := s.publishTable (buildResult s)

/-- BUILD (R190). -/
def execBuild (s : State) : Host.Outcome State Fault Refusal := s.runCommand .build buildEffect

end Sys2Proof.Machine
end

