-- ==== Sys2Proof/Machine/Modpow.lean ====
section
/-! DEFINITION. The meaning of MODPOW (R200 to R207). -/

namespace Sys2Proof.Machine

/-- The accumulator, the value of the r limbs at ADDR_OUT, read as the seed (R200). -/
def State.accVal (s : State) : Nat := s.memRead s.cfg.addrOut.toNat s.r

/-- The value MODPOW publishes (R201): the table of A, then the blocks from B-1 down to 0. -/
def modpowResult (s : State) : Nat :=
  powBlocks s.limbBits s.nVal s.nq s.r (buildResult s) (s.windowsBelow s.blocks) s.accVal

/-- FINISH of MODPOW (R201): the scratch, power table included, is drawn, and the accumulator is
rewritten. With L = 0 it is rewritten with its own value (R204). -/
def State.publishPower (s : State) (acc : Nat) : State :=
  (s.drawLimbs s.cfg.addrScr.toNat (68 * s.r)).memWrite s.cfg.addrOut.toNat s.r acc

/-- MODPOW's effect (R201). -/
def modpowEffect (s : State) : State := s.publishPower (modpowResult s)

/-- MODPOW (R200). -/
def execModpow (s : State) : Host.Outcome State Fault Refusal := s.runCommand .modpow modpowEffect

end Sys2Proof.Machine
end

