-- ==== Sys2Proof/Machine/Dispatch.lean ====
section
/-! DEFINITION. `exec`: the meaning of each command (R110), one arm per row of the opcode table. -/

namespace Sys2Proof.Machine

def exec (i : Instr) (s : State) : Host.Outcome State Fault Refusal :=
  match i with
  | .inv1 => Sys2Proof.Machine.execInv1 s
  | .redc => Sys2Proof.Machine.execRedc s
  | .mul => Sys2Proof.Machine.execMul s
  | .sqr => Sys2Proof.Machine.execSqr s
  | .build => Sys2Proof.Machine.execBuild s
  | .modpow => Sys2Proof.Machine.execModpow s

end Sys2Proof.Machine
end

