-- ==== Sys2Proof/Machine/Flags.lean ====
section
/-! DEFINITION. The host-visible flags: STATUS as a word (R26, R220), its write-one-to-clear fields,
CTRL as a word (R25), and the interrupt line (R38, R224). There is no condition-code register (R39). -/

namespace Sys2Proof.Machine

/-- The four-bit code of an error (R220). -/
def ErrCode.code : ErrCode → Nat
  | .none => 0
  | .illegalCmd => 1
  | .badLen => 2
  | .range => 3
  | .overlap => 4

/-- STATUS as the host reads it (R26): BUSY 0, DONE 1, OVERRUN 2, HOSTVIOL 3, ERR 7:4, rest 0. -/
def State.statusWord (s : State) : Word32 :=
  BitVec.ofNat 32 (s.busy.toNat + 2 * s.status.done.toNat + 4 * s.status.overrun.toNat +
    8 * s.status.hostviol.toNat + 16 * s.status.err.code)

/-- A host write to STATUS (R26): a 1 clears DONE, OVERRUN or HOSTVIOL, a 0 leaves it; BUSY, ERR and
the reserved bits ignore writes. -/
def Status.clearWritten (st : Status) (v : Word32) : Status :=
  { st with
    done := st.done && !v.getLsbD 1
    overrun := st.overrun && !v.getLsbD 2
    hostviol := st.hostviol && !v.getLsbD 3 }

/-- CTRL as the host reads it (R25): IE in bit 0, bits 31:1 read 0. -/
def State.ctrlWord (s : State) : Word32 := BitVec.ofNat 32 s.ie.toNat

/-- A host write to CTRL (R25): IE takes bit 0, the rest is ignored. -/
def State.setCtrl (s : State) (v : Word32) : State := { s with ie := v.getLsbD 0 }

/-- A host write to STATUS (R26). -/
def State.writeStatus (s : State) (v : Word32) : State :=
  { s with status := s.status.clearWritten v }

/-- The interrupt line, `IRQ = STATUS.DONE & CTRL.IE`, level-sensitive (R38, R224). -/
def State.irq (s : State) : Bool := s.status.done && s.ie

end Sys2Proof.Machine
end

