-- ==== Sys2Proof/Machine/Port.lean ====
section
/-! DEFINITION. The host's two ports: the register map and what a register write or read does (R22 to
R36), the LMEM port (R61, R63), the byte window of a platform (R62), and the places a platform gives them
(R62, R232). The write to CMD, which issues a command, is in Bus.lean. -/

namespace Sys2Proof.Machine

/-- The registers of R22. -/
inductive Reg where
  | id
  | lmemSize
  | ctrl
  | status
  | cmd
  | rLimbs
  | nquote0
  | addrOut
  | addrN
  | addrA
  | addrB
  | addrT
  | addrScr
  | addrExp
  | expBits
  | invX
  | invY
deriving DecidableEq, Repr

/-- Who may write a register and how (R22). -/
inductive Access where
  /-- RO. -/
  | ro
  /-- RW in every state: CTRL. -/
  | rw
  /-- Write-one-to-clear per field: STATUS. -/
  | w1c
  /-- WO: CMD. -/
  | wo
  /-- RW, but a write while BUSY is refused (R31). -/
  | cfg
deriving DecidableEq, Repr

/-- Byte offset of a register (R22). -/
def Reg.offset : Reg → Nat
  | .id => 0x00
  | .lmemSize => 0x08
  | .ctrl => 0x10
  | .status => 0x18
  | .cmd => 0x20
  | .rLimbs => 0x28
  | .nquote0 => 0x30
  | .addrOut => 0x38
  | .addrN => 0x40
  | .addrA => 0x48
  | .addrB => 0x50
  | .addrT => 0x58
  | .addrScr => 0x60
  | .addrExp => 0x68
  | .expBits => 0x70
  | .invX => 0x78
  | .invY => 0x80

/-- Width of a register in bits, on a machine of limb width `w` (R22). -/
def Reg.width (w : LimbWidth) : Reg → Nat
  | .id => 32
  | .lmemSize => 32
  | .ctrl => 32
  | .status => 32
  | .cmd => 32
  | .rLimbs => 32
  | .nquote0 => w.bits
  | .addrOut => 32
  | .addrN => 32
  | .addrA => 32
  | .addrB => 32
  | .addrT => 32
  | .addrScr => 32
  | .addrExp => 32
  | .expBits => 32
  | .invX => w.bits
  | .invY => w.bits

/-- Access of a register (R22). -/
def Reg.access : Reg → Access
  | .id => .ro
  | .lmemSize => .ro
  | .ctrl => .rw
  | .status => .w1c
  | .cmd => .wo
  | .rLimbs => .cfg
  | .nquote0 => .cfg
  | .addrOut => .cfg
  | .addrN => .cfg
  | .addrA => .cfg
  | .addrB => .cfg
  | .addrT => .cfg
  | .addrScr => .cfg
  | .addrExp => .cfg
  | .expBits => .cfg
  | .invX => .cfg
  | .invY => .ro

/-- Every register, in the order of the map. -/
def Reg.all : List Reg :=
  [.id, .lmemSize, .ctrl, .status, .cmd, .rLimbs, .nquote0, .addrOut, .addrN, .addrA, .addrB,
   .addrT, .addrScr, .addrExp, .expBits, .invX, .invY]

/-- The register at a byte offset; every other offset, also one that is not a multiple of 8, is
unmapped (R22, R64). -/
def Reg.atOffset (offset : Nat) : Option Reg :=
  Reg.all.find? (fun r => decide (r.offset = offset))

/-- The low W bits of port data, zero-extended: what a W-bit register takes (R30). -/
def narrowTo (w : LimbWidth) (v : Slot) : Slot := BitVec.ofNat 64 (v.toNat % 2 ^ w.bits)

/-- ID (R23): W | (K << 8). -/
def State.idWord (s : State) : Word32 :=
  BitVec.ofNat 32 (s.limbBits ||| (Config.windowBits <<< 8))

/-- LMEM_SIZE (R24): LMEM_LIMBS mod 2^32. -/
def State.lmemSizeWord (s : State) : Word32 := BitVec.ofNat 32 s.lmemLimbs

/-- The cfg registers with register `r` taking port data `v`: v[31:0], or v[W-1:0] for a W-bit
register (R30). A register that is not a cfg register changes none of them. -/
def CfgRegs.set (c : CfgRegs) (w : LimbWidth) (r : Reg) (v : Slot) : CfgRegs :=
  match r with
  | .id => c
  | .lmemSize => c
  | .ctrl => c
  | .status => c
  | .cmd => c
  | .rLimbs => { c with rLimbs := v.setWidth 32 }
  | .nquote0 => { c with nquote0 := narrowTo w v }
  | .addrOut => { c with addrOut := v.setWidth 32 }
  | .addrN => { c with addrN := v.setWidth 32 }
  | .addrA => { c with addrA := v.setWidth 32 }
  | .addrB => { c with addrB := v.setWidth 32 }
  | .addrT => { c with addrT := v.setWidth 32 }
  | .addrScr => { c with addrScr := v.setWidth 32 }
  | .addrExp => { c with addrExp := v.setWidth 32 }
  | .expBits => { c with expBits := v.setWidth 32 }
  | .invX => { c with invX := narrowTo w v }
  | .invY => c

/-- A host write of a cfg register: taken when idle, refused with HOSTVIOL while BUSY (R31). -/
def State.writeCfg (s : State) (r : Reg) (v : Slot) : State :=
  if s.busy then s.setHostviol else { s with cfg := s.cfg.set s.params.width r v }

/-- A host write to the register port, other than to CMD (R30, R31): RO registers and unmapped
offsets ignore it without a flag. CMD holds no state (R27). -/
def State.regWrite (s : State) (offset : Nat) (v : Slot) : State :=
  match Reg.atOffset offset with
  | none => s
  | some r =>
    match r.access with
    | .ro => s
    | .rw => s.setCtrl (v.setWidth 32)
    | .w1c => s.writeStatus (v.setWidth 32)
    | .wo => s
    | .cfg => s.writeCfg r v

/-- The value of a register, zero-extended to 64 bits (R33). CMD reads 0 (R27). -/
def State.regValue (s : State) : Reg → Slot
  | .id => s.idWord.setWidth 64
  | .lmemSize => s.lmemSizeWord.setWidth 64
  | .ctrl => s.ctrlWord.setWidth 64
  | .status => s.statusWord.setWidth 64
  | .cmd => 0#64
  | .rLimbs => s.cfg.rLimbs.setWidth 64
  | .nquote0 => s.cfg.nquote0
  | .addrOut => s.cfg.addrOut.setWidth 64
  | .addrN => s.cfg.addrN.setWidth 64
  | .addrA => s.cfg.addrA.setWidth 64
  | .addrB => s.cfg.addrB.setWidth 64
  | .addrT => s.cfg.addrT.setWidth 64
  | .addrScr => s.cfg.addrScr.setWidth 64
  | .addrExp => s.cfg.addrExp.setWidth 64
  | .expBits => s.cfg.expBits.setWidth 64
  | .invX => s.cfg.invX
  | .invY => s.invY

/-- What a read of the register port returns (R33): 0 at an unmapped offset. -/
def State.portValue (s : State) (offset : Nat) : Slot :=
  match Reg.atOffset offset with
  | none => 0#64
  | some r => s.regValue r

/-- A host read of the register port: the value is returned and nothing else changes (R33, R65). -/
def State.regRead (s : State) (offset : Nat) : State :=
  { s with readData := some (s.portValue offset) }

/-- The host's last read returned a value whose bit 0 is 1: where that read was of STATUS, it showed
BUSY = 1 (R26). -/
def State.sawBusy (s : State) : Bool :=
  match s.readData with
  | none => false
  | some d => d.getLsbD 0

/-- One more turn of a `WAIT` loop, "`RD STATUS` repeated until BUSY = 0" (R87): it reads STATUS
again only if the last read showed BUSY = 1. Log entry 21. -/
def State.pollStatus (s : State) : State :=
  if s.sawBusy then s.regRead (Reg.offset .status) else s

/-- A host write of LMEM limb `a` (R61, R63): while BUSY it is discarded with HOSTVIOL; at or above
LMEM_LIMBS it is ignored; otherwise `LMEM[a] <- v[W-1:0]`. -/
def State.lmemWrite (s : State) (a : Nat) (v : Slot) : State :=
  if s.busy then s.setHostviol
  else if a < s.lmemLimbs then s.memWrite a 1 v.toNat
  else s

/-- A host read of LMEM limb `a` (R61, R63): while BUSY it returns 0 with HOSTVIOL; at or above
LMEM_LIMBS it returns 0; otherwise the limb, zero-extended. -/
def State.lmemRead (s : State) (a : Nat) : State :=
  if s.busy then { s.setHostviol with readData := some 0#64 }
  else if a < s.lmemLimbs then { s with readData := some (BitVec.ofNat 64 (s.limb a)) }
  else { s with readData := some 0#64 }

/-! ### The byte window of a platform (R62) -/

/-- The bytes of LMEM, and so of the window: LMEM_LIMBS * (W/8) (R62). -/
def State.lmemBytes (s : State) : Nat := s.lmemLimbs * s.limbBytes

/-- The bytes of a mixed-width access (R62): one, or W/16. -/
def WindowWidth.bytes (w : LimbWidth) : WindowWidth → Nat
  | .byte => 1
  | .halfLimb => w.bytes / 2

/-- The byte of LMEM that byte address `a` of the window shows (R62). DESIGN CHOICE (log entry 23): R62
does not say what the window shows at or above LMEM_LIMBS (the 0 of R61 is said of the LMEM port); there
it shows a free value of which nothing is known. -/
def State.windowByte (s : State) (a : Nat) : Byte := s.byteAt a

/-- The `n` bytes of LMEM from byte address `a` of the window up, little-endian (R62: "it sees those
bits"). DESIGN CHOICE (log entry 23): R62 is silent on bytes at or above LMEM_LIMBS; they are free
values. -/
def State.windowRead (s : State) (a n : Nat) : Nat := valOf 8 (s.bytesAt a n)

/-- The low `n` bytes of `v` to the byte addresses from `a` up, little-endian (R62), where they lie in
LMEM. DESIGN CHOICE (log entry 23): R62 is silent on bytes at or above LMEM_LIMBS; LMEM has no such byte
(R37), and nothing is written there. -/
def State.windowWrite (s : State) (a n v : Nat) : State :=
  if a < s.lmemBytes then
    { s with lmem := Memory.writeBytes s.lmem a ((bytesOf n v).take (s.lmemBytes - a)) }
  else s

/-- A host read of a byte or half-limb of the window (R62): idle, it sees those bits, zero-extended;
while BUSY it is a host access to LMEM like any other, and returns 0 with HOSTVIOL (R63; DEDUCED, log
entry 23). -/
def State.windowLoad (s : State) (k : WindowWidth) (a : Nat) : State :=
  if s.busy then { s.setHostviol with readData := some 0#64 }
  else { s with readData := some (BitVec.ofNat 64 (s.windowRead a (k.bytes s.params.width))) }

/-- A host write of a byte or half-limb of the window (R62): idle, it writes those bits and no others;
while BUSY it is discarded with HOSTVIOL (R63; DEDUCED, log entry 23). -/
def State.windowStore (s : State) (k : WindowWidth) (a : Nat) (v : Slot) : State :=
  if s.busy then s.setHostviol
  else s.windowWrite a (k.bytes s.params.width) v.toNat

/-- The host address of a register (R232). -/
def Reg.hostAddress (r : Reg) : Nat := Config.regBase + r.offset

/-- The host address of byte b of limb a (R62, R232). -/
def State.limbHostAddress (s : State) (a b : Nat) : Nat := Config.lmemBase + a * s.limbBytes + b

end Sys2Proof.Machine
end

