-- ==== Sys2Proof/Machine/Reset.lean ====
section
/-! DEFINITION. The reset input and power-on (R250 to R254). -/

namespace Sys2Proof.Machine

/-- The part of an interval that lies in LMEM (all of it, for the buffers of an accepted command). -/
def State.clipLen (s : State) (x : Interval) : Nat := min x.len (s.lmemLimbs - x.base)

/-- Every limb of the given intervals becomes unspecified. -/
def State.drawSpans (s : State) : List Interval → State
  | [] => s
  | x :: xs => (s.drawLimbs x.base (s.clipLen x)).drawSpans xs

/-- The registers and the hidden state at the values of R250; LMEM as it is. The events still to
come and what the host last read are the host's and stay (log entry 16). -/
def State.resetRegisters (s : State) : State :=
  { s with ie := false, status := Status.reset, cfg := CfgRegs.reset, invY := 0, engine := none }

/-- RST (R251, R252): a running command is abandoned and the limbs of its written intervals become
unspecified; then the registers and the hidden state are reset. -/
def State.assertRst (s : State) : State :=
  match s.engine with
  | none => s.resetRegisters
  | some e => (s.drawSpans (writtenSpans e.op s)).resetRegisters

/-- Power-on reset (R250): registers and hidden state reset, and all of LMEM a fresh Draw (log entry
17). -/
def State.powerCycle (s : State) : State :=
  { s.resetRegisters with lmem := [], powerDraw := s.draws, draws := s.draws + 1 }

end Sys2Proof.Machine
end

