-- ==== Sys2Proof/Machine/Bus.lean ====
section
/-! DEFINITION. The CMD write (R100) and what each event of the schedule does (R20, R69, R109). -/

namespace Sys2Proof.Machine

/-- A host write of a command word to CMD (R100). While BUSY it is an overrun: the word is discarded
unread and OVERRUN is set (R101). Otherwise an illegal word is rejected with ILLEGAL_CMD (R103,
R107), and a command word issues its command. -/
def State.cmdWrite (s : State) (w : Word32) : Host.Outcome State Fault Refusal :=
  if s.busy then .next s.setOverrun
  else
    match decode w with
    | .error _ => .next (s.beginCommand.raiseCmdError .illegalCmd)
    | .ok i => exec i s

/-- The engine's completion step, enabled while BUSY (R108, R109); with no command running there is
nothing to do (log entry 25). -/
def State.completeEngine (s : State) : Host.Outcome State Fault Refusal :=
  match s.engine with
  | none => .next s
  | some e => exec e.op s

/-- A controller move (R42). From FINISH the command completes (R42: "ends in FINISH, then IDLE"). -/
def State.advanceEngine (s : State) : Host.Outcome State Fault Refusal :=
  match s.engine with
  | none => .next s
  | some e =>
    match e.pos with
    | .finish _ => exec e.op s
    | .inv _ _ => .next { s with engine := some (s.moveEngine e) }
    | .prod => .next { s with engine := some (s.moveEngine e) }
    | .redcRed _ _ _ _ => .next { s with engine := some (s.moveEngine e) }
    | .redcFix _ _ => .next { s with engine := some (s.moveEngine e) }
    | .tbl _ _ => .next { s with engine := some (s.moveEngine e) }
    | .winSq _ _ _ _ _ => .next { s with engine := some (s.moveEngine e) }
    | .winMul _ _ _ _ => .next { s with engine := some (s.moveEngine e) }

/-- A host write of `v` to the register port (R30): to CMD it is a command word, elsewhere a register
write. -/
def State.portWrite (s : State) (offset : Nat) (v : Slot) : Host.Outcome State Fault Refusal :=
  if offset = Reg.offset .cmd then s.cmdWrite (v.setWidth 32) else .next (s.regWrite offset v)

/-- A host write of the value its last read returned (R95); with nothing read there is no
transaction. Log entry 21. -/
def State.writeBack (s : State) (offset : Nat) : Host.Outcome State Fault Refusal :=
  match s.readData with
  | none => .next s
  | some v => s.portWrite offset v

/-- What one event does to the state it has been taken from. -/
def State.serve (s : State) : Event → Host.Outcome State Fault Refusal
  | .regWrite offset v => s.portWrite offset v
  | .regRead offset => .next (s.regRead offset)
  | .lmemWrite a v => .next (s.lmemWrite a v)
  | .lmemRead a => .next (s.lmemRead a)
  | .windowLoad k a => .next (s.windowLoad k a)
  | .windowStore k a v => .next (s.windowStore k a v)
  | .pollStatus => .next s.pollStatus
  | .regWriteBack offset => s.writeBack offset
  | .rst => .next s.assertRst
  | .powerOn => .next s.powerCycle
  | .advance => s.advanceEngine
  | .complete => s.completeEngine

/-- The next event is taken from the schedule and served. When the host is quiet the engine
completes what it runs (R109: its completion step "is eventually taken"), and an idle engine stays as
it is (R246). Log entry 9. -/
def State.nextEvent (s : State) : Host.Outcome State Fault Refusal :=
  match s.bus with
  | [] => s.completeEngine
  | e :: rest => { s with bus := rest }.serve e

/-- The state in which the host's next transaction writes the command word with bits `w` to CMD, and
the engine is idle, so that the word is not an overrun: the next step reads and runs that command.
Log entry 10. -/
def State.presentWord (s : State) (nbits w : Nat) : State :=
  { s with
    engine := none
    bus := .regWrite (Reg.offset .cmd) (BitVec.ofNat 64 (w % 2 ^ nbits)) :: s.bus }

end Sys2Proof.Machine
end

