-- ==== Sys2Proof/Machine/HostProgram.lean ====
section
/-! DEFINITION. Host programs (R87 to R89, R95): the statements a host program is written in, the bus
transactions each one is, and the pseudo-commands. A program is run by putting its events on the
schedule (`State.bus`). -/

namespace Sys2Proof.Machine

/-- A statement of a host program (R87). -/
inductive HostStmt where
  /-- `WR <REG>, <v>` -/
  | wr (reg : Reg) (v : Slot)
  /-- `RD <REG>` -/
  | rd (reg : Reg)
  /-- `ST [<a>], <v>` -/
  | st (a : Nat) (v : Slot)
  /-- `LD [<a>]` -/
  | ld (a : Nat)
  /-- `STN [<a>], <r>, <v>` -/
  | stn (a r v : Nat)
  /-- a command mnemonic (R88) -/
  | cmd (i : Instr)
  /-- `WAIT`: reads of STATUS until one shows BUSY = 0. `polls` is how many of them a running command
  lets pass before it completes, a choice of the schedule (R89, R109; log entry 21). -/
  | wait (polls : Nat)
  /-- `WR <REG>, y`, where y is what the last read returned (R95). -/
  | wrBack (reg : Reg)
deriving DecidableEq, Repr

/-- `ST [a+j], limb(v, j)` for j = 0 .. n-1 (R87); a+j is not reduced modulo 2^32 (R7). -/
def storeLimbs (w : Nat) : Nat → Nat → Nat → List Event
  | _, 0, _ => []
  | a, n + 1, v =>
    .lmemWrite a (BitVec.ofNat 64 (v % 2 ^ w)) :: storeLimbs w (a + 1) n (v / 2 ^ w)

/-- `WAIT` (R87, R89): STATUS is read until a read shows BUSY = 0. The first read is always made and
each later one only after a read that showed BUSY = 1; the running command, if there is one, completes
after `polls` reads. On an idle engine the first read is the only one. -/
def waitEvents : Nat → List Event
  | 0 => [.complete, .regRead (Reg.offset .status)]
  | n + 1 => .regRead (Reg.offset .status) :: List.replicate n .pollStatus ++ [.complete, .pollStatus]

/-- The events of a statement on a machine of limb width W (R87 to R89). -/
def HostStmt.events (w : LimbWidth) : HostStmt → List Event
  | .wr reg v => [.regWrite reg.offset v]
  | .rd reg => [.regRead reg.offset]
  | .st a v => [.lmemWrite a v]
  | .ld a => [.lmemRead a]
  | .stn a r v => storeLimbs w.bits a r v
  | .cmd i => [.regWrite (Reg.offset .cmd) ((encode i).setWidth 64)]
  | .wait polls => waitEvents polls
  | .wrBack reg => [.regWriteBack reg.offset]

/-- The events of a program, in order (R89). -/
def programEvents (w : LimbWidth) (p : List HostStmt) : List Event := p.flatMap (HostStmt.events w)

/-- `NQ0 <n0>` (R95): what its `RD INV_Y` returns is written to NQUOTE0. -/
def pseudoNq0 (w : LimbWidth) (n0 polls : Nat) : List HostStmt :=
  [.wr .invX (BitVec.ofNat 64 ((2 ^ w.bits - n0) % 2 ^ w.bits)), .cmd .inv1, .wait polls, .rd .invY,
   .wrBack .nquote0]

/-- `FROMMONT <t>` of the r-limb value x (R95). -/
def pseudoFromMont (t r x polls : Nat) : List HostStmt :=
  [.stn t r x, .stn (t + r) r 0, .cmd .redc, .wait polls]

/-- `TOMONT` (R95). -/
def pseudoToMont (polls : Nat) : List HostStmt := [.cmd .mul, .wait polls]

/-- `SEED <t>`: FROMMONT with x = R^2 mod n, which the host supplies (R95). -/
def pseudoSeed (t r r2n polls : Nat) : List HostStmt := pseudoFromMont t r r2n polls

end Sys2Proof.Machine
end

