-- ==== Sys2Proof/Safety.lean ====
section
/-! DEFINITION. What counts as a good state and a good run, in the terms the statements use: the
invariant of the machine, the results a command owes, what a command may touch, and the forbidden
overlaps of R105 said with shared addresses. -/

namespace Sys2Proof.Machine

/-! ### The invariant -/

/-- A position holds values in the ranges R40 gives them, for command `op` in state `s`. The end of a
range that only a finished loop would reach is left out (log entry 26). -/
def Position.okFor (s : State) (op : Instr) : Position → Prop
  | .inv y bitpos => op = .inv1 ∧ 1 ≤ bitpos ∧ bitpos < s.limbBits ∧ y < 2 ^ s.limbBits
  | .prod => op = .mul ∨ op = .sqr
  | .redcRed t i _ m =>
    (op = .redc ∨ op = .mul ∨ op = .sqr) ∧ i < s.r ∧ t.length = 2 * s.r ∧
      (∀ x ∈ t, x < 2 ^ s.limbBits) ∧ m < 2 ^ s.limbBits
  | .redcFix t _ =>
    (op = .redc ∨ op = .mul ∨ op = .sqr) ∧ t.length = 2 * s.r ∧ (∀ x ∈ t, x < 2 ^ s.limbBits)
  | .tbl entries ti =>
    (op = .build ∨ op = .modpow) ∧ 2 ≤ ti ∧ ti < 64 ∧ entries.length = ti ∧
      (∀ x ∈ entries, x < 2 ^ (s.r * s.limbBits))
  | .winSq entries acc j q _ =>
    op = .modpow ∧ j < s.blocks ∧ q < 6 ∧ entries.length = 64 ∧
      (∀ x ∈ entries, x < 2 ^ (s.r * s.limbBits)) ∧ acc < 2 ^ (s.r * s.limbBits)
  | .winMul entries acc j w =>
    op = .modpow ∧ j < s.blocks ∧ w ≠ 0#6 ∧ entries.length = 64 ∧
      (∀ x ∈ entries, x < 2 ^ (s.r * s.limbBits)) ∧ acc < 2 ^ (s.r * s.limbBits)
  | .finish results =>
    results.length = (if op = .build then 64 else 1) ∧
      (∀ x ∈ results, x < 2 ^ ((if op = .inv1 then 1 else s.r) * s.limbBits))

/-- LMEM is in canonical form and lists no byte outside LMEM (R37). -/
def State.lmemOk (s : State) : Prop :=
  Memory.wf s.lmem ∧ ∀ c ∈ s.lmem, c.1 < s.lmemLimbs * s.limbBytes

/-- The W-bit registers hold W-bit values (R22, R30). -/
def State.regsOk (s : State) : Prop :=
  s.cfg.nquote0.toNat < 2 ^ s.limbBits ∧ s.cfg.invX.toNat < 2 ^ s.limbBits ∧
    s.invY.toNat < 2 ^ s.limbBits

/-- A running command has passed its checks (R103), DONE is 0 and ERR is NONE (R102, R108), and the
controller's position is in range (R40). -/
def State.engineOk (s : State) : Prop :=
  ∀ e, s.engine = some e →
    checkOperands e.op s = .none ∧ s.status.done = false ∧ s.status.err = .none ∧
      Position.okFor s e.op e.pos

/-- The invariant of the machine. -/
def State.Inv (s : State) : Prop := s.lmemOk ∧ s.regsOk ∧ s.engineOk

/-- The hidden state is where the controller's moves have taken it since acceptance (R42). -/
def State.tracks (s : State) : Prop :=
  ∀ e, s.engine = some e →
    ∃ k, e = s.moveEngines k { op := e.op, pos := s.firstPosition e.op }

/-! ### What a command owes and touches -/

/-- The values a command publishes: Inv1(x); the one output; the 64 table entries (R110). -/
def resultsOf (s : State) : Instr → List Nat
  | .inv1 => [inv1 s.limbBits s.invArg]
  | .redc => [redcResult s]
  | .mul => [mulResult s]
  | .sqr => [sqrResult s]
  | .build => buildResult s
  | .modpow => [modpowResult s]

/-- The effect of each command (R110), as its meaning uses it. -/
def effectOf : Instr → State → State
  | .inv1 => inv1Effect
  | .redc => redcEffect
  | .mul => mulEffect
  | .sqr => sqrEffect
  | .build => buildEffect
  | .modpow => modpowEffect

/-- Every byte of LMEM outside the given intervals of limbs reads in `t` as it read in `s`. -/
def lmemKeptOutside (spans : List Interval) (s t : State) : Prop :=
  ∀ a, (∀ x ∈ spans, x.has (a / s.limbBytes) = false) → t.byteAt a = s.byteAt a

/-- In `t` every byte of the limbs of `span` that are not in `kept` is one of a Draw made since `s`
(R9, R85, R155): nothing is known of what it holds. -/
def drawnIn (span kept : Interval) (s t : State) : Prop :=
  ∀ a, span.has (a / s.limbBytes) = true → kept.has (a / s.limbBytes) = false →
    ∃ d, s.draws ≤ d ∧ t.byteAt a = Config.drawn d a

/-- What a completion leaves as it was, whatever the command (R108): the parameters, CTRL, the cfg
registers (R32), the events to come and what the host last read, OVERRUN, HOSTVIOL and ERR; and what
it makes of the rest of STATUS: idle, DONE = 1. -/
def completedFrom (s t : State) : Prop :=
  t.params = s.params ∧ t.ie = s.ie ∧ t.cfg = s.cfg ∧ t.bus = s.bus ∧ t.readData = s.readData ∧
    t.powerDraw = s.powerDraw ∧ t.engine = none ∧ t.status = { s.status with done := true }

/-- Two intervals share a limb address (R10). -/
def Interval.shares (x y : Interval) : Prop := ∃ a, x.has a = true ∧ y.has a = true

/-- They share an address and are not the same interval (R105). -/
def Interval.partlyShares (x y : Interval) : Prop := x.shares y ∧ x ≠ y

/-- The violations of R105, said with shared addresses. -/
def forbiddenOverlap (s : State) : Instr → Prop
  | .inv1 => False
  | .redc =>
    s.tSpan.shares s.nSpan ∨ (s.outSpan s.r).partlyShares s.nSpan ∨
      ((s.outSpan s.r).shares s.tSpan ∧ s.cfg.addrOut.toNat ≠ s.cfg.addrT.toNat + s.r)
  | .mul =>
    (∃ x ∈ [s.outSpan s.r, s.aSpan, s.bSpan, s.nSpan], (s.scrSpan (4 * s.r)).shares x) ∨
      (∃ x ∈ [s.aSpan, s.bSpan, s.nSpan], (s.outSpan s.r).partlyShares x)
  | .sqr =>
    (∃ x ∈ [s.outSpan s.r, s.aSpan, s.nSpan], (s.scrSpan (4 * s.r)).shares x) ∨
      (∃ x ∈ [s.aSpan, s.nSpan], (s.outSpan s.r).partlyShares x)
  | .build =>
    (∃ x ∈ [s.outSpan (64 * s.r), s.aSpan, s.nSpan], (s.scrSpan (4 * s.r)).shares x) ∨
      (∃ x ∈ [s.aSpan, s.nSpan], (s.outSpan (64 * s.r)).shares x)
  | .modpow =>
    (∃ x ∈ [s.outSpan s.r, s.aSpan, s.nSpan, s.expSpan], (s.scrSpan (68 * s.r)).shares x) ∨
      (∃ x ∈ [s.aSpan, s.nSpan, s.expSpan], (s.outSpan s.r).shares x)

end Sys2Proof.Machine
end

