-- ==== Sys2Proof/Certificates/Slice0/Obligations.lean ====
section
/-! DEFINITION. The statements for the provers, one `def Obligations.<Name> : Prop` each. They are
about every state, and so about every machine: W and LMEM_LIMBS are fields of State. None is about a
program, and none rests on what a drawn byte is. -/

open Sys2Proof Sys2Proof.Machine

/-! ### Encoding -/

/-- The six words of the opcode map decode to their commands (R81), and the neighbours that the map
calls illegal do not decode. -/
def Obligations.SpecWordsDecode : Prop :=
  decode 0x00000001#32 = .ok .inv1 ∧ decode 0x00000002#32 = .ok .redc ∧
  decode 0x00000003#32 = .ok .mul ∧ decode 0x00000004#32 = .ok .sqr ∧
  decode 0x00000005#32 = .ok .build ∧ decode 0x00000006#32 = .ok .modpow ∧
  decode 0x00000000#32 = .error (.opcode 0x0#4) ∧ decode 0x00000007#32 = .error (.opcode 0x7#4) ∧
  decode 0x0000000F#32 = .error (.opcode 0xF#4) ∧ decode 0x00000013#32 = .error .reservedBits

/-- Decoding and encoding agree on all 2^32 words (R82): a word decodes to a command iff it is that
command's word, which is iff RSV = 0 and OP is 1 to 6; the step in which the host writes any other word
to CMD of an idle engine rejects it with ILLEGAL_CMD and changes nothing but STATUS. -/
def Obligations.OnlySixWordsAreCommands : Prop :=
  (∀ (w : Word32) (i : Instr), decode w = .ok i ↔ w = encode i) ∧
  (∀ w : Word32, (∃ i, decode w = .ok i) ↔
    (w.toNat / 16 = 0 ∧ 1 ≤ w.toNat % 16 ∧ w.toNat % 16 ≤ 6)) ∧
  ∀ (s : State) (w : Word32) (v : Slot) (rest : List Event), s.busy = false →
    ¬ (w.toNat / 16 = 0 ∧ 1 ≤ w.toNat % 16 ∧ w.toNat % 16 ≤ 6) →
    s.bus = .regWrite 0x20 v :: rest → v.setWidth 32 = w →
    step s = .next { s with
      bus := rest
      status := { s.status with done := true, err := .illegalCmd } }

/-! ### Acceptance and rejection -/

/-- A command given to an idle engine whose operands pass the checks is accepted (R106): BUSY = 1, the
command is latched, the phase is the first one of R42; DONE and ERR are cleared (R102); nothing else
changes. -/
def Obligations.CheckedCommandIsAccepted : Prop :=
  ∀ (i : Instr) (s : State), s.busy = false → checkOperands i s = .none →
    ∃ t, exec i s = .next t ∧ t.busy = true ∧
      t = { s with
        engine := some { op := i, pos := s.firstPosition i }
        status := { s.status with done := false, err := .none } } ∧
      t.phase = match i with
        | .inv1 => .inv
        | .redc => .redcRed
        | .mul => .prod
        | .sqr => .prod
        | .build => .tbl
        | .modpow => .tbl

/-- A rejection (R107), of a command whose operands fail a check and of an illegal word: in the step
of the CMD write ERR takes the code and DONE is set; nothing else changes, BUSY stays 0, IRQ follows
DONE (so it is IE), and the host's next read of STATUS returns DONE = 1 and the code. -/
def Obligations.FailedCheckRejects : Prop :=
  ∀ s : State, s.busy = false →
    (∀ i : Instr, checkOperands i s ≠ .none →
      exec i s = .next { s with
        status := { s.status with done := true, err := checkOperands i s } }) ∧
    (∀ (v : Slot) (rest : List Event), s.bus = .regWrite 0x20 v :: rest →
      (∀ why : IllegalWord, decode (v.setWidth 32) = .error why →
        step s = .next { s with
          bus := rest
          status := { s.status with done := true, err := .illegalCmd } }) ∧
      ∀ i : Instr, decode (v.setWidth 32) = .ok i → checkOperands i s ≠ .none →
        step s = .next { s with
          bus := rest
          status := { s.status with done := true, err := checkOperands i s } }) ∧
    ∀ (code : ErrCode) (t : State) (rest : List Event),
      t = { s with status := { s.status with done := true, err := code } } →
      t.busy = false ∧ t.irq = s.ie ∧
        (s.bus = .regRead 0x18 :: rest → ∃ (u : State) (d : Slot), step t = .next u ∧
          u.readData = some d ∧ d.getLsbD 0 = false ∧ d.getLsbD 1 = true ∧ d.toNat / 16 = code.code)

/-- A CMD write to an idle engine first clears DONE and ERR (R102): it does what it does with both
clear, so afterwards they describe this command, accepted or rejected; OVERRUN and HOSTVIOL stay. -/
def Obligations.CommandWriteClearsStatus : Prop :=
  ∀ (s : State) (w : Word32), s.busy = false →
    s.cmdWrite w =
        { s with status := { s.status with done := false, err := .none } }.cmdWrite w ∧
      ∃ t, s.cmdWrite w = .next t ∧ t.status.overrun = s.status.overrun ∧
        t.status.hostviol = s.status.hostviol ∧
        (t.busy = true → t.status.done = false ∧ t.status.err = .none) ∧
        (t.busy = false → t.status.done = true ∧ t.status.err ≠ .none)

/-- What the checks are and their order (R103 to R105, R222): INV1 has none; then BAD_LEN, then RANGE
when a buffer of R84 that is not empty ends past LMEM_LIMBS, then ALIAS for the overlaps of R105, said
with shared addresses. -/
def Obligations.ChecksAreInOrder : Prop :=
  (∀ s : State, checkOperands .inv1 s = .none) ∧
  ∀ (i : Instr) (s : State), i ≠ .inv1 →
    (s.r = 0 → checkOperands i s = .badLen) ∧
    (s.r ≠ 0 →
      ((∃ b ∈ buffers i s, 0 < b.span.len ∧ s.lmemLimbs < b.span.base + b.span.len) →
        checkOperands i s = .range) ∧
      ((∀ b ∈ buffers i s, b.span.len = 0 ∨ b.span.base + b.span.len ≤ s.lmemLimbs) →
        (forbiddenOverlap s i → checkOperands i s = .overlap) ∧
        (¬ forbiddenOverlap s i → checkOperands i s = .none)))

/-- A CMD write while BUSY (R101): the word, whatever it is, is discarded and OVERRUN is set; nothing
else changes. -/
def Obligations.OverrunDiscardsWord : Prop :=
  ∀ (s : State) (v : Slot) (rest : List Event), s.bus = .regWrite 0x20 v :: rest → s.busy = true →
    step s = .next { s with bus := rest, status := { s.status with overrun := true } }

/-! ### Steps -/

/-- A step runs the decoded command: a step on a host write to CMD is the CMD write of its low 32 bits;
of a command word, to an idle engine, that is `exec` of the command; and the completion step, asked for
by the schedule or taken because the host is quiet, is `exec` of the running one. Between the two, a step
on `.advance` is one controller move (R42): before FINISH it changes the controller's position alone, and
at FINISH it is the completion. An idle engine stays as it is (R246): with nothing on the schedule the
step changes nothing, and an engine event is only taken from the schedule. The schedule, its events, the
size of a move, and that a move leaves LMEM alone are the model's own (log entries 7, 8, 9 and 25). -/
def Obligations.StepRunsDecodedCommand : Prop :=
  (∀ (s : State) (v : Slot) (rest : List Event), s.bus = .regWrite 0x20 v :: rest →
    step s = { s with bus := rest }.cmdWrite (v.setWidth 32)) ∧
  (∀ (s : State) (v : Slot) (rest : List Event) (i : Instr),
    s.bus = .regWrite 0x20 v :: rest → s.busy = false → decode (v.setWidth 32) = .ok i →
    step s = exec i { s with bus := rest }) ∧
  (∀ (s : State) (rest : List Event) (e : Engine),
    s.bus = .complete :: rest → s.engine = some e → step s = exec e.op { s with bus := rest }) ∧
  (∀ (s : State) (e : Engine), s.bus = [] → s.engine = some e → step s = exec e.op s) ∧
  (∀ (s : State) (rest : List Event) (e : Engine), s.bus = .advance :: rest → s.engine = some e →
    (e.pos.phase ≠ .finish →
      step s = .next { s with bus := rest, engine := some (s.moveEngine e) }) ∧
    (e.pos.phase = .finish → step s = exec e.op { s with bus := rest })) ∧
  ∀ s : State, s.engine = none →
    (s.bus = [] → step s = .next s) ∧
    ∀ rest : List Event, s.bus = .advance :: rest ∨ s.bus = .complete :: rest →
      step s = .next { s with bus := rest }

/-- The next step of a state prepared with a command word runs that command (log entry 10). -/
def Obligations.FetchWordIsRun : Prop :=
  ∀ (s : State) (w : Nat) (i : Instr), decodeTableWord 32 w = some i →
    step (s.withFetchWord 32 w) = exec i { s with engine := none }

/-- A command written to CMD and then left to complete (R69, R100, R108): the CMD write accepts it and
changes no register but STATUS and no limb; the completion leaves the results owed at acceptance, in
INV_Y for INV1 and one after the other from ADDR_OUT for the others, with DONE = 1, ERR = NONE,
BUSY = 0. -/
def Obligations.IssueThenComplete : Prop :=
  ∀ (i : Instr) (s : State) (rest : List Event),
    s.bus = .regWrite 0x20 ((encode i).setWidth 64) :: .complete :: rest → s.busy = false →
    checkOperands i s = .none →
    ∃ u t, step s = .next u ∧ u.busy = true ∧ u.cfg = s.cfg ∧ u.lmem = s.lmem ∧ u.invY = s.invY ∧
      resultsOf u i = resultsOf s i ∧
      step u = .next t ∧ exec i { u with bus := rest } = .next t ∧ t.busy = false ∧ t.bus = rest ∧
      t.status = { s.status with done := true, err := .none } ∧
      (i = .inv1 → t.invY.toNat = (resultsOf s i).getD 0 0 ∧ t.lmem = s.lmem) ∧
      (i ≠ .inv1 → t.invY = s.invY ∧ ∀ k, k < (resultsOf s i).length →
        t.memRead (s.cfg.addrOut.toNat + k * s.r) s.r = (resultsOf s i).getD k 0)

/-! ### INV1 -/

/-- INV1 completes (R141, R108): INV_Y takes Inv1 of INV_X, BUSY <- 0, DONE <- 1, and nothing else
changes, no limb and no other register. -/
def Obligations.Inv1Completes : Prop :=
  ∀ s : State, s.busy = true →
    exec .inv1 s = .next { s with
      engine := none
      status := { s.status with done := true }
      invY := BitVec.ofNat 64 (inv1 s.limbBits s.invArg) }

/-- INV1 of an odd word is its inverse modulo 2^W, the only one (R142). -/
def Obligations.Inv1InvertsOddWords : Prop :=
  ∀ s : State, s.busy = true → s.invArg % 2 = 1 →
    ∃ t, exec .inv1 s = .next t ∧ t.invY.toNat < 2 ^ s.limbBits ∧
      s.invArg * t.invY.toNat % 2 ^ s.limbBits = 1 ∧
      ∀ y, y < 2 ^ s.limbBits → s.invArg * y % 2 ^ s.limbBits = 1 → y = t.invY.toNat

/-- Inv1 of the negated low word of an odd modulus is the constant NQUOTE0 must hold (R144). -/
def Obligations.Inv1GivesNquote0 : Prop :=
  ∀ w n : Nat, 0 < w → n % 2 = 1 →
    (n * inv1 w ((2 ^ w - n % 2 ^ w) % 2 ^ w) + 1) % 2 ^ w = 0

/-! ### REDC -/

/-- REDC completes (R150): the output is Redc of t as it was at acceptance, also where it coincides
with n or with the upper half of t; t is destroyed, every limb of it outside the output a fresh draw
(R155); no byte outside the output and t changes. -/
def Obligations.RedcCompletes : Prop :=
  ∀ s : State, s.busy = true → checkOperands .redc s = .none →
    ∃ t, exec .redc s = .next t ∧
      t.memRead s.cfg.addrOut.toNat s.r =
        redc s.limbBits (s.memRead s.cfg.addrT.toNat (2 * s.r)) (s.memRead s.cfg.addrN.toNat s.r)
          s.nq s.r ∧
      drawnIn s.tSpan (s.outSpan s.r) s t ∧
      lmemKeptOutside [s.outSpan s.r, s.tSpan] s t ∧ t.invY = s.invY ∧ completedFrom s t

/-- Redc of T < N*R is T * R^-1 mod N (R152): below N, and its product with R is congruent to T. The condition on nquote0 forces N to be odd. -/
def Obligations.RedcReducesBelowNR : Prop :=
  ∀ w n nq r t : Nat, 0 < w → (n * nq + 1) % 2 ^ w = 0 → n < 2 ^ (r * w) → t < n * 2 ^ (r * w) →
    n % 2 = 1 ∧ redc w t n nq r < n ∧ redc w t n nq r * 2 ^ (r * w) % n = t % n

/-- Redc of any T below R^2 is below R and congruent to T * R^-1 (R153); it need not be below N. -/
def Obligations.RedcStaysCongruent : Prop :=
  ∀ w n nq r t : Nat, 0 < w → (n * nq + 1) % 2 ^ w = 0 → n < 2 ^ (r * w) → t < 2 ^ (2 * r * w) →
    redc w t n nq r < 2 ^ (r * w) ∧ redc w t n nq r * 2 ^ (r * w) % n = t % n

/-- The sticky carry holds the whole overflow of the sweep (R154), whatever nquote0 is: after k
iterations carry and working area hold T + M*N for an M of k limbs. -/
def Obligations.RedcSweepIsExact : Prop :=
  ∀ w n nq r t k : Nat, k ≤ r → n < 2 ^ (r * w) → t < 2 ^ (2 * r * w) →
    ∃ m, m < 2 ^ (k * w) ∧ (redcSweep w n nq r t k).1 < 2 ^ (2 * r * w) ∧
      (redcSweep w n nq r t k).1 +
        (if (redcSweep w n nq r t k).2 then 2 ^ (2 * r * w) else 0) = t + m * n

/-! ### MUL and SQR -/

/-- MUL completes (R171, R175): the output is MontMul of A and B as they were at acceptance, also where
it coincides with one of the inputs; the scratch is drawn (R85); no byte outside the output and the
scratch changes. -/
def Obligations.MulCompletes : Prop :=
  ∀ s : State, s.busy = true → checkOperands .mul s = .none →
    ∃ t, exec .mul s = .next t ∧
      t.memRead s.cfg.addrOut.toNat s.r =
        redc s.limbBits (s.memRead s.cfg.addrA.toNat s.r * s.memRead s.cfg.addrB.toNat s.r)
          (s.memRead s.cfg.addrN.toNat s.r) s.nq s.r ∧
      drawnIn (s.scrSpan (4 * s.r)) (s.outSpan s.r) s t ∧
      lmemKeptOutside [s.outSpan s.r, s.scrSpan (4 * s.r)] s t ∧ t.invY = s.invY ∧
      completedFrom s t

/-- SQR completes (R172, R175): as MUL, with A for both factors; ADDR_B is not read. -/
def Obligations.SqrCompletes : Prop :=
  ∀ s : State, s.busy = true → checkOperands .sqr s = .none →
    ∃ t, exec .sqr s = .next t ∧
      t.memRead s.cfg.addrOut.toNat s.r =
        redc s.limbBits (s.memRead s.cfg.addrA.toNat s.r * s.memRead s.cfg.addrA.toNat s.r)
          (s.memRead s.cfg.addrN.toNat s.r) s.nq s.r ∧
      drawnIn (s.scrSpan (4 * s.r)) (s.outSpan s.r) s t ∧
      lmemKeptOutside [s.outSpan s.r, s.scrSpan (4 * s.r)] s t ∧ t.invY = s.invY ∧
      completedFrom s t

/-- SQR gives the same output as MUL with ADDR_B = ADDR_A (R172), in every state where that MUL passes
its checks. -/
def Obligations.SqrIsMulBySelf : Prop :=
  ∀ s : State, s.busy = true → checkOperands .mul s = .none → s.cfg.addrB = s.cfg.addrA →
    ∃ t u, exec .mul s = .next t ∧ exec .sqr s = .next u ∧
      u.memRead s.cfg.addrOut.toNat s.r = t.memRead s.cfg.addrOut.toNat s.r

/-- MUL multiplies in the Montgomery domain (R173): with nquote0 right and A, B below N the output is
below N and A * B * R^-1 mod N, and the product of Mont(x) and Mont(y) is Mont(x*y). -/
def Obligations.MulIsMontgomeryProduct : Prop :=
  ∀ s : State, s.busy = true → checkOperands .mul s = .none →
    (s.nVal * s.nq + 1) % 2 ^ s.limbBits = 0 → s.aVal < s.nVal → s.bVal < s.nVal →
    ∃ t, exec .mul s = .next t ∧
      t.memRead s.cfg.addrOut.toNat s.r < s.nVal ∧
      t.memRead s.cfg.addrOut.toNat s.r * 2 ^ (s.r * s.limbBits) % s.nVal =
        s.aVal * s.bVal % s.nVal ∧
      ∀ x y, s.aVal = x * 2 ^ (s.r * s.limbBits) % s.nVal →
        s.bVal = y * 2 ^ (s.r * s.limbBits) % s.nVal →
        t.memRead s.cfg.addrOut.toNat s.r = x * y % s.nVal * 2 ^ (s.r * s.limbBits) % s.nVal

/-- SQR squares in the Montgomery domain (R173): with nquote0 right and A = Mont(x) below N the output
is Mont(x^2). -/
def Obligations.SqrIsMontgomerySquare : Prop :=
  ∀ (s : State) (x : Nat), s.busy = true → checkOperands .sqr s = .none →
    (s.nVal * s.nq + 1) % 2 ^ s.limbBits = 0 →
    s.aVal = x * 2 ^ (s.r * s.limbBits) % s.nVal →
    ∃ t, exec .sqr s = .next t ∧
      t.memRead s.cfg.addrOut.toNat s.r = x ^ 2 % s.nVal * 2 ^ (s.r * s.limbBits) % s.nVal

/-! ### BUILD -/

/-- BUILD completes (R190, R191, R193): entry 0 is the literal 1, entry 1 is A, entry e is
MontMul(A, entry e-1), each at limb ADDR_OUT + e*r; the scratch is drawn (R85); no byte outside the
table and the scratch changes. -/
def Obligations.BuildCompletes : Prop :=
  ∀ s : State, s.busy = true → checkOperands .build s = .none →
    ∃ t, exec .build s = .next t ∧
      t.memRead s.cfg.addrOut.toNat s.r = 1 ∧
      t.memRead (s.cfg.addrOut.toNat + s.r) s.r = s.memRead s.cfg.addrA.toNat s.r ∧
      (∀ e, 2 ≤ e → e < 64 →
        t.memRead (s.cfg.addrOut.toNat + e * s.r) s.r =
          redc s.limbBits
            (s.memRead s.cfg.addrA.toNat s.r *
              t.memRead (s.cfg.addrOut.toNat + (e - 1) * s.r) s.r)
            (s.memRead s.cfg.addrN.toNat s.r) s.nq s.r) ∧
      drawnIn (s.scrSpan (4 * s.r)) (s.outSpan (64 * s.r)) s t ∧
      lmemKeptOutside [s.outSpan (64 * s.r), s.scrSpan (4 * s.r)] s t ∧ t.invY = s.invY ∧
      completedFrom s t

/-- The table law (R192): with nquote0 right and A = Mont(x), entry e is Mont(x^e) for e = 1 to 63. -/
def Obligations.TableHoldsMontgomeryPowers : Prop :=
  ∀ (s : State) (x : Nat), s.busy = true → checkOperands .build s = .none →
    (s.nVal * s.nq + 1) % 2 ^ s.limbBits = 0 →
    s.aVal = x * 2 ^ (s.r * s.limbBits) % s.nVal →
    ∃ t, exec .build s = .next t ∧
      ∀ e, 1 ≤ e → e < 64 →
        t.memRead (s.cfg.addrOut.toNat + e * s.r) s.r =
          x ^ e % s.nVal * 2 ^ (s.r * s.limbBits) % s.nVal

/-! ### MODPOW -/

/-- MODPOW completes (R200, R201): the accumulator becomes what the blocks from B-1 down to 0 make of
it, with the table of A and the windows of the exponent; the scratch, power table included, is drawn
(R85); no byte outside the accumulator and the scratch changes. -/
def Obligations.ModpowCompletes : Prop :=
  ∀ s : State, s.busy = true → checkOperands .modpow s = .none →
    ∃ t, exec .modpow s = .next t ∧
      t.memRead s.cfg.addrOut.toNat s.r =
        powBlocks s.limbBits (s.memRead s.cfg.addrN.toNat s.r) s.nq s.r
          (buildTable s.limbBits (s.memRead s.cfg.addrN.toNat s.r) s.nq s.r
            (s.memRead s.cfg.addrA.toNat s.r))
          (s.windowsBelow s.blocks) (s.memRead s.cfg.addrOut.toNat s.r) ∧
      drawnIn (s.scrSpan (68 * s.r)) (s.outSpan s.r) s t ∧
      lmemKeptOutside [s.outSpan s.r, s.scrSpan (68 * s.r)] s t ∧ t.invY = s.invY ∧
      completedFrom s t

/-- MODPOW with L = 0 (R204): the accumulator is unchanged, the scratch ends drawn, every other limb
is kept; no exponent limb is read (the EXP buffer is empty), and ADDR_EXP is not checked, whatever it
is. -/
def Obligations.ModpowOfNoBitsKeepsAccumulator : Prop :=
  (∀ s : State, s.busy = true → checkOperands .modpow s = .none → s.cfg.expBits = 0#32 →
    ∃ t, exec .modpow s = .next t ∧ lmemKeptOutside [s.scrSpan (68 * s.r)] s t ∧
      drawnIn (s.scrSpan (68 * s.r)) (s.outSpan s.r) s t ∧ s.blocks = 0 ∧ s.expLimbs = 0 ∧
      t.memRead s.cfg.addrOut.toNat s.r = s.memRead s.cfg.addrOut.toNat s.r) ∧
  ∀ (s : State) (a : BitVec 32), s.cfg.expBits = 0#32 →
    checkOperands .modpow { s with cfg := { s.cfg with addrExp := a } } = checkOperands .modpow s

/-- The result law of MODPOW (R203): with nquote0 right, A = Mont(x) and the accumulator seeded with
Mont(z), it leaves Mont(z^(2^(6B)) * x^(E mod 2^L)); with z = 1 that is Mont(x^(E mod 2^L)). -/
def Obligations.ModpowComputesPower : Prop :=
  ∀ (s : State) (x z : Nat), s.busy = true → checkOperands .modpow s = .none →
    (s.nVal * s.nq + 1) % 2 ^ s.limbBits = 0 →
    s.aVal = x * 2 ^ (s.r * s.limbBits) % s.nVal →
    s.accVal = z * 2 ^ (s.r * s.limbBits) % s.nVal →
    ∃ t, exec .modpow s = .next t ∧
      t.memRead s.cfg.addrOut.toNat s.r =
        z ^ 2 ^ (6 * s.blocks) *
          x ^ (s.memRead s.cfg.addrExp.toNat s.expLimbs % 2 ^ s.expLen) % s.nVal *
          2 ^ (s.r * s.limbBits) % s.nVal

/-- The exponent's bits and windows (R202): bit p is bit p mod W of limb p div W, and 0 for p ≥ L; a
bit below L lies in the first ceil(L/W) limbs; Window(j) is bits 6j+5 .. 6j; and the windows hold
E mod 2^L. -/
def Obligations.WindowsHoldExponent : Prop :=
  ∀ s : State,
    (∀ p, s.expLen ≤ p → s.ebit p = 0) ∧
    (∀ p, p < s.expLen → p / s.limbBits < s.expLimbs ∧
      s.ebit p =
        s.limb (s.cfg.addrExp.toNat + p / s.limbBits) / 2 ^ (p % s.limbBits) % 2) ∧
    (∀ j, s.window j = ∑ q ∈ Finset.range 6, s.ebit (6 * j + q) * 2 ^ q) ∧
    ∑ j ∈ Finset.range s.blocks, s.window j * 2 ^ (6 * j) =
      s.memRead s.cfg.addrExp.toNat s.expLimbs % 2 ^ s.expLen

/-! ### Datapath -/

/-- The limb operations (R120): each result is exact, in its range, with carries and borrows of one
bit. -/
def Obligations.LimbOperationsAreExact : Prop :=
  ∀ w x y z cy b : Nat, x < 2 ^ w → y < 2 ^ w → z < 2 ^ w → cy < 2 ^ w → b ≤ 1 →
    ((mulLL w x y).1 * 2 ^ w + (mulLL w x y).2 = x * y ∧
      (mulLL w x y).1 < 2 ^ w ∧ (mulLL w x y).2 < 2 ^ w) ∧
    mulLo w x y = (mulLL w x y).2 ∧
    ((addC w x y b).1 * 2 ^ w + (addC w x y b).2 = x + y + b ∧
      (addC w x y b).1 ≤ 1 ∧ (addC w x y b).2 < 2 ^ w) ∧
    ((mulAddC w x y z cy).1 * 2 ^ w + (mulAddC w x y z cy).2 = x * y + z + cy ∧
      (mulAddC w x y z cy).1 < 2 ^ w ∧ (mulAddC w x y z cy).2 < 2 ^ w) ∧
    ((subB w x y b).2 + y + b = x + (subB w x y b).1 * 2 ^ w ∧
      (subB w x y b).1 ≤ 1 ∧ (subB w x y b).2 < 2 ^ w ∧
      ((subB w x y b).1 = 1 ↔ x < y + b))

/-- The product and the square are exact (R122, R123): the 2r limbs hold the product of the values,
and the square is the product of a value with itself, limb for limb. -/
def Obligations.ProductsAreExact : Prop :=
  ∀ (w r : Nat) (a b : List Nat), a.length = r → b.length = r →
    (∀ x ∈ a, x < 2 ^ w) → (∀ x ∈ b, x < 2 ^ w) →
    (fullMul w r a b).length = 2 * r ∧ (∀ x ∈ fullMul w r a b, x < 2 ^ w) ∧
      valOf w (fullMul w r a b) = valOf w a * valOf w b ∧
      square w r a = fullMul w r a a

/-- SubN is (x - y) mod R for every pair of r-limb values, the final borrow discarded (R124). -/
def Obligations.SubNWrapsModuloR : Prop :=
  ∀ (w r : Nat) (x y : List Nat), x.length = r → y.length = r →
    (∀ d ∈ x, d < 2 ^ w) → (∀ d ∈ y, d < 2 ^ w) →
    (subN w x y).length = r ∧ (∀ d ∈ subN w x y, d < 2 ^ w) ∧
      (valOf w y ≤ valOf w x → valOf w (subN w x y) = valOf w x - valOf w y) ∧
      (valOf w x < valOf w y → valOf w (subN w x y) = valOf w x + 2 ^ (r * w) - valOf w y)

/-- AddMulShift on integers (R127): the working area holds S mod R^2 and the carry out is S div R^2,
at most 1, for S = T + m * n * 2^(i*W). -/
def Obligations.AddMulShiftIsExact : Prop :=
  ∀ (w r i m : Nat) (t n : List Nat), t.length = 2 * r → n.length = r → i < r → m < 2 ^ w →
    (∀ x ∈ t, x < 2 ^ w) → (∀ x ∈ n, x < 2 ^ w) →
    (addMulShift w t i m n).2.length = 2 * r ∧
      (∀ x ∈ (addMulShift w t i m n).2, x < 2 ^ w) ∧
      valOf w (addMulShift w t i m n).2 =
        (valOf w t + m * valOf w n * 2 ^ (i * w)) % 2 ^ (2 * r * w) ∧
      (addMulShift w t i m n).1 =
        (valOf w t + m * valOf w n * 2 ^ (i * w)) / 2 ^ (2 * r * w) ∧
      (addMulShift w t i m n).1 ≤ 1

/-- The two forms of Redc agree (R151): the limb-level datapath computes the integer form, for every
nquote0 and every modulus. -/
def Obligations.LimbRedcEqualsIntegerRedc : Prop :=
  ∀ (w nq r : Nat) (n t : List Nat), n.length = r → t.length = 2 * r →
    (∀ x ∈ n, x < 2 ^ w) → (∀ x ∈ t, x < 2 ^ w) →
    (redcLimbs w nq r n t).length = r ∧
      valOf w (redcLimbs w nq r n t) = redc w (valOf w t) (valOf w n) nq r

/-! ### The controller -/

/-- The hidden controller (R42, R151, R191, R201) reaches FINISH after exactly the moves that R265
counts, not before, and holds there the values that the command's rule gives (R110). These are moves of
the machine: from acceptance, as many steps on `.advance` as that, or fewer, make so many moves and
change nothing else. The size of a move, the event, and that a move leaves LMEM alone are the model's own
(log entries 7, 8 and 9). -/
def Obligations.ControllerComputesResults : Prop :=
  ∀ (i : Instr) (s : State), checkOperands i s = .none →
    s.moveEngines (s.moves i) { op := i, pos := s.firstPosition i } =
      { op := i, pos := .finish (resultsOf s i) } ∧
    (∀ k, k < s.moves i →
      (s.moveEngines k { op := i, pos := s.firstPosition i }).pos.phase ≠ .finish) ∧
    ∀ (k : Nat) (rest : List Event), k ≤ s.moves i →
      s.engine = some { op := i, pos := s.firstPosition i } →
      s.bus = List.replicate k .advance ++ rest →
      Host.Core.run Sys2Proof.core k s = .next { s with
        bus := rest
        engine := some (s.moveEngines k { op := i, pos := s.firstPosition i }) }

/-! ### Invariants and runs -/

/-- The invariant holds right after power-on, on every machine, and so at `State.reset`. -/
def Obligations.PowerOnIsGood : Prop :=
  (∀ p : Params, (State.powerOn p).Inv ∧ (State.powerOn p).tracks) ∧ State.reset.Inv

/-- What power-on leaves (R250), on every machine: every register reads 0 but ID and LMEM_SIZE, which
read their constants (R23, R24); IRQ = 0; the phase is IDLE and no hidden element holds a value; every
byte of LMEM is one of the power-on draw, a free value (log entry 4). The step on the event `.powerOn`,
whatever the machine was doing, leaves these values too. The values are R250's; the event, that it leaves
the schedule behind it as it was, and the numbering of the draws are the model's choices (log entries 5,
16 and 17). -/
def Obligations.PowerOnValues : Prop :=
  ∀ p : Params,
    (State.powerOn p).regValue .id = BitVec.ofNat 64 (p.width.bits + 6 * 256) ∧
    (State.powerOn p).regValue .lmemSize = BitVec.ofNat 64 ((p.lastLimb.toNat + 1) % 2 ^ 32) ∧
    (∀ r : Reg, r ≠ .id → r ≠ .lmemSize → (State.powerOn p).regValue r = 0#64) ∧
    (State.powerOn p).irq = false ∧ (State.powerOn p).phase = .idle ∧
    (State.powerOn p).engine = none ∧ (State.powerOn p).lmem = [] ∧
    (∀ a, (State.powerOn p).byteAt a = Config.drawn (State.powerOn p).powerDraw a) ∧
    ∀ (s : State) (rest : List Event), s.params = p → s.bus = .powerOn :: rest →
      ∃ t, step s = .next t ∧ t.params = p ∧ t.bus = rest ∧
        (∀ r : Reg, t.regValue r = (State.powerOn p).regValue r) ∧ t.irq = false ∧
        t.phase = .idle ∧ t.engine = none ∧ t.powerDraw = s.draws ∧ s.draws < t.draws ∧
        ∀ a, t.byteAt a = Config.drawn t.powerDraw a

/-- Every step keeps the invariant: LMEM in canonical form and inside LMEM_LIMBS (R37), W-bit registers
W bits wide (R22), and a running command that passes its checks with DONE = 0, ERR = NONE and its
controller in range (R40). -/
def Obligations.StepKeepsInvariant : Prop :=
  ∀ s t : State, s.Inv → step s = .next t → t.Inv

/-- Every step keeps the hidden state where the controller's moves have taken it since acceptance
(R42): its operands do not change under it (R32, R63). -/
def Obligations.StepKeepsControllerTrack : Prop :=
  ∀ s t : State, s.tracks → step s = .next t → t.tracks

/-- In a good state every step answers a next state (R223: an accepted command never fails): the one
fault of the model is never met. -/
def Obligations.GoodStatesNeverStop : Prop :=
  ∀ s : State, s.Inv → ∃ t, step s = .next t

/-- Every accepted command completes unless a reset intervenes (R109). From every good state in which a
command runs, on every schedule without a reset, some step is the command's completion, which sets
DONE, with the results it owed before; and from every good state, whatever the schedule, the machine
has served it and is idle one step after its last event (a quiet host lets the engine complete: log
entry 9). -/
def Obligations.EveryCommandCompletes : Prop :=
  (∀ (s : State) (e : Engine), s.Inv → s.engine = some e →
    (∀ ev ∈ s.bus, ev ≠ .rst ∧ ev ≠ .powerOn) →
    ∃ k u t, k ≤ s.bus.length ∧ Host.Core.run Sys2Proof.core k s = .next u ∧
      u.engine.map Engine.op = some e.op ∧ u.cfg = s.cfg ∧ resultsOf u e.op = resultsOf s e.op ∧
      step u = .next t ∧ exec e.op { u with bus := u.bus.tail } = .next t ∧ t.busy = false ∧
      t.status.done = true) ∧
  ∀ s : State, s.Inv →
    ∃ t, Host.Core.run Sys2Proof.core (s.bus.length + 1) s = .next t ∧ t.bus = [] ∧
      t.busy = false

/-! ### The host's ports -/

/-- Host register writes (R30, R31, R25, R26). A cfg register takes the low bits of its width when
idle, and keeps its value with HOSTVIOL while BUSY; CTRL and STATUS are written in every state; a
read-only register and an unmapped offset ignore the write without a flag. -/
def Obligations.HostRegisterWrites : Prop :=
  ∀ (s : State) (v : Slot) (rest : List Event),
    (∀ r : Reg, r.access = .cfg → s.bus = .regWrite r.offset v :: rest →
      (s.busy = false → ∃ t, step s = .next t ∧
        (t.regValue r).toNat = v.toNat % 2 ^ r.width s.params.width ∧
        (∀ q : Reg, q ≠ r → t.regValue q = s.regValue q) ∧
        t = { s with bus := rest, cfg := t.cfg }) ∧
      (s.busy = true →
        step s = .next { s with bus := rest, status := { s.status with hostviol := true } })) ∧
    (s.bus = .regWrite 0x10 v :: rest →
      step s = .next { s with bus := rest, ie := v.getLsbD 0 }) ∧
    (s.bus = .regWrite 0x18 v :: rest →
      step s = .next { s with
        bus := rest
        status :=
          { done := s.status.done && !v.getLsbD 1
            overrun := s.status.overrun && !v.getLsbD 2
            hostviol := s.status.hostviol && !v.getLsbD 3
            err := s.status.err } }) ∧
    (∀ r : Reg, r.access = .ro → s.bus = .regWrite r.offset v :: rest →
      step s = .next { s with bus := rest }) ∧
    (∀ o : Nat, o % 8 ≠ 0 ∨ 0x88 ≤ o → s.bus = .regWrite o v :: rest →
      step s = .next { s with bus := rest })

/-- Host register reads (R33, R22 to R26): each offset of the map returns its register, zero-extended,
CMD and every unmapped offset return 0, in every state, and nothing else changes; and INV_Y reads its
value from before a command for as long as the command runs. -/
def Obligations.HostRegisterReads : Prop :=
  (∀ (s : State) (o : Nat) (rest : List Event), s.bus = .regRead o :: rest →
    step s = .next { s with bus := rest, readData := some (s.portValue o) }) ∧
  (∀ s t : State, step s = .next t → s.busy = true → t.busy = true →
    t.portValue 0x80 = s.portValue 0x80) ∧
  ∀ s : State,
    s.portValue 0x00 = BitVec.ofNat 64 (s.params.width.bits + 6 * 256) ∧
    s.portValue 0x08 = BitVec.ofNat 64 (s.lmemLimbs % 2 ^ 32) ∧
    s.portValue 0x10 = BitVec.ofNat 64 s.ie.toNat ∧
    s.portValue 0x18 = BitVec.ofNat 64 (s.busy.toNat + 2 * s.status.done.toNat +
      4 * s.status.overrun.toNat + 8 * s.status.hostviol.toNat + 16 * s.status.err.code) ∧
    s.portValue 0x20 = 0#64 ∧
    s.portValue 0x28 = s.cfg.rLimbs.setWidth 64 ∧ s.portValue 0x30 = s.cfg.nquote0 ∧
    s.portValue 0x38 = s.cfg.addrOut.setWidth 64 ∧ s.portValue 0x40 = s.cfg.addrN.setWidth 64 ∧
    s.portValue 0x48 = s.cfg.addrA.setWidth 64 ∧ s.portValue 0x50 = s.cfg.addrB.setWidth 64 ∧
    s.portValue 0x58 = s.cfg.addrT.setWidth 64 ∧ s.portValue 0x60 = s.cfg.addrScr.setWidth 64 ∧
    s.portValue 0x68 = s.cfg.addrExp.setWidth 64 ∧ s.portValue 0x70 = s.cfg.expBits.setWidth 64 ∧
    s.portValue 0x78 = s.cfg.invX ∧ s.portValue 0x80 = s.invY ∧
    ∀ o : Nat, o % 8 ≠ 0 ∨ 0x88 ≤ o → s.portValue o = 0#64

/-- STATUS as a word (R26, R220): BUSY in bit 0, DONE 1, OVERRUN 2, HOSTVIOL 3, the error code in bits
7:4, which is 0 to 4, and bits 31:8 read 0. -/
def Obligations.StatusWordFields : Prop :=
  ∀ s : State, s.statusWord.getLsbD 0 = s.busy ∧ s.statusWord.getLsbD 1 = s.status.done ∧
    s.statusWord.getLsbD 2 = s.status.overrun ∧ s.statusWord.getLsbD 3 = s.status.hostviol ∧
    s.statusWord.toNat / 16 = s.status.err.code ∧ s.status.err.code ≤ 4

/-- The host's LMEM port (R61, R63). Idle, in range: a write sets the one limb to v[W-1:0] and leaves
every other byte, a read returns the limb. Idle, out of range: a write is ignored, a read returns 0.
While BUSY: a write is discarded, a read returns 0, and HOSTVIOL is set. R61 speaks of a 32-bit address;
that an address of 2^32 or above is out of range and does not wrap is the model's inference (log entry
20). -/
def Obligations.HostLmemPort : Prop :=
  ∀ (s : State) (a : Nat) (v : Slot) (rest : List Event),
    (s.bus = .lmemWrite a v :: rest →
      (s.busy = false → a < s.lmemLimbs → ∃ t, step s = .next t ∧
        t.limb a = v.toNat % 2 ^ s.limbBits ∧
        lmemKeptOutside [{ base := a, len := 1 }] s t ∧
        t = { s with bus := rest, lmem := t.lmem }) ∧
      (s.busy = false → s.lmemLimbs ≤ a → step s = .next { s with bus := rest }) ∧
      (s.busy = true →
        step s = .next { s with bus := rest, status := { s.status with hostviol := true } })) ∧
    (s.bus = .lmemRead a :: rest →
      (s.busy = false → a < s.lmemLimbs →
        ∃ d : Slot, d.toNat = s.limb a ∧
          step s = .next { s with bus := rest, readData := some d }) ∧
      (s.busy = false → s.lmemLimbs ≤ a →
        step s = .next { s with bus := rest, readData := some 0#64 }) ∧
      (s.busy = true →
        step s = .next { s with
          bus := rest
          readData := some 0#64
          status := { s.status with hostviol := true } }))

/-- The interrupt line (R38, R224): DONE and IE, so that it is 0 after power-on, after RST and after a
1 is written to DONE, and after a command ends it is IE. -/
def Obligations.InterruptLine : Prop :=
  (∀ s : State, s.irq = (s.status.done && s.ie)) ∧
  (∀ p : Params, (State.powerOn p).irq = false) ∧
  (∀ s : State, s.assertRst.irq = false) ∧
  (∀ (s : State) (v : Word32), v.getLsbD 1 = true → (s.writeStatus v).irq = false) ∧
  (∀ (s : State) (i : Instr), (s.beginCommand.accept i).irq = false) ∧
  (∀ (s : State) (code : ErrCode), (s.beginCommand.raiseCmdError code).irq = s.ie) ∧
  ∀ s : State, s.endCommand.irq = s.ie

/-! ### Reset -/

/-- RST (R251, R252). Idle: every register takes its reset value and no limb changes. While BUSY: the
command is abandoned, the registers take their reset values, every limb of the command's written
intervals becomes a fresh draw, and no byte outside them changes; INV1 has none. Nothing but a reset
ends a command before its completion. That RST leaves the events behind it on the schedule is the model's
choice (log entry 16), and so are the events and the numbering of the draws (log entries 5, 9 and 17). -/
def Obligations.WarmReset : Prop :=
  (∀ (s : State) (rest : List Event), s.bus = .rst :: rest →
    (s.busy = false → ∃ t, step s = .next t ∧
      (∀ r : Reg, t.regValue r = (State.powerOn s.params).regValue r) ∧ t.engine = none ∧
      t.lmem = s.lmem ∧ t.powerDraw = s.powerDraw ∧ t.bus = rest) ∧
    ∀ e, s.engine = some e → ∃ t, step s = .next t ∧
      (∀ r : Reg, t.regValue r = (State.powerOn s.params).regValue r) ∧ t.engine = none ∧
      (∀ x ∈ writtenSpans e.op s, x.base + x.len ≤ s.lmemLimbs →
        drawnIn x { base := 0, len := 0 } s t) ∧
      lmemKeptOutside (writtenSpans e.op s) s t ∧ (e.op = .inv1 → t.lmem = s.lmem) ∧ t.bus = rest) ∧
  ∀ (s t : State) (e : Engine), s.engine = some e → step s = .next t → t.busy = false →
    (∃ rest, s.bus = .rst :: rest ∨ s.bus = .powerOn :: rest) ∨
      ∃ b, exec e.op { s with bus := b } = .next t

/-! ### Rules of the whole machine -/

/-- INV_Y is written only by the completion of INV1, and by a reset (R36). -/
def Obligations.OnlyInv1WritesInvY : Prop :=
  ∀ s t : State, step s = .next t → t.invY ≠ s.invY →
    (∃ e, s.engine = some e ∧ e.op = .inv1 ∧ t.busy = false ∧
      t.invY = BitVec.ofNat 64 (inv1 s.limbBits s.invArg)) ∨
    ∃ rest, s.bus = .rst :: rest ∨ s.bus = .powerOn :: rest

/-- While a command runs on, every cfg register (R31, R32), INV_Y (R36) and the command itself stay as
they are, and the host changes no limb (R63). That no limb changes at all before the completion is the
model's choice (log entry 7): the spec lets the engine have written intermediate values into the
command's buffers by then (R201, R252), where the host cannot see them (R63). -/
def Obligations.RunningCommandKeepsItsOperands : Prop :=
  ∀ s t : State, step s = .next t → s.busy = true → t.busy = true →
    t.cfg = s.cfg ∧ t.lmem = s.lmem ∧ t.powerDraw = s.powerDraw ∧ t.invY = s.invY ∧
      t.engine.map Engine.op = s.engine.map Engine.op

/-- The hidden state and LMEM cannot be observed while BUSY (R40, R63): of two machines that
are busy and differ only in the hidden state (the latched command too), LMEM and the draws, a host
access leaves the same in everything else, what it reads included. -/
def Obligations.HiddenStateIsUnobservable : Prop :=
  ∀ (s : State) (e f : Engine) (m : Memory) (d1 d2 : Nat) (ev : Event) (rest : List Event),
    s.engine = some e → s.bus = ev :: rest →
    ev ≠ .advance → ev ≠ .complete → ev ≠ .rst → ev ≠ .powerOn →
    ∃ t, step s = .next t ∧
      step { s with
          engine := some f
          lmem := m
          powerDraw := d1
          draws := d2 } =
        .next { t with
          engine := some f
          lmem := m
          powerDraw := d1
          draws := d2 }

/-- What a command publishes depends only on its registers and its input buffers (R66, R111): on two
machines that agree on those, the same command leaves the same INV_Y (INV1) and the same limbs in its
output interval, whatever else they hold. -/
def Obligations.ResultsDependOnlyOnInputs : Prop :=
  ∀ (i : Instr) (s u : State), s.busy = true → u.busy = true → s.params = u.params →
    s.cfg = u.cfg → checkOperands i s = .none →
    (∀ b ∈ buffers i s, b.role ≠ .output → b.role ≠ .scratch →
      ∀ a, b.span.has a = true → u.limb a = s.limb a) →
    ∃ t v, exec i s = .next t ∧ exec i u = .next v ∧ (i = .inv1 → v.invY = t.invY) ∧
      ∀ b ∈ buffers i s, b.name = .out → ∀ a, b.span.has a = true → v.limb a = t.limb a

/-- The parameters of a machine never change (R5: fixed per engine). -/
def Obligations.ParametersNeverChange : Prop :=
  ∀ s t : State, step s = .next t → t.params = s.params

/-! ### Notation of the spec -/

/-- Intervals (R10): `has` is membership of base .. base+len-1; two intervals overlap iff they share an
address; they coincide iff base and length are the same; an empty one overlaps nothing. -/
def Obligations.IntervalRelations : Prop :=
  ∀ x y : Interval,
    (∀ a, x.has a = true ↔ x.base ≤ a ∧ a < x.base + x.len) ∧
    (x.overlaps y = true ↔ x.shares y) ∧ (x.coincides y = true ↔ x = y) ∧
    (x.len = 0 → x.overlaps y = false)

/-- Limb sequences (R8): a limb is below 2^W; a sequence's value is the sum of its limbs with limb 0
least significant; and an integer v below 2^(len*W) is stored as the sequence whose limb j is
v[(j+1)*W-1 : j*W]. -/
def Obligations.LimbSequences : Prop :=
  ∀ s : State,
    (∀ a, s.limb a < 2 ^ s.limbBits) ∧
    (∀ base len, s.memRead base len =
      ∑ j ∈ Finset.range len, s.limb (base + j) * 2 ^ (j * s.limbBits)) ∧
    ∀ base len v j, j < len →
      (s.memWrite base len v).limb (base + j) = v / 2 ^ (j * s.limbBits) % 2 ^ s.limbBits

/-- LMEM as bytes (R62, log entry 3): byte b of limb a is bits 8b+7 .. 8b of the limb, at byte address
a*(W/8) + b, so a limb is its bytes least significant first; and while no command runs the window of a
platform shows those bits. A host read of a byte or half-limb of the window sees them, zero-extended, and
a host write sets them and changes nothing else. The model's own (log entry 23): that such an access while
BUSY is refused as R63 refuses one at the LMEM port; that a half-limb access may start at any byte
address; and that at or above LMEM_LIMBS, where R62 is silent, the bytes read are free values and nothing
is written. -/
def Obligations.LimbIsItsBytes : Prop :=
  (∀ s : State,
    (∀ a, s.limb a =
      ∑ b ∈ Finset.range s.limbBytes, (s.byteAt (a * s.limbBytes + b)).toNat * 2 ^ (8 * b)) ∧
    (s.busy = false → ∀ a b, b < s.limbBytes →
      (s.windowByte (a * s.limbBytes + b)).toNat = s.limb a / 2 ^ (8 * b) % 256) ∧
    (s.busy = false → ∀ a b n, b + n ≤ s.limbBytes →
      s.windowRead (a * s.limbBytes + b) n = s.limb a / 2 ^ (8 * b) % 2 ^ (8 * n))) ∧
  ∀ (s : State) (k : WindowWidth) (n p : Nat) (v : Slot) (rest : List Event),
    n = (match k with | .byte => 1 | .halfLimb => s.limbBits / 16) →
    (s.bus = .windowLoad k p :: rest →
      (s.busy = false → ∃ d : Slot, step s = .next { s with bus := rest, readData := some d } ∧
        d.toNat = s.windowRead p n ∧
        ∀ a b, p = a * s.limbBytes + b → b + n ≤ s.limbBytes →
          d.toNat = s.limb a / 2 ^ (8 * b) % 2 ^ (8 * n)) ∧
      (s.busy = true → step s = .next { s with
        bus := rest
        readData := some 0#64
        status := { s.status with hostviol := true } })) ∧
    (s.bus = .windowStore k p v :: rest →
      (s.busy = false → ∃ t, step s = .next t ∧ t = { s with bus := rest, lmem := t.lmem } ∧
        (s.lmemLimbs * s.limbBytes ≤ p → t.lmem = s.lmem) ∧
        (∀ q, t.byteAt q = if p ≤ q ∧ q < p + n ∧ q < s.lmemLimbs * s.limbBytes
          then BitVec.ofNat 8 (v.toNat / 2 ^ (8 * (q - p))) else s.byteAt q) ∧
        ∀ a b, p = a * s.limbBytes + b → b + n ≤ s.limbBytes → a < s.lmemLimbs →
          t.limb a / 2 ^ (8 * b) % 2 ^ (8 * n) = v.toNat % 2 ^ (8 * n)) ∧
      (s.busy = true →
        step s = .next { s with bus := rest, status := { s.status with hostviol := true } }))

/-- The operand buffers of each command (R84), row by row: name, role, base and length; the intervals
each writes (R66); and the registers that a command does not read: ADDR_B but for MUL, ADDR_T but for
REDC, ADDR_EXP and EXP_BITS but for MODPOW, INV_X but for INV1. -/
def Obligations.OperandBuffersTable : Prop :=
  (∀ (s : State) (r o n a b t c x : Nat), s.cfg.rLimbs.toNat = r → s.cfg.addrOut.toNat = o →
    s.cfg.addrN.toNat = n → s.cfg.addrA.toNat = a → s.cfg.addrB.toNat = b →
    s.cfg.addrT.toNat = t → s.cfg.addrScr.toNat = c → s.cfg.addrExp.toNat = x →
    buffers .inv1 s = [] ∧
    buffers .redc s = [⟨.out, .output, ⟨o, r⟩⟩, ⟨.n, .input, ⟨n, r⟩⟩, ⟨.t, .inout, ⟨t, 2 * r⟩⟩] ∧
    buffers .mul s = [⟨.out, .output, ⟨o, r⟩⟩, ⟨.a, .input, ⟨a, r⟩⟩, ⟨.b, .input, ⟨b, r⟩⟩,
      ⟨.n, .input, ⟨n, r⟩⟩, ⟨.scr, .scratch, ⟨c, 4 * r⟩⟩] ∧
    buffers .sqr s = [⟨.out, .output, ⟨o, r⟩⟩, ⟨.a, .input, ⟨a, r⟩⟩, ⟨.n, .input, ⟨n, r⟩⟩,
      ⟨.scr, .scratch, ⟨c, 4 * r⟩⟩] ∧
    buffers .build s = [⟨.out, .output, ⟨o, 64 * r⟩⟩, ⟨.a, .input, ⟨a, r⟩⟩, ⟨.n, .input, ⟨n, r⟩⟩,
      ⟨.scr, .scratch, ⟨c, 4 * r⟩⟩] ∧
    buffers .modpow s = [⟨.out, .inout, ⟨o, r⟩⟩, ⟨.a, .input, ⟨a, r⟩⟩, ⟨.n, .input, ⟨n, r⟩⟩,
      ⟨.exp, .input, ⟨x, (s.cfg.expBits.toNat + s.params.width.bits - 1) / s.params.width.bits⟩⟩,
      ⟨.scr, .scratch, ⟨c, 68 * r⟩⟩] ∧
    writtenSpans .inv1 s = [] ∧ writtenSpans .redc s = [⟨o, r⟩, ⟨t, 2 * r⟩] ∧
    writtenSpans .mul s = [⟨o, r⟩, ⟨c, 4 * r⟩] ∧ writtenSpans .sqr s = [⟨o, r⟩, ⟨c, 4 * r⟩] ∧
    writtenSpans .build s = [⟨o, 64 * r⟩, ⟨c, 4 * r⟩] ∧
    writtenSpans .modpow s = [⟨o, r⟩, ⟨c, 68 * r⟩]) ∧
  ∀ (i : Instr) (s u : State) (v : BitVec 32) (x : BitVec 64),
    ((i ≠ .mul ∧ u = { s with cfg := { s.cfg with addrB := v } }) ∨
      (i ≠ .redc ∧ u = { s with cfg := { s.cfg with addrT := v } }) ∨
      (i ≠ .modpow ∧ u = { s with cfg := { s.cfg with addrExp := v } }) ∨
      (i ≠ .modpow ∧ u = { s with cfg := { s.cfg with expBits := v } }) ∨
      (i ≠ .inv1 ∧ u = { s with cfg := { s.cfg with invX := x } })) →
    checkOperands i u = checkOperands i s ∧ resultsOf u i = resultsOf s i

/-- The scratch layout (R85): the two regions of MUL, SQR and BUILD tile the 4r limbs at ADDR_SCR, and
the table entries with the two regions of MODPOW tile its 68r limbs, without overlap. -/
def Obligations.ScratchRegionsTile : Prop :=
  ∀ (s : State) (a : Nat),
    ((s.scrSpan (4 * s.r)).has a = true ↔ s.scratchT.has a = true ∨ s.scratchMul.has a = true) ∧
    ¬ (s.scratchT.has a = true ∧ s.scratchMul.has a = true) ∧
    ((s.scrSpan (68 * s.r)).has a = true ↔
      (∃ e, e < 64 ∧ (s.powEntry e).has a = true) ∨ s.powScratchT.has a = true ∨
        s.powScratchMul.has a = true) ∧
    (∀ e f, e < 64 → f < 64 → (s.powEntry e).has a = true → (s.powEntry f).has a = true → e = f) ∧
    (∀ e, e < 64 → (s.powEntry e).has a = true →
      s.powScratchT.has a = false ∧ s.powScratchMul.has a = false) ∧
    ¬ (s.powScratchT.has a = true ∧ s.powScratchMul.has a = true)

/-! ### Host statements -/

/-- The host statement `STN [a], n, v` (R87): its n transactions, on an idle engine and in range, leave
the n limbs at `a` holding v mod 2^(n*W) and no other byte changed. -/
def Obligations.StoreStatementStoresInteger : Prop :=
  ∀ (s : State) (a n v : Nat) (rest : List Event), s.busy = false → a + n ≤ s.lmemLimbs →
    s.bus = HostStmt.events s.params.width (.stn a n v) ++ rest →
    ∃ t, Host.Core.run Sys2Proof.core n s = .next t ∧ t.memRead a n = v % 2 ^ (n * s.limbBits) ∧
      lmemKeptOutside [{ base := a, len := n }] s t ∧ t = { s with bus := rest, lmem := t.lmem }

/-- A command mnemonic as a host statement (R88): one bus transaction, which issues that command. -/
def Obligations.MnemonicIssuesCommand : Prop :=
  ∀ (s : State) (i : Instr) (rest : List Event), s.busy = false →
    s.bus = HostStmt.events s.params.width (.cmd i) ++ rest →
    (HostStmt.events s.params.width (.cmd i)).length = 1 ∧ step s = exec i { s with bus := rest }

/-- The host statement `WAIT` (R87, R89): it reads STATUS until a read shows BUSY = 0. While a command
that has passed its checks runs it makes as many reads that show BUSY = 1 as the schedule lets pass (log entry 21), the command
completes, and one more read shows BUSY = 0; on an idle engine it makes one read. Nothing else
changes. -/
def Obligations.WaitReadsUntilIdle : Prop :=
  ∀ (s : State) (polls : Nat) (rest : List Event),
    (∀ e, s.engine = some e → checkOperands e.op s = .none) →
    s.bus = HostStmt.events s.params.width (.wait polls) ++ rest →
    (∀ e k, s.engine = some e → 1 ≤ k → k ≤ polls →
      s.statusWord.getLsbD 0 = true ∧
      Host.Core.run Sys2Proof.core k s =
        .next { s with bus := s.bus.drop k, readData := some (s.statusWord.setWidth 64) }) ∧
    ∃ t, Host.Core.run Sys2Proof.core (HostStmt.events s.params.width (.wait polls)).length s =
        .next t ∧
      t.bus = rest ∧ t.busy = false ∧ t.statusWord.getLsbD 0 = false ∧
      t.readData = some (t.statusWord.setWidth 64) ∧
      (s.busy = false → t = { s with bus := rest, readData := t.readData }) ∧
      ∀ e, s.engine = some e → ∃ b d v, exec e.op { s with bus := b, readData := d } = .next v ∧
        t = { v with bus := rest, readData := t.readData }

/-- The pseudo-command `NQ0 <n0>` (R95), for the low limb n0 of an odd modulus n: its events, on an idle
engine, leave NQUOTE0 = y with n * y = -1 modulo 2^W, where y is what INV1 left in INV_Y and its read
returned; INV_X holds the negated n0, and nothing else changes but STATUS. The value goes from the read
to the write by a write-back, which is the register write of the last value read (log entry 21). -/
def Obligations.Nq0SetsNquote0 : Prop :=
  (∀ (s : State) (o : Nat) (y : Slot) (rest : List Event), s.bus = .regWriteBack o :: rest →
    s.readData = some y → step s = step { s with bus := .regWrite o y :: rest }) ∧
  ∀ (s : State) (n polls x y : Nat) (rest : List Event), s.busy = false → n % 2 = 1 →
    s.bus = programEvents s.params.width
      (pseudoNq0 s.params.width (n % 2 ^ s.limbBits) polls) ++ rest →
    x = (2 ^ s.limbBits - n % 2 ^ s.limbBits) % 2 ^ s.limbBits → y = inv1 s.limbBits x →
    (n * y + 1) % 2 ^ s.limbBits = 0 ∧ y < 2 ^ s.limbBits ∧
    Host.Core.run Sys2Proof.core (s.bus.length - rest.length) s =
      .next { s with
        bus := rest
        cfg := { s.cfg with invX := BitVec.ofNat 64 x, nquote0 := BitVec.ofNat 64 y }
        invY := BitVec.ofNat 64 y
        status := { s.status with done := true, err := .none }
        readData := some (BitVec.ofNat 64 y) }
end

