-- ==== Sys2Proof/Laws/Limbs.lean ====
section
/-! SUPPORT. Limb sequences and integers (R8): lengths, bounds, and the two conversions being inverse
to each other. -/

namespace Sys2Proof.Machine

@[simp] theorem valOf_nil (w : Nat) : valOf w [] = 0 := rfl

@[simp] theorem valOf_cons (w x : Nat) (xs : List Nat) :
    valOf w (x :: xs) = x + 2 ^ w * valOf w xs := rfl

@[simp] theorem limbsOf_length (w n v : Nat) : (limbsOf w n v).length = n := by
  induction n generalizing v with
  | zero => rfl
  | succ n ih => simp [limbsOf, ih]

theorem limbsOf_lt (w n v : Nat) : ∀ x ∈ limbsOf w n v, x < 2 ^ w := by
  induction n generalizing v with
  | zero => simp [limbsOf]
  | succ n ih =>
    intro x hx
    rcases List.mem_cons.1 hx with rfl | hx
    · exact Nat.mod_lt _ (by positivity)
    · exact ih _ x hx

theorem valOf_limbsOf (w n v : Nat) : valOf w (limbsOf w n v) = v % 2 ^ (n * w) := by
  induction n generalizing v with
  | zero => simp [limbsOf, Nat.mod_one]
  | succ n ih =>
    have h : (n + 1) * w = w + n * w := by ring
    rw [limbsOf, valOf_cons, ih, h, pow_add, Nat.mod_mul]

theorem valOf_lt {w : Nat} : ∀ {l : List Nat}, (∀ x ∈ l, x < 2 ^ w) → valOf w l < 2 ^ (l.length * w)
  | [], _ => by simp
  | x :: xs, h => by
    have hx : x < 2 ^ w := h x (List.mem_cons_self ..)
    have hs := valOf_lt (l := xs) (fun y hy => h y (List.mem_cons_of_mem _ hy))
    have e : (x :: xs).length * w = w + xs.length * w := by simp; ring
    rw [valOf_cons, e, pow_add]
    calc x + 2 ^ w * valOf w xs < 2 ^ w + 2 ^ w * valOf w xs := by omega
      _ = 2 ^ w * (valOf w xs + 1) := by ring
      _ ≤ 2 ^ w * 2 ^ (xs.length * w) := Nat.mul_le_mul_left _ hs

theorem limbsOf_valOf {w : Nat} : ∀ {l : List Nat}, (∀ x ∈ l, x < 2 ^ w) →
    limbsOf w l.length (valOf w l) = l
  | [], _ => rfl
  | x :: xs, h => by
    have hx : x < 2 ^ w := h x (List.mem_cons_self ..)
    have hs := limbsOf_valOf (l := xs) (fun y hy => h y (List.mem_cons_of_mem _ hy))
    have h1 : (x + 2 ^ w * valOf w xs) % 2 ^ w = x := by
      rw [Nat.add_mul_mod_self_left, Nat.mod_eq_of_lt hx]
    have h2 : (x + 2 ^ w * valOf w xs) / 2 ^ w = valOf w xs := by
      rw [Nat.add_mul_div_left _ _ (by positivity), Nat.div_eq_of_lt hx, Nat.zero_add]
    simp only [List.length_cons, limbsOf, valOf_cons, h1, h2, hs]

theorem valOf_append (w : Nat) (l m : List Nat) :
    valOf w (l ++ m) = valOf w l + 2 ^ (l.length * w) * valOf w m := by
  induction l with
  | nil => simp
  | cons x xs ih =>
    have e : (x :: xs).length * w = w + xs.length * w := by simp; ring
    rw [List.cons_append, valOf_cons, ih, valOf_cons, e, pow_add]
    ring

/-- limb(val, j) is limb j (R8). -/
theorem limbOf_valOf {w : Nat} {l : List Nat} (h : ∀ x ∈ l, x < 2 ^ w) (j : Nat) :
    limbOf w (valOf w l) j = l.getD j 0 := by
  induction l generalizing j with
  | nil => simp [limbOf]
  | cons x xs ih =>
    have hx : x < 2 ^ w := h x (List.mem_cons_self ..)
    cases j with
    | zero =>
      simp only [limbOf, valOf_cons, Nat.zero_mul, pow_zero, Nat.div_one, List.getD_cons_zero]
      rw [Nat.add_mul_mod_self_left, Nat.mod_eq_of_lt hx]
    | succ j =>
      have hs := ih (fun y hy => h y (List.mem_cons_of_mem _ hy)) j
      have e : (j + 1) * w = w + j * w := by ring
      rw [List.getD_cons_succ, ← hs, limbOf, limbOf, valOf_cons, e, pow_add, ← Nat.div_div_eq_div_mul,
        Nat.add_mul_div_left _ _ (by positivity), Nat.div_eq_of_lt hx, Nat.zero_add]

@[simp] theorem bytesOf_length (n v : Nat) : (bytesOf n v).length = n := by
  induction n generalizing v with
  | zero => rfl
  | succ n ih => simp [bytesOf, ih]

/-- Byte j of an integer (R62). -/
theorem bytesOf_getElem? (n v j : Nat) (h : j < n) :
    (bytesOf n v)[j]? = some (BitVec.ofNat 8 (v / 2 ^ (8 * j))) := by
  induction n generalizing v j with
  | zero => omega
  | succ n ih =>
    cases j with
    | zero => simp [bytesOf]
    | succ j =>
      rw [bytesOf, List.getElem?_cons_succ, ih (v / 256) j (by omega), Nat.div_div_eq_div_mul,
        show 256 = 2 ^ 8 by rfl, ← pow_add, show 8 + 8 * j = 8 * (j + 1) by ring]

@[simp] theorem bytesOfLimbs_length (k : Nat) (l : List Nat) :
    (bytesOfLimbs k l).length = l.length * k := by
  induction l with
  | nil => simp [bytesOfLimbs]
  | cons x xs ih => simp [bytesOfLimbs, ih]; ring

/-- The bytes of a value hold the value (R62). -/
theorem valOf_bytesOf (n v : Nat) :
    valOf 8 ((bytesOf n v).map BitVec.toNat) = v % 2 ^ (n * 8) := by
  induction n generalizing v with
  | zero => simp [bytesOf, Nat.mod_one]
  | succ n ih =>
    have h : (n + 1) * 8 = 8 + n * 8 := by ring
    rw [bytesOf, List.map_cons, valOf_cons, ih, h, pow_add, Nat.mod_mul]
    simp

end Sys2Proof.Machine
end

