-- ==== Sys2Proof/Laws/Memory.lean ====
section
/-! SUPPORT. Memory: a write is read back and leaves every other address alone, every memory operation
keeps the canonical form, and what `MemWrite` and `Draw` do to LMEM (R9). -/

namespace Sys2Proof.Machine

/-! ### The list of cells -/

theorem read?_cells (lo : Nat) (bs : List Byte) (a : Nat) :
    Memory.read? (Memory.cells lo bs) a = if a < lo then none else bs[a - lo]? := by
  induction bs generalizing lo with
  | nil => simp [Memory.read?, Memory.cells]
  | cons b bs ih =>
    have ih' := ih (lo + 1)
    simp only [Memory.read?] at ih' ⊢
    rw [Memory.cells, List.lookup_cons]
    by_cases h : a = lo
    · subst h; simp
    · have hb : (a == lo) = false := by simpa using h
      rw [hb, ih']
      by_cases h1 : a < lo
      · simp [h1, Nat.lt_succ_of_lt h1]
      · have h2 : ¬ a < lo + 1 := by omega
        have h3 : a - lo = (a - (lo + 1)) + 1 := by omega
        simp [h1, h2, h3]

theorem lookup_append (m n : Memory) (a : Nat) :
    (m ++ n).lookup a = (m.lookup a).or (n.lookup a) := by
  induction m with
  | nil => simp
  | cons c m ih =>
    obtain ⟨k, v⟩ := c
    rw [List.cons_append, List.lookup_cons, List.lookup_cons]
    cases a == k <;> simp [ih]

theorem lookup_filter (m : Memory) (p : Nat → Bool) (a : Nat) :
    (m.filter (fun c => p c.1)).lookup a = if p a then m.lookup a else none := by
  induction m with
  | nil => simp
  | cons c m ih =>
    obtain ⟨k, v⟩ := c
    rw [List.filter_cons, List.lookup_cons]
    by_cases hk : a = k
    · subst hk
      cases h : p a <;> simp [h, ih]
    · have hb : (a == k) = false := by simpa using hk
      cases p k <;> simp [List.lookup_cons, hb, ih]

/-- What one write does to every read: the bytes written are read back, the rest is as before. -/
theorem read?_writeBytes (m : Memory) (lo : Nat) (bs : List Byte) (a : Nat) :
    Memory.read? (Memory.writeBytes m lo bs) a =
      if lo ≤ a ∧ a < lo + bs.length then bs[a - lo]? else Memory.read? m a := by
  have hc := read?_cells lo bs a
  simp only [Memory.read?] at hc ⊢
  rw [Memory.writeBytes, lookup_append, lookup_append, hc,
    lookup_filter m (fun x => decide (x < lo)) a,
    lookup_filter m (fun x => decide (lo + bs.length ≤ x)) a]
  by_cases h1 : a < lo
  · have h2 : ¬ (lo ≤ a ∧ a < lo + bs.length) := by omega
    have h3 : ¬ lo + bs.length ≤ a := by omega
    simp [h1, h2, h3]
  · by_cases h2 : a < lo + bs.length
    · have h3 : a - lo < bs.length := by omega
      have h4 : lo ≤ a := by omega
      simp [h1, h2, h4, List.getElem?_eq_getElem h3]
    · have h3 : bs[a - lo]? = none := List.getElem?_eq_none (by omega)
      have h4 : lo + bs.length ≤ a := by omega
      simp [h1, h2, h3, h4]

theorem mem_cells {lo : Nat} {bs : List Byte} {c : Host.Cell} (h : c ∈ Memory.cells lo bs) :
    lo ≤ c.1 ∧ c.1 < lo + bs.length := by
  induction bs generalizing lo with
  | nil => simp [Memory.cells] at h
  | cons b bs ih =>
    rcases List.mem_cons.1 h with rfl | h
    · simp
    · have := ih h
      simp only [List.length_cons]
      omega

theorem cells_wf (lo : Nat) (bs : List Byte) : Memory.wf (Memory.cells lo bs) := by
  induction bs generalizing lo with
  | nil => exact List.Pairwise.nil
  | cons b bs ih =>
    refine List.Pairwise.cons (fun c hc => ?_) (ih (lo + 1))
    have := (mem_cells hc).1
    show lo < c.1
    omega

/-- Every write keeps the canonical form. -/
theorem writeBytes_wf {m : Memory} (h : Memory.wf m) (lo : Nat) (bs : List Byte) :
    Memory.wf (Memory.writeBytes m lo bs) := by
  rw [Memory.wf, Memory.writeBytes, List.pairwise_append, List.pairwise_append]
  refine ⟨⟨h.filter _, cells_wf lo bs, ?_⟩, h.filter _, ?_⟩
  · intro c hc d hd
    have h1 := (mem_cells hd).1
    have h2 : c.1 < lo := by simpa using (List.mem_filter.1 hc).2
    omega
  · intro c hc d hd
    have h2 : lo + bs.length ≤ d.1 := by simpa using (List.mem_filter.1 hd).2
    rcases List.mem_append.1 hc with hc | hc
    · have h1 : c.1 < lo := by simpa using (List.mem_filter.1 hc).2
      omega
    · have h1 := (mem_cells hc).2
      omega

/-- Where the cells of a written memory come from. -/
theorem mem_writeBytes {m : Memory} {lo : Nat} {bs : List Byte} {c : Host.Cell}
    (h : c ∈ Memory.writeBytes m lo bs) : c ∈ m ∨ (lo ≤ c.1 ∧ c.1 < lo + bs.length) := by
  rw [Memory.writeBytes] at h
  rcases List.mem_append.1 h with h | h
  · rcases List.mem_append.1 h with h | h
    · exact .inl (List.mem_filter.1 h).1
    · exact .inr (mem_cells h)
  · exact .inl (List.mem_filter.1 h).1

/-! ### LMEM as bytes and limbs -/

@[simp] theorem drawnBytes_length (d lo n : Nat) : (drawnBytes d lo n).length = n := by
  induction n generalizing lo with
  | zero => rfl
  | succ n ih => simp [drawnBytes, ih]

@[simp] theorem memWrite_limbBits (s : State) (a n v : Nat) :
    (s.memWrite a n v).limbBits = s.limbBits := rfl
@[simp] theorem memWrite_limbBytes (s : State) (a n v : Nat) :
    (s.memWrite a n v).limbBytes = s.limbBytes := rfl
@[simp] theorem drawLimbs_limbBits (s : State) (a n : Nat) :
    (s.drawLimbs a n).limbBits = s.limbBits := rfl
@[simp] theorem drawLimbs_limbBytes (s : State) (a n : Nat) :
    (s.drawLimbs a n).limbBytes = s.limbBytes := rfl

theorem limbBytes_pos (s : State) : 0 < s.limbBytes := by
  unfold State.limbBytes; cases s.params.width <;> decide

theorem limbBytes_eq (s : State) : s.limbBytes * 8 = s.limbBits := by
  unfold State.limbBytes State.limbBits; cases s.params.width <;> rfl

theorem limbBits_ge (s : State) : 32 ≤ s.limbBits := by
  unfold State.limbBits; cases s.params.width <;> decide

@[simp] theorem bytesAt_length (s : State) (a n : Nat) : (s.bytesAt a n).length = n := by
  induction n generalizing a with
  | zero => rfl
  | succ n ih => simp [State.bytesAt, ih]

@[simp] theorem limbs_length (s : State) (a n : Nat) : (s.limbs a n).length = n := by
  induction n generalizing a with
  | zero => rfl
  | succ n ih => simp [State.limbs, ih]

theorem bytesAt_lt (s : State) (a n : Nat) : ∀ x ∈ s.bytesAt a n, x < 2 ^ 8 := by
  induction n generalizing a with
  | zero => simp [State.bytesAt]
  | succ n ih =>
    intro x hx
    rcases List.mem_cons.1 hx with rfl | hx
    · exact (s.byteAt a).isLt
    · exact ih _ x hx

/-- A limb is a W-bit value (R8). -/
theorem limb_lt (s : State) (a : Nat) : s.limb a < 2 ^ s.limbBits := by
  have h := valOf_lt (bytesAt_lt s (a * s.limbBytes) s.limbBytes)
  rwa [bytesAt_length, limbBytes_eq] at h

theorem limbs_lt (s : State) (a n : Nat) : ∀ x ∈ s.limbs a n, x < 2 ^ s.limbBits := by
  induction n generalizing a with
  | zero => simp [State.limbs]
  | succ n ih =>
    intro x hx
    rcases List.mem_cons.1 hx with rfl | hx
    · exact limb_lt s a
    · exact ih _ x hx

/-- A value of n limbs is below 2^(n*W) (R8). -/
theorem memRead_lt (s : State) (a n : Nat) : s.memRead a n < 2 ^ (n * s.limbBits) := by
  have h := valOf_lt (limbs_lt s a n)
  rwa [limbs_length] at h

/-- Two states that agree on the bytes of an interval agree on its bytes as a list. -/
theorem bytesAt_congr {s t : State} {a n : Nat}
    (h : ∀ k, a ≤ k → k < a + n → t.byteAt k = s.byteAt k) : t.bytesAt a n = s.bytesAt a n := by
  induction n generalizing a with
  | zero => rfl
  | succ n ih =>
    rw [State.bytesAt, State.bytesAt, h a (le_refl _) (by omega),
      ih (fun k h1 h2 => h k (by omega) (by omega))]

/-- Two machines of one width that agree on the bytes of an interval of limbs agree on its limbs. -/
theorem limbs_congr {s t : State} {a n : Nat} (hp : t.params = s.params)
    (h : ∀ k, a * s.limbBytes ≤ k → k < (a + n) * s.limbBytes → t.byteAt k = s.byteAt k) :
    t.limbs a n = s.limbs a n := by
  have hb : t.limbBytes = s.limbBytes := by simp [State.limbBytes, hp]
  induction n generalizing a with
  | zero => rfl
  | succ n ih =>
    have e : (a + 1) * s.limbBytes = a * s.limbBytes + s.limbBytes := by ring
    have e2 : (a + 1) * s.limbBytes ≤ (a + (n + 1)) * s.limbBytes :=
      Nat.mul_le_mul_right _ (by omega)
    rw [State.limbs, State.limbs, ih (fun k h1 h2 => h k (by omega) (by rwa [show a + (n + 1) =
      a + 1 + n by ring])), State.limb, State.limb, hb, bytesAt_congr (fun k h1 h2 => h k h1 (by omega))]

theorem memRead_congr {s t : State} {a n : Nat} (hp : t.params = s.params)
    (h : ∀ k, a * s.limbBytes ≤ k → k < (a + n) * s.limbBytes → t.byteAt k = s.byteAt k) :
    t.memRead a n = s.memRead a n := by
  rw [State.memRead, State.memRead, limbs_congr hp h]
  simp [State.limbBits, hp]

/-- What `MemWrite` does to a byte outside its limbs: nothing. -/
theorem byteAt_memWrite_outside (s : State) (a n v k : Nat)
    (h : k < a * s.limbBytes ∨ (a + n) * s.limbBytes ≤ k) :
    (s.memWrite a n v).byteAt k = s.byteAt k := by
  have e : (a + n) * s.limbBytes = a * s.limbBytes + n * s.limbBytes := by ring
  simp only [State.byteAt, State.memWrite, read?_writeBytes, bytesOfLimbs_length, limbsOf_length]
  rw [if_neg (by omega)]

/-- What `Draw` does to a byte outside its limbs: nothing. -/
theorem byteAt_drawLimbs_outside (s : State) (a n k : Nat)
    (h : k < a * s.limbBytes ∨ (a + n) * s.limbBytes ≤ k) :
    (s.drawLimbs a n).byteAt k = s.byteAt k := by
  have e : (a + n) * s.limbBytes = a * s.limbBytes + n * s.limbBytes := by ring
  simp only [State.byteAt, State.drawLimbs, read?_writeBytes, drawnBytes_length]
  rw [if_neg (by omega)]

/-- What `MemWrite` does to a byte of its limbs. -/
theorem byteAt_memWrite_inside (s : State) (a n v k : Nat) (h : k < n * s.limbBytes) :
    some ((s.memWrite a n v).byteAt (a * s.limbBytes + k)) =
      (bytesOfLimbs s.limbBytes (limbsOf s.limbBits n v))[k]? := by
  have hk : k < (bytesOfLimbs s.limbBytes (limbsOf s.limbBits n v)).length := by simpa using h
  have hc : a * s.limbBytes ≤ a * s.limbBytes + k ∧
      a * s.limbBytes + k < a * s.limbBytes + n * s.limbBytes := ⟨by omega, by omega⟩
  simp only [State.byteAt, State.memWrite, read?_writeBytes, bytesOfLimbs_length, limbsOf_length]
  rw [if_pos hc, Nat.add_sub_cancel_left, List.getElem?_eq_getElem hk]
  rfl

/-- Reading bytes that are known one by one. -/
theorem bytesAt_eq {s : State} {lo : Nat} {bs : List Byte}
    (h : ∀ k, k < bs.length → some (s.byteAt (lo + k)) = bs[k]?) :
    s.bytesAt lo bs.length = bs.map BitVec.toNat := by
  induction bs generalizing lo with
  | nil => rfl
  | cons b bs ih =>
    have h0 : s.byteAt lo = b := by simpa using h 0 (by simp)
    rw [List.length_cons, State.bytesAt, h0, ih (lo := lo + 1) (fun k hk => by
      have := h (k + 1) (by simpa using hk)
      rwa [List.getElem?_cons_succ, show lo + (k + 1) = lo + 1 + k by ring] at this), List.map_cons]

theorem limbs_of_bytes {s : State} {l : List Nat} {a : Nat}
    (hl : ∀ x ∈ l, x < 2 ^ s.limbBits)
    (h : ∀ k, k < l.length * s.limbBytes →
      some (s.byteAt (a * s.limbBytes + k)) = (bytesOfLimbs s.limbBytes l)[k]?) :
    s.limbs a l.length = l := by
  induction l generalizing a with
  | nil => rfl
  | cons x xs ih =>
    have hlen : (x :: xs).length * s.limbBytes = s.limbBytes + xs.length * s.limbBytes := by
      rw [List.length_cons]; ring
    have hx : s.limb a = x := by
      have hb := bytesAt_eq (s := s) (lo := a * s.limbBytes) (bs := bytesOf s.limbBytes x)
        (fun k hk => by
          have hk' : k < s.limbBytes := by simpa using hk
          rw [h k (by omega), bytesOfLimbs, List.getElem?_append_left (by simpa using hk')])
      rw [bytesOf_length] at hb
      rw [State.limb, hb, valOf_bytesOf, limbBytes_eq, Nat.mod_eq_of_lt (hl x (List.mem_cons_self ..))]
    rw [List.length_cons, State.limbs, hx, ih (fun y hy => hl y (List.mem_cons_of_mem _ hy)) (fun k hk => by
      have h1 := h (s.limbBytes + k) (by omega)
      rw [bytesOfLimbs, List.getElem?_append_right (by simp), bytesOf_length,
        Nat.add_sub_cancel_left] at h1
      rw [← h1]
      congr 2
      ring)]

/-- `MemRead` after `MemWrite` to the same limbs gives the value written, mod 2^(n*W) (R9). -/
theorem memRead_memWrite (s : State) (a n v : Nat) :
    (s.memWrite a n v).memRead a n = v % 2 ^ (n * s.limbBits) := by
  have h := limbs_of_bytes (s := s.memWrite a n v) (l := limbsOf s.limbBits n v) (a := a)
    (limbsOf_lt _ _ _) (fun k hk => by
      rw [limbsOf_length] at hk
      exact byteAt_memWrite_inside s a n v k hk)
  rw [limbsOf_length] at h
  rw [State.memRead, h, memWrite_limbBits, valOf_limbsOf]

/-- The bytes of the value that stored bytes hold are those bytes (R62). -/
theorem bytesOf_bytesAt (s : State) (m lo j : Nat) (h : j < m) :
    (bytesOf m (valOf 8 (s.bytesAt lo m)))[j]? = some (s.byteAt (lo + j)) := by
  induction m generalizing lo j with
  | zero => omega
  | succ m ih =>
    have hb := (s.byteAt lo).isLt
    have h1 : ((s.byteAt lo).toNat + 2 ^ 8 * valOf 8 (s.bytesAt (lo + 1) m)) / 256 =
        valOf 8 (s.bytesAt (lo + 1) m) := by omega
    rw [State.bytesAt, valOf_cons, bytesOf, h1]
    cases j with
    | zero =>
      rw [List.getElem?_cons_zero]
      congr 1
      rw [show lo + 0 = lo from rfl]
      apply BitVec.eq_of_toNat_eq
      rw [BitVec.toNat_ofNat]
      omega
    | succ j =>
      rw [List.getElem?_cons_succ, ih (lo + 1) j (by omega)]
      congr 2
      ring

/-- The bytes of stored limbs are the stored bytes (R62). -/
theorem bytesOfLimbs_limbs (s : State) (n a k : Nat) (h : k < n * s.limbBytes) :
    (bytesOfLimbs s.limbBytes (s.limbs a n))[k]? = some (s.byteAt (a * s.limbBytes + k)) := by
  induction n generalizing a k with
  | zero => omega
  | succ n ih =>
    have e : (n + 1) * s.limbBytes = s.limbBytes + n * s.limbBytes := by ring
    rw [State.limbs, bytesOfLimbs]
    by_cases hk : k < s.limbBytes
    · rw [List.getElem?_append_left (by simpa using hk), State.limb, bytesOf_bytesAt s _ _ k hk]
    · rw [List.getElem?_append_right (by simpa using hk), bytesOf_length,
        ih (a + 1) (k - s.limbBytes) (by omega)]
      have e2 : (a + 1) * s.limbBytes = a * s.limbBytes + s.limbBytes := by ring
      congr 2
      omega

/-- Rewriting limbs with the value they hold changes no byte (R204). -/
theorem byteAt_memWrite_own (s : State) (a n k : Nat) :
    (s.memWrite a n (s.memRead a n)).byteAt k = s.byteAt k := by
  have e : (a + n) * s.limbBytes = a * s.limbBytes + n * s.limbBytes := by ring
  by_cases h : k < a * s.limbBytes ∨ (a + n) * s.limbBytes ≤ k
  · exact byteAt_memWrite_outside s a n _ k h
  · have h1 := byteAt_memWrite_inside s a n (s.memRead a n) (k - a * s.limbBytes) (by omega)
    have h2 := limbsOf_valOf (limbs_lt s a n)
    rw [limbs_length] at h2
    rw [State.memRead, h2, bytesOfLimbs_limbs s n a _ (by omega),
      show a * s.limbBytes + (k - a * s.limbBytes) = k by omega] at h1
    exact Option.some.inj h1

/-- `MemRead` of limbs disjoint from those of a `MemWrite` is as before. -/
theorem memRead_memWrite_outside (s : State) (a n v b m : Nat) (h : b + m ≤ a ∨ a + n ≤ b) :
    (s.memWrite a n v).memRead b m = s.memRead b m := by
  refine memRead_congr rfl (fun k h1 h2 => byteAt_memWrite_outside s a n v k ?_)
  rcases h with h | h
  · exact .inl (lt_of_lt_of_le h2 (Nat.mul_le_mul_right _ h))
  · exact .inr (le_trans (Nat.mul_le_mul_right _ h) h1)

/-- `MemRead` of limbs disjoint from those of a `Draw` is as before. -/
theorem memRead_drawLimbs_outside (s : State) (a n b m : Nat) (h : b + m ≤ a ∨ a + n ≤ b) :
    (s.drawLimbs a n).memRead b m = s.memRead b m := by
  refine memRead_congr rfl (fun k h1 h2 => byteAt_drawLimbs_outside s a n k ?_)
  rcases h with h | h
  · exact .inl (lt_of_lt_of_le h2 (Nat.mul_le_mul_right _ h))
  · exact .inr (le_trans (Nat.mul_le_mul_right _ h) h1)

/-- A byte whose limb is not in the interval lies outside the interval's bytes. -/
theorem outside_of_not_has {s : State} {x : Interval} {k : Nat}
    (h : x.has (k / s.limbBytes) = false) :
    k < x.base * s.limbBytes ∨ (x.base + x.len) * s.limbBytes ≤ k := by
  by_cases h1 : x.base ≤ k / s.limbBytes
  · have h2 : ¬ k / s.limbBytes < x.base + x.len := by
      intro h2
      simp [Interval.has, h1, h2] at h
    right
    exact (Nat.le_div_iff_mul_le (limbBytes_pos s)).1 (by omega)
  · left
    exact (Nat.div_lt_iff_lt_mul (limbBytes_pos s)).1 (by omega)

/-! ### The canonical form is kept -/

theorem memWrite_wf {s : State} (h : Memory.wf s.lmem) (a n v : Nat) :
    Memory.wf (s.memWrite a n v).lmem := writeBytes_wf h _ _

theorem drawLimbs_wf {s : State} (h : Memory.wf s.lmem) (a n : Nat) :
    Memory.wf (s.drawLimbs a n).lmem := writeBytes_wf h _ _

/-- LMEM right after power-on has the canonical form. -/
theorem powerOn_lmem_wf (p : Params) : Memory.wf (State.powerOn p).lmem := List.Pairwise.nil

theorem reset_lmem_wf : Memory.wf State.reset.lmem := List.Pairwise.nil

end Sys2Proof.Machine
end

