-- ==== Sys2Proof/Laws/State.lean ====
section
/-! SUPPORT. One lemma per field per update of State, each true by rfl, so that no proof unfolds a
record update. -/

namespace Sys2Proof.Machine

section
variable (s : State)

@[simp] theorem memWrite_params (a n v : Nat) : (s.memWrite a n v).params = s.params := rfl
@[simp] theorem memWrite_ie (a n v : Nat) : (s.memWrite a n v).ie = s.ie := rfl
@[simp] theorem memWrite_status (a n v : Nat) : (s.memWrite a n v).status = s.status := rfl
@[simp] theorem memWrite_cfg (a n v : Nat) : (s.memWrite a n v).cfg = s.cfg := rfl
@[simp] theorem memWrite_invY (a n v : Nat) : (s.memWrite a n v).invY = s.invY := rfl
theorem memWrite_lmem (a n v : Nat) :
    (s.memWrite a n v).lmem = Memory.writeBytes s.lmem (a * s.limbBytes)
      (bytesOfLimbs s.limbBytes (limbsOf s.limbBits n v)) := rfl
@[simp] theorem memWrite_engine (a n v : Nat) : (s.memWrite a n v).engine = s.engine := rfl
@[simp] theorem memWrite_bus (a n v : Nat) : (s.memWrite a n v).bus = s.bus := rfl
@[simp] theorem memWrite_readData (a n v : Nat) : (s.memWrite a n v).readData = s.readData := rfl
@[simp] theorem memWrite_powerDraw (a n v : Nat) : (s.memWrite a n v).powerDraw = s.powerDraw := rfl
@[simp] theorem memWrite_draws (a n v : Nat) : (s.memWrite a n v).draws = s.draws := rfl

@[simp] theorem drawLimbs_params (a n : Nat) : (s.drawLimbs a n).params = s.params := rfl
@[simp] theorem drawLimbs_ie (a n : Nat) : (s.drawLimbs a n).ie = s.ie := rfl
@[simp] theorem drawLimbs_status (a n : Nat) : (s.drawLimbs a n).status = s.status := rfl
@[simp] theorem drawLimbs_cfg (a n : Nat) : (s.drawLimbs a n).cfg = s.cfg := rfl
@[simp] theorem drawLimbs_invY (a n : Nat) : (s.drawLimbs a n).invY = s.invY := rfl
theorem drawLimbs_lmem (a n : Nat) :
    (s.drawLimbs a n).lmem = Memory.writeBytes s.lmem (a * s.limbBytes)
      (drawnBytes s.draws (a * s.limbBytes) (n * s.limbBytes)) := rfl
@[simp] theorem drawLimbs_engine (a n : Nat) : (s.drawLimbs a n).engine = s.engine := rfl
@[simp] theorem drawLimbs_bus (a n : Nat) : (s.drawLimbs a n).bus = s.bus := rfl
@[simp] theorem drawLimbs_readData (a n : Nat) : (s.drawLimbs a n).readData = s.readData := rfl
@[simp] theorem drawLimbs_powerDraw (a n : Nat) : (s.drawLimbs a n).powerDraw = s.powerDraw := rfl
@[simp] theorem drawLimbs_draws (a n : Nat) : (s.drawLimbs a n).draws = s.draws + 1 := rfl

@[simp] theorem beginCommand_params : s.beginCommand.params = s.params := rfl
@[simp] theorem beginCommand_ie : s.beginCommand.ie = s.ie := rfl
@[simp] theorem beginCommand_status :
    s.beginCommand.status = { s.status with done := false, err := .none } := rfl
@[simp] theorem beginCommand_cfg : s.beginCommand.cfg = s.cfg := rfl
@[simp] theorem beginCommand_invY : s.beginCommand.invY = s.invY := rfl
@[simp] theorem beginCommand_lmem : s.beginCommand.lmem = s.lmem := rfl
@[simp] theorem beginCommand_engine : s.beginCommand.engine = s.engine := rfl
@[simp] theorem beginCommand_bus : s.beginCommand.bus = s.bus := rfl
@[simp] theorem beginCommand_readData : s.beginCommand.readData = s.readData := rfl
@[simp] theorem beginCommand_powerDraw : s.beginCommand.powerDraw = s.powerDraw := rfl
@[simp] theorem beginCommand_draws : s.beginCommand.draws = s.draws := rfl

@[simp] theorem raiseCmdError_params (c : ErrCode) : (s.raiseCmdError c).params = s.params := rfl
@[simp] theorem raiseCmdError_ie (c : ErrCode) : (s.raiseCmdError c).ie = s.ie := rfl
@[simp] theorem raiseCmdError_status (c : ErrCode) :
    (s.raiseCmdError c).status = { s.status with done := true, err := c } := rfl
@[simp] theorem raiseCmdError_cfg (c : ErrCode) : (s.raiseCmdError c).cfg = s.cfg := rfl
@[simp] theorem raiseCmdError_invY (c : ErrCode) : (s.raiseCmdError c).invY = s.invY := rfl
@[simp] theorem raiseCmdError_lmem (c : ErrCode) : (s.raiseCmdError c).lmem = s.lmem := rfl
@[simp] theorem raiseCmdError_engine (c : ErrCode) : (s.raiseCmdError c).engine = s.engine := rfl
@[simp] theorem raiseCmdError_bus (c : ErrCode) : (s.raiseCmdError c).bus = s.bus := rfl
@[simp] theorem raiseCmdError_readData (c : ErrCode) :
    (s.raiseCmdError c).readData = s.readData := rfl
@[simp] theorem raiseCmdError_powerDraw (c : ErrCode) :
    (s.raiseCmdError c).powerDraw = s.powerDraw := rfl
@[simp] theorem raiseCmdError_draws (c : ErrCode) : (s.raiseCmdError c).draws = s.draws := rfl

@[simp] theorem accept_params (i : Instr) : (s.accept i).params = s.params := rfl
@[simp] theorem accept_ie (i : Instr) : (s.accept i).ie = s.ie := rfl
@[simp] theorem accept_status (i : Instr) : (s.accept i).status = s.status := rfl
@[simp] theorem accept_cfg (i : Instr) : (s.accept i).cfg = s.cfg := rfl
@[simp] theorem accept_invY (i : Instr) : (s.accept i).invY = s.invY := rfl
@[simp] theorem accept_lmem (i : Instr) : (s.accept i).lmem = s.lmem := rfl
@[simp] theorem accept_engine (i : Instr) :
    (s.accept i).engine = some { op := i, pos := s.firstPosition i } := rfl
@[simp] theorem accept_bus (i : Instr) : (s.accept i).bus = s.bus := rfl
@[simp] theorem accept_readData (i : Instr) : (s.accept i).readData = s.readData := rfl
@[simp] theorem accept_powerDraw (i : Instr) : (s.accept i).powerDraw = s.powerDraw := rfl
@[simp] theorem accept_draws (i : Instr) : (s.accept i).draws = s.draws := rfl

@[simp] theorem endCommand_params : s.endCommand.params = s.params := rfl
@[simp] theorem endCommand_ie : s.endCommand.ie = s.ie := rfl
@[simp] theorem endCommand_status : s.endCommand.status = { s.status with done := true } := rfl
@[simp] theorem endCommand_cfg : s.endCommand.cfg = s.cfg := rfl
@[simp] theorem endCommand_invY : s.endCommand.invY = s.invY := rfl
@[simp] theorem endCommand_lmem : s.endCommand.lmem = s.lmem := rfl
@[simp] theorem endCommand_engine : s.endCommand.engine = none := rfl
@[simp] theorem endCommand_bus : s.endCommand.bus = s.bus := rfl
@[simp] theorem endCommand_readData : s.endCommand.readData = s.readData := rfl
@[simp] theorem endCommand_powerDraw : s.endCommand.powerDraw = s.powerDraw := rfl
@[simp] theorem endCommand_draws : s.endCommand.draws = s.draws := rfl

@[simp] theorem setOverrun_params : s.setOverrun.params = s.params := rfl
@[simp] theorem setOverrun_ie : s.setOverrun.ie = s.ie := rfl
@[simp] theorem setOverrun_status : s.setOverrun.status = { s.status with overrun := true } := rfl
@[simp] theorem setOverrun_cfg : s.setOverrun.cfg = s.cfg := rfl
@[simp] theorem setOverrun_invY : s.setOverrun.invY = s.invY := rfl
@[simp] theorem setOverrun_lmem : s.setOverrun.lmem = s.lmem := rfl
@[simp] theorem setOverrun_engine : s.setOverrun.engine = s.engine := rfl
@[simp] theorem setOverrun_bus : s.setOverrun.bus = s.bus := rfl
@[simp] theorem setOverrun_readData : s.setOverrun.readData = s.readData := rfl
@[simp] theorem setOverrun_powerDraw : s.setOverrun.powerDraw = s.powerDraw := rfl
@[simp] theorem setOverrun_draws : s.setOverrun.draws = s.draws := rfl

@[simp] theorem setHostviol_params : s.setHostviol.params = s.params := rfl
@[simp] theorem setHostviol_ie : s.setHostviol.ie = s.ie := rfl
@[simp] theorem setHostviol_status :
    s.setHostviol.status = { s.status with hostviol := true } := rfl
@[simp] theorem setHostviol_cfg : s.setHostviol.cfg = s.cfg := rfl
@[simp] theorem setHostviol_invY : s.setHostviol.invY = s.invY := rfl
@[simp] theorem setHostviol_lmem : s.setHostviol.lmem = s.lmem := rfl
@[simp] theorem setHostviol_engine : s.setHostviol.engine = s.engine := rfl
@[simp] theorem setHostviol_bus : s.setHostviol.bus = s.bus := rfl
@[simp] theorem setHostviol_readData : s.setHostviol.readData = s.readData := rfl
@[simp] theorem setHostviol_powerDraw : s.setHostviol.powerDraw = s.powerDraw := rfl
@[simp] theorem setHostviol_draws : s.setHostviol.draws = s.draws := rfl

@[simp] theorem setCtrl_params (v : Word32) : (s.setCtrl v).params = s.params := rfl
@[simp] theorem setCtrl_ie (v : Word32) : (s.setCtrl v).ie = v.getLsbD 0 := rfl
@[simp] theorem setCtrl_status (v : Word32) : (s.setCtrl v).status = s.status := rfl
@[simp] theorem setCtrl_cfg (v : Word32) : (s.setCtrl v).cfg = s.cfg := rfl
@[simp] theorem setCtrl_invY (v : Word32) : (s.setCtrl v).invY = s.invY := rfl
@[simp] theorem setCtrl_lmem (v : Word32) : (s.setCtrl v).lmem = s.lmem := rfl
@[simp] theorem setCtrl_engine (v : Word32) : (s.setCtrl v).engine = s.engine := rfl
@[simp] theorem setCtrl_bus (v : Word32) : (s.setCtrl v).bus = s.bus := rfl
@[simp] theorem setCtrl_readData (v : Word32) : (s.setCtrl v).readData = s.readData := rfl
@[simp] theorem setCtrl_powerDraw (v : Word32) : (s.setCtrl v).powerDraw = s.powerDraw := rfl
@[simp] theorem setCtrl_draws (v : Word32) : (s.setCtrl v).draws = s.draws := rfl

@[simp] theorem writeStatus_params (v : Word32) : (s.writeStatus v).params = s.params := rfl
@[simp] theorem writeStatus_ie (v : Word32) : (s.writeStatus v).ie = s.ie := rfl
@[simp] theorem writeStatus_status (v : Word32) :
    (s.writeStatus v).status = s.status.clearWritten v := rfl
@[simp] theorem writeStatus_cfg (v : Word32) : (s.writeStatus v).cfg = s.cfg := rfl
@[simp] theorem writeStatus_invY (v : Word32) : (s.writeStatus v).invY = s.invY := rfl
@[simp] theorem writeStatus_lmem (v : Word32) : (s.writeStatus v).lmem = s.lmem := rfl
@[simp] theorem writeStatus_engine (v : Word32) : (s.writeStatus v).engine = s.engine := rfl
@[simp] theorem writeStatus_bus (v : Word32) : (s.writeStatus v).bus = s.bus := rfl
@[simp] theorem writeStatus_readData (v : Word32) : (s.writeStatus v).readData = s.readData := rfl
@[simp] theorem writeStatus_powerDraw (v : Word32) :
    (s.writeStatus v).powerDraw = s.powerDraw := rfl
@[simp] theorem writeStatus_draws (v : Word32) : (s.writeStatus v).draws = s.draws := rfl

@[simp] theorem regRead_params (o : Nat) : (s.regRead o).params = s.params := rfl
@[simp] theorem regRead_ie (o : Nat) : (s.regRead o).ie = s.ie := rfl
@[simp] theorem regRead_status (o : Nat) : (s.regRead o).status = s.status := rfl
@[simp] theorem regRead_cfg (o : Nat) : (s.regRead o).cfg = s.cfg := rfl
@[simp] theorem regRead_invY (o : Nat) : (s.regRead o).invY = s.invY := rfl
@[simp] theorem regRead_lmem (o : Nat) : (s.regRead o).lmem = s.lmem := rfl
@[simp] theorem regRead_engine (o : Nat) : (s.regRead o).engine = s.engine := rfl
@[simp] theorem regRead_bus (o : Nat) : (s.regRead o).bus = s.bus := rfl
@[simp] theorem regRead_readData (o : Nat) : (s.regRead o).readData = some (s.portValue o) := rfl
@[simp] theorem regRead_powerDraw (o : Nat) : (s.regRead o).powerDraw = s.powerDraw := rfl
@[simp] theorem regRead_draws (o : Nat) : (s.regRead o).draws = s.draws := rfl

@[simp] theorem resetRegisters_params : s.resetRegisters.params = s.params := rfl
@[simp] theorem resetRegisters_ie : s.resetRegisters.ie = false := rfl
@[simp] theorem resetRegisters_status : s.resetRegisters.status = Status.reset := rfl
@[simp] theorem resetRegisters_cfg : s.resetRegisters.cfg = CfgRegs.reset := rfl
@[simp] theorem resetRegisters_invY : s.resetRegisters.invY = 0 := rfl
@[simp] theorem resetRegisters_lmem : s.resetRegisters.lmem = s.lmem := rfl
@[simp] theorem resetRegisters_engine : s.resetRegisters.engine = none := rfl
@[simp] theorem resetRegisters_bus : s.resetRegisters.bus = s.bus := rfl
@[simp] theorem resetRegisters_readData : s.resetRegisters.readData = s.readData := rfl
@[simp] theorem resetRegisters_powerDraw : s.resetRegisters.powerDraw = s.powerDraw := rfl
@[simp] theorem resetRegisters_draws : s.resetRegisters.draws = s.draws := rfl

@[simp] theorem powerCycle_params : s.powerCycle.params = s.params := rfl
@[simp] theorem powerCycle_ie : s.powerCycle.ie = false := rfl
@[simp] theorem powerCycle_status : s.powerCycle.status = Status.reset := rfl
@[simp] theorem powerCycle_cfg : s.powerCycle.cfg = CfgRegs.reset := rfl
@[simp] theorem powerCycle_invY : s.powerCycle.invY = 0 := rfl
@[simp] theorem powerCycle_lmem : s.powerCycle.lmem = [] := rfl
@[simp] theorem powerCycle_engine : s.powerCycle.engine = none := rfl
@[simp] theorem powerCycle_bus : s.powerCycle.bus = s.bus := rfl
@[simp] theorem powerCycle_readData : s.powerCycle.readData = s.readData := rfl
@[simp] theorem powerCycle_powerDraw : s.powerCycle.powerDraw = s.draws := rfl
@[simp] theorem powerCycle_draws : s.powerCycle.draws = s.draws + 1 := rfl

@[simp] theorem memWrite_r (a n v : Nat) : (s.memWrite a n v).r = s.r := rfl
@[simp] theorem memWrite_nq (a n v : Nat) : (s.memWrite a n v).nq = s.nq := rfl
@[simp] theorem memWrite_expLen (a n v : Nat) : (s.memWrite a n v).expLen = s.expLen := rfl
@[simp] theorem memWrite_invArg (a n v : Nat) : (s.memWrite a n v).invArg = s.invArg := rfl
@[simp] theorem memWrite_lmemLimbs (a n v : Nat) : (s.memWrite a n v).lmemLimbs = s.lmemLimbs := rfl
@[simp] theorem memWrite_busy (a n v : Nat) : (s.memWrite a n v).busy = s.busy := rfl

@[simp] theorem drawLimbs_r (a n : Nat) : (s.drawLimbs a n).r = s.r := rfl
@[simp] theorem drawLimbs_nq (a n : Nat) : (s.drawLimbs a n).nq = s.nq := rfl
@[simp] theorem drawLimbs_expLen (a n : Nat) : (s.drawLimbs a n).expLen = s.expLen := rfl
@[simp] theorem drawLimbs_invArg (a n : Nat) : (s.drawLimbs a n).invArg = s.invArg := rfl
@[simp] theorem drawLimbs_lmemLimbs (a n : Nat) : (s.drawLimbs a n).lmemLimbs = s.lmemLimbs := rfl
@[simp] theorem drawLimbs_busy (a n : Nat) : (s.drawLimbs a n).busy = s.busy := rfl

end

end Sys2Proof.Machine
end

