-- ==== Sys2Proof/Laws/Control.lean ====
section
/-! SUPPORT. What the shared operations can do, said once: issuing a command, completing it, the CMD
write, the reset input, and one step. -/

namespace Sys2Proof.Machine

theorem busy_iff (s : State) : s.busy = true ↔ ∃ e, s.engine = some e := by
  unfold State.busy
  exact Option.isSome_iff_exists

theorem idle_iff (s : State) : s.busy = false ↔ s.engine = none := by
  unfold State.busy
  cases s.engine <;> simp

/-- The checks depend on the parameters and the cfg registers alone (R103 to R105). -/
theorem checkOperands_congr {s t : State} (hp : t.params = s.params) (hc : t.cfg = s.cfg) (i : Instr) :
    checkOperands i t = checkOperands i s := by
  cases s; cases t
  simp only at hp hc
  subst hp hc
  rfl

/-- The ranges of the controller's values depend on the parameters and the cfg registers alone. -/
theorem okFor_congr {s t : State} (hp : t.params = s.params) (hc : t.cfg = s.cfg) (i : Instr)
    (p : Position) : Position.okFor t i p ↔ Position.okFor s i p := by
  cases s; cases t
  simp only at hp hc
  subst hp hc
  cases p <;> rfl

/-- Issuing a command either accepts it or rejects it with the first error that applies. -/
theorem issue_cases (s : State) (i : Instr) :
    (checkOperands i s = .none ∧ s.issue i = s.beginCommand.accept i) ∨
      (checkOperands i s ≠ .none ∧ s.issue i = s.beginCommand.raiseCmdError (checkOperands i s)) := by
  unfold State.issue
  cases h : checkOperands i s <;> simp

/-- What a meaning does, whatever the command. -/
theorem exec_eq (i : Instr) (s : State) : exec i s = s.runCommand i (effectOf i) := by
  cases i <;> rfl

/-- Given to an idle engine, a command is issued (R100). -/
theorem exec_idle {s : State} (h : s.busy = false) (i : Instr) : exec i s = .next (s.issue i) := by
  rw [exec_eq, State.runCommand, h]
  rfl

/-- A busy engine completes, or stops when a buffer is not in LMEM (R108). -/
theorem exec_busy {s : State} (h : s.busy = true) (i : Instr) :
    exec i s = s.completeWith i (effectOf i) := by
  rw [exec_eq, State.runCommand, h]
  rfl

/-- A completion that answers a next state. -/
theorem completeWith_next {s t : State} {i : Instr} {f : State → State} :
    s.completeWith i f = .next t ↔ rangeViolation i s = false ∧ t = (f s).endCommand := by
  unfold State.completeWith
  cases rangeViolation i s
  · simp only [Bool.false_eq_true, if_false, true_and]
    exact ⟨fun h => (Host.Outcome.next.inj h).symm, fun h => congrArg Host.Outcome.next h.symm⟩
  · simp

/-- The completion of a command whose checks hold. -/
theorem completeWith_checked {s : State} {i : Instr} (f : State → State)
    (h : rangeViolation i s = false) : s.completeWith i f = .next (f s).endCommand :=
  completeWith_next.2 ⟨h, rfl⟩

/-- A command that passes its checks has all its buffers in LMEM. -/
theorem rangeViolation_of_checked {s : State} {i : Instr} (h : checkOperands i s = .none) :
    rangeViolation i s = false := by
  cases i
  case inv1 => rfl
  all_goals
    simp only [checkOperands, reduceCtorEq, if_false] at h
    by_contra hc
    simp only [Bool.not_eq_false] at hc
    rw [hc] at h
    split at h <;> simp at h

/-- A command with LMEM operands that passes its checks has r ≥ 1. -/
theorem r_pos_of_checked {s : State} {i : Instr} (hi : i ≠ .inv1) (h : checkOperands i s = .none) :
    0 < s.r := by
  rw [checkOperands, if_neg hi] at h
  by_contra hc
  rw [if_pos (by omega)] at h
  simp at h

/-- A command that passes its checks has no forbidden overlap. -/
theorem aliasViolation_of_checked {s : State} {i : Instr} (h : checkOperands i s = .none) :
    aliasViolation i s = false := by
  by_cases hi : i = .inv1
  · subst hi; rfl
  · have h0 := r_pos_of_checked hi h
    have h1 := rangeViolation_of_checked h
    rw [checkOperands, if_neg hi, if_neg (by omega), h1] at h
    by_contra hc
    simp only [Bool.not_eq_false] at hc
    rw [hc] at h
    simp at h

/-- Writing table entries changes LMEM alone. -/
theorem writeEntries_eq (l : List Nat) : ∀ (u : State) (o : Nat),
    u.writeEntries o l = { u with lmem := (u.writeEntries o l).lmem } := by
  induction l with
  | nil => intro u o; rfl
  | cons x xs ih =>
    intro u o
    rw [State.writeEntries, ih (u.memWrite o u.r x) (o + u.r)]
    rfl

/-- Publishing a table changes LMEM and the draw counter alone. -/
theorem publishTable_eq (s : State) (l : List Nat) :
    s.publishTable l = { s with lmem := (s.publishTable l).lmem, draws := s.draws + 1 } := by
  have h := writeEntries_eq l s s.cfg.addrOut.toNat
  unfold State.publishTable
  rw [h]
  rfl

/-- Every effect but INV1's changes LMEM and the draw counter alone (R66); INV1's changes INV_Y
alone (R141). -/
theorem effectOf_eq (i : Instr) (s : State) :
    effectOf i s = if i = .inv1 then { s with invY := (inv1Effect s).invY }
      else { s with lmem := (effectOf i s).lmem, draws := s.draws + 1 } := by
  cases i
  case build => exact publishTable_eq s (buildResult s)
  all_goals rfl

/-- What no effect changes: the parameters, CTRL, STATUS, the cfg registers, the running command, the
schedule, the host's last read and the power-on draw. -/
theorem effectOf_keeps (i : Instr) (s : State) :
    (effectOf i s).params = s.params ∧ (effectOf i s).ie = s.ie ∧
      (effectOf i s).status = s.status ∧ (effectOf i s).cfg = s.cfg ∧
      (effectOf i s).engine = s.engine ∧ (effectOf i s).bus = s.bus ∧
      (effectOf i s).readData = s.readData ∧ (effectOf i s).powerDraw = s.powerDraw := by
  rw [effectOf_eq]
  split <;> exact ⟨rfl, rfl, rfl, rfl, rfl, rfl, rfl, rfl⟩

/-- INV_Y is left alone by every effect but INV1's (R36). -/
theorem effectOf_invY {i : Instr} (hi : i ≠ .inv1) (s : State) : (effectOf i s).invY = s.invY := by
  rw [effectOf_eq, if_neg hi]

/-- A completion leaves what `completedFrom` says (R108). -/
theorem endCommand_completedFrom (i : Instr) (s : State) :
    completedFrom s (effectOf i s).endCommand := by
  obtain ⟨h1, h2, h3, h4, _, h6, h7, h8⟩ := effectOf_keeps i s
  refine ⟨h1, h2, h4, h6, h7, h8, rfl, ?_⟩
  rw [endCommand_status, h3]

/-- The CMD write while BUSY (R101). -/
theorem cmdWrite_busy {s : State} (h : s.busy = true) (w : Word32) :
    s.cmdWrite w = .next s.setOverrun := by
  rw [State.cmdWrite, h]
  rfl

/-- The CMD write of a word that is a command (R100). -/
theorem cmdWrite_decoded {s : State} (h : s.busy = false) {w : Word32} {i : Instr}
    (hw : decode w = .ok i) : s.cmdWrite w = exec i s := by
  rw [State.cmdWrite, h, hw]
  rfl

/-- The CMD write of an illegal word (R103, R107). -/
theorem cmdWrite_illegal {s : State} (h : s.busy = false) {w : Word32} {e : IllegalWord}
    (hw : decode w = .error e) :
    s.cmdWrite w = .next (s.beginCommand.raiseCmdError .illegalCmd) := by
  rw [State.cmdWrite, h, hw]
  rfl

/-- A step takes the next event from the schedule and serves it. -/
theorem step_event {s : State} {e : Event} {rest : List Event} (h : s.bus = e :: rest) :
    step s = { s with bus := rest }.serve e := by
  rw [step, State.nextEvent, h]

/-- A step with nothing on the schedule is the completion of what runs (R109). -/
theorem step_quiet {s : State} (h : s.bus = []) : step s = s.completeEngine := by
  rw [step, State.nextEvent, h]

/-- A controller move before FINISH changes the engine alone; at FINISH it is the completion. -/
theorem advanceEngine_cases (s : State) :
    (s.engine = none ∧ s.advanceEngine = .next s) ∨
      (∃ e, s.engine = some e ∧ s.advanceEngine = exec e.op s ∧ e.pos.phase = .finish) ∨
      (∃ e, s.engine = some e ∧ s.advanceEngine = .next { s with engine := some (s.moveEngine e) } ∧
        e.pos.phase ≠ .finish) := by
  unfold State.advanceEngine
  cases h : s.engine with
  | none => exact .inl ⟨rfl, rfl⟩
  | some e =>
    cases hp : e.pos <;> simp [Position.phase, hp]

end Sys2Proof.Machine
end

