-- ==== Sys2Proof/Laws/Step.lean ====
section
/-! SUPPORT. Everything one step can do, said once: an inversion lemma for `step`, and what each host
access does. -/

namespace Sys2Proof.Machine

/-- A register write changes a cfg register of an idle engine, or only CTRL and STATUS; and STATUS
only loses flags, or gains HOSTVIOL (R26, R30, R31). -/
theorem regWrite_cases (s : State) (o : Nat) (v : Slot) :
    (s.engine = none ∧ ∃ r, s.regWrite o v = { s with cfg := s.cfg.set s.params.width r v }) ∨
      ∃ ie st, s.regWrite o v = { s with ie := ie, status := st } ∧
        (st.done = true → s.status.done = true) ∧ st.err = s.status.err := by
  unfold State.regWrite
  cases Reg.atOffset o with
  | none => exact .inr ⟨s.ie, s.status, rfl, id, rfl⟩
  | some r =>
    simp only
    cases r.access with
    | ro => exact .inr ⟨s.ie, s.status, rfl, id, rfl⟩
    | wo => exact .inr ⟨s.ie, s.status, rfl, id, rfl⟩
    | rw => exact .inr ⟨_, s.status, rfl, id, rfl⟩
    | w1c =>
      refine .inr ⟨s.ie, _, rfl, fun h => ?_, rfl⟩
      simp only [Status.clearWritten, Bool.and_eq_true] at h
      exact h.1
    | cfg =>
      simp only [State.writeCfg]
      split
      · exact .inr ⟨s.ie, _, rfl, id, rfl⟩
      · rename_i h
        exact .inl ⟨(idle_iff s).1 (by simpa using h), r, rfl⟩

/-- An LMEM write of the host changes one limb of an idle engine that exists, or only HOSTVIOL
(R61, R63). -/
theorem lmemWrite_cases (s : State) (a : Nat) (v : Slot) :
    (s.engine = none ∧ a < s.lmemLimbs ∧ s.lmemWrite a v = s.memWrite a 1 v.toNat) ∨
      ∃ st : Status, s.lmemWrite a v = { s with status := st } ∧ st.done = s.status.done ∧
        st.err = s.status.err := by
  unfold State.lmemWrite
  split
  · exact .inr ⟨_, rfl, rfl, rfl⟩
  · rename_i h
    split
    · rename_i ha
      exact .inl ⟨(idle_iff s).1 (by simpa using h), ha, rfl⟩
    · exact .inr ⟨s.status, rfl, rfl, rfl⟩

/-- An LMEM read of the host changes what it has read and HOSTVIOL (R61, R63). -/
theorem lmemRead_cases (s : State) (a : Nat) :
    ∃ (st : Status) (d : Slot), s.lmemRead a = { s with status := st, readData := some d } ∧
      st.done = s.status.done ∧ st.err = s.status.err := by
  unfold State.lmemRead
  split
  · exact ⟨_, _, rfl, rfl, rfl⟩
  · split <;> exact ⟨s.status, _, rfl, rfl, rfl⟩

/-- The bytes a window write stores lie in LMEM. -/
theorem windowBytes_le (s : State) (a n v : Nat) (h : a < s.lmemBytes) :
    a + ((bytesOf n v).take (s.lmemBytes - a)).length ≤ s.lmemBytes := by
  rw [List.length_take]
  omega

/-- A window write keeps the canonical form of LMEM. -/
theorem windowWrite_wf {s : State} (h : Memory.wf s.lmem) (a n v : Nat) :
    Memory.wf (s.windowWrite a n v).lmem := by
  unfold State.windowWrite
  split
  · exact writeBytes_wf h _ _
  · exact h

/-- A window write changes LMEM alone. -/
theorem windowWrite_frame (s : State) (a n v : Nat) :
    s.windowWrite a n v = { s with lmem := (s.windowWrite a n v).lmem } := by
  unfold State.windowWrite
  split <;> rfl

/-- A window read sees the bytes of LMEM: it is the same where they are. -/
theorem windowRead_congr {s t : State} {a n : Nat}
    (h : ∀ k, a ≤ k → k < a + n → t.byteAt k = s.byteAt k) : t.windowRead a n = s.windowRead a n :=
  congrArg (valOf 8) (bytesAt_congr h)

/-- What a window write does to every byte: those of the access that lie in LMEM take the value written,
the rest is as before (R62). -/
theorem byteAt_windowWrite (s : State) (a n v k : Nat) :
    (s.windowWrite a n v).byteAt k =
      if a ≤ k ∧ k < a + n ∧ k < s.lmemBytes then BitVec.ofNat 8 (v / 2 ^ (8 * (k - a)))
      else s.byteAt k := by
  unfold State.windowWrite
  split
  · rename_i ha
    simp only [State.byteAt, read?_writeBytes, List.length_take, bytesOf_length]
    by_cases hk : a ≤ k ∧ k < a + n ∧ k < s.lmemBytes
    · rw [if_pos hk, if_pos (by omega), List.getElem?_take_of_lt (by omega),
        bytesOf_getElem? n v (k - a) (by omega)]
      rfl
    · rw [if_neg hk, if_neg (by omega)]
  · rw [if_neg (by omega)]

/-- A window read of the host changes what it has read and HOSTVIOL (R62, R63). -/
theorem windowLoad_cases (s : State) (k : WindowWidth) (a : Nat) :
    ∃ (st : Status) (d : Slot), s.windowLoad k a = { s with status := st, readData := some d } ∧
      st.done = s.status.done ∧ st.err = s.status.err := by
  unfold State.windowLoad
  split
  · exact ⟨_, _, rfl, rfl, rfl⟩
  · exact ⟨s.status, _, rfl, rfl, rfl⟩

/-- A window write of the host changes bytes of LMEM of an idle engine, or only HOSTVIOL (R62, R63). -/
theorem windowStore_cases (s : State) (k : WindowWidth) (a : Nat) (v : Slot) :
    (s.engine = none ∧ ∃ bs : List Byte, a + bs.length ≤ s.lmemBytes ∧
        s.windowStore k a v = { s with lmem := Memory.writeBytes s.lmem a bs }) ∨
      ∃ st : Status, s.windowStore k a v = { s with status := st } ∧ st.done = s.status.done ∧
        st.err = s.status.err := by
  unfold State.windowStore
  split
  · exact .inr ⟨_, rfl, rfl, rfl⟩
  · rename_i h
    unfold State.windowWrite
    split
    · rename_i ha
      exact .inl ⟨(idle_iff s).1 (by simpa using h), _, windowBytes_le s a _ _ ha, rfl⟩
    · exact .inr ⟨s.status, rfl, rfl, rfl⟩

/-- One more turn of a WAIT loop changes only what the host has read: it is the read of STATUS if the
last read showed BUSY = 1, and otherwise nothing (R87). -/
theorem pollStatus_cases (s : State) :
    (s.sawBusy = true ∧ s.pollStatus = s.regRead 0x18) ∨ (s.sawBusy = false ∧ s.pollStatus = s) := by
  unfold State.pollStatus
  cases s.sawBusy
  · exact .inr ⟨rfl, rfl⟩
  · exact .inl ⟨rfl, rfl⟩

/-- A write of what the last read returned is nothing, or the register-port write of that value
(R95). -/
theorem writeBack_cases (s : State) (o : Nat) :
    (s.readData = none ∧ s.writeBack o = .next s) ∨
      ∃ v, s.readData = some v ∧ s.writeBack o = s.portWrite o v := by
  unfold State.writeBack
  cases s.readData with
  | none => exact .inl ⟨rfl, rfl⟩
  | some v => exact .inr ⟨v, rfl, rfl⟩

/-- What one step can do to the state `u` it leaves when it has taken the event `ev` (none when the host is
quiet) from the schedule. -/
inductive StepOf (ev : Option Event) (u : State) : State → Prop where
  /-- A host access that touches no cfg register and no limb. -/
  | flags (ie : Bool) (st : Status) (rd : Option Slot)
      (hd : st.done = true → u.status.done = true) (he : st.err = u.status.err) :
      StepOf ev u { u with ie := ie, status := st, readData := rd }
  /-- A cfg register of an idle engine is written. -/
  | cfg (h : u.engine = none) (r : Reg) (v : Slot) :
      StepOf ev u { u with cfg := u.cfg.set u.params.width r v }
  /-- A limb is written by the host while the engine is idle. -/
  | store (h : u.engine = none) (a : Nat) (ha : a < u.lmemLimbs) (v : Nat) :
      StepOf ev u (u.memWrite a 1 v)
  /-- Bytes of LMEM are written by the host, through the window, while the engine is idle. -/
  | storeBytes (h : u.engine = none) (a : Nat) (bs : List Byte) (ha : a + bs.length ≤ u.lmemBytes) :
      StepOf ev u { u with lmem := Memory.writeBytes u.lmem a bs }
  /-- A command is accepted. -/
  | accept (h : u.engine = none) (i : Instr) (hc : checkOperands i u = .none) :
      StepOf ev u (u.beginCommand.accept i)
  /-- A command word is rejected. -/
  | reject (h : u.engine = none) (code : ErrCode) (hc : code ≠ .none) :
      StepOf ev u (u.beginCommand.raiseCmdError code)
  /-- The running command completes. -/
  | complete (e : Engine) (h : u.engine = some e) (hr : rangeViolation e.op u = false) :
      StepOf ev u (effectOf e.op u).endCommand
  /-- The controller moves. -/
  | move (e : Engine) (h : u.engine = some e) : StepOf ev u { u with engine := some (u.moveEngine e) }
  /-- RST. -/
  | rst (h : ev = some .rst) : StepOf ev u u.assertRst
  /-- Power-on. -/
  | powerOn (h : ev = some .powerOn) : StepOf ev u u.powerCycle

/-- Nothing changes. -/
theorem StepOf_refl (ev : Option Event) (u : State) : StepOf ev u u := .flags u.ie u.status u.readData id rfl

/-- A command given to an idle engine. -/
theorem StepOf_exec_idle {ev : Option Event} {u t : State} {i : Instr} (h : u.engine = none) (ht : exec i u = .next t) :
    StepOf ev u t := by
  rw [exec_idle ((idle_iff u).2 h)] at ht
  obtain rfl := Host.Outcome.next.inj ht
  rcases issue_cases u i with ⟨hc, he⟩ | ⟨hc, he⟩
  · rw [he]; exact .accept h i hc
  · rw [he]; exact .reject h _ hc

/-- The running command's completion. -/
theorem StepOf_exec_busy {ev : Option Event} {u t : State} {e : Engine} (h : u.engine = some e)
    (ht : exec e.op u = .next t) : StepOf ev u t := by
  rw [exec_busy ((busy_iff u).2 ⟨e, h⟩)] at ht
  obtain ⟨hr, rfl⟩ := completeWith_next.1 ht
  exact .complete e h hr

theorem StepOf_completeEngine {ev : Option Event} {u t : State} (ht : u.completeEngine = .next t) : StepOf ev u t := by
  unfold State.completeEngine at ht
  split at ht
  · obtain rfl := Host.Outcome.next.inj ht
    exact StepOf_refl ev u
  · rename_i e he
    exact StepOf_exec_busy he ht

/-- A host write to the register port, CMD included. -/
theorem StepOf_portWrite {ev : Option Event} {u t : State} {o : Nat} {v : Slot}
    (ht : u.portWrite o v = .next t) : StepOf ev u t := by
  unfold State.portWrite at ht
  split at ht
  · unfold State.cmdWrite at ht
    split at ht
    · obtain rfl := Host.Outcome.next.inj ht
      exact .flags u.ie { u.status with overrun := true } u.readData id rfl
    · rename_i hb
      have hn := (idle_iff u).1 (by simpa using hb)
      split at ht
      · obtain rfl := Host.Outcome.next.inj ht
        exact .reject hn .illegalCmd (by decide)
      · exact StepOf_exec_idle hn ht
  · obtain rfl := Host.Outcome.next.inj ht
    rcases regWrite_cases u o v with ⟨hn, r, he⟩ | ⟨ie, st, he, hd, hr⟩
    · rw [he]; exact .cfg hn r v
    · rw [he]; exact .flags ie st u.readData hd hr

theorem StepOf_serve {u t : State} {ev : Event} (ht : u.serve ev = .next t) :
    StepOf (some ev) u t := by
  cases ev with
  | regWrite o v => exact StepOf_portWrite ht
  | windowLoad k a =>
    obtain rfl := Host.Outcome.next.inj ht
    obtain ⟨st, d, he, hd, hr⟩ := windowLoad_cases u k a
    rw [he]; exact .flags u.ie st (some d) (hd ▸ id) hr
  | windowStore k a v =>
    obtain rfl := Host.Outcome.next.inj ht
    rcases windowStore_cases u k a v with ⟨hn, bs, ha, he⟩ | ⟨st, he, hd, hr⟩
    · rw [he]; exact .storeBytes hn a bs ha
    · rw [he]; exact .flags u.ie st u.readData (hd ▸ id) hr
  | pollStatus =>
    obtain rfl := Host.Outcome.next.inj ht
    rcases pollStatus_cases u with ⟨_, he⟩ | ⟨_, he⟩
    · rw [he]; exact .flags u.ie u.status (some (u.portValue 0x18)) id rfl
    · rw [he]; exact StepOf_refl _ u
  | regWriteBack o =>
    change u.writeBack o = .next t at ht
    rcases writeBack_cases u o with ⟨_, he⟩ | ⟨v, _, he⟩
    · rw [he] at ht
      obtain rfl := Host.Outcome.next.inj ht
      exact StepOf_refl _ u
    · rw [he] at ht
      exact StepOf_portWrite ht
  | regRead o =>
    obtain rfl := Host.Outcome.next.inj ht
    exact .flags u.ie u.status (some (u.portValue o)) id rfl
  | lmemWrite a v =>
    obtain rfl := Host.Outcome.next.inj ht
    rcases lmemWrite_cases u a v with ⟨hn, ha, he⟩ | ⟨st, he, hd, hr⟩
    · rw [he]; exact .store hn _ ha _
    · rw [he]; exact .flags u.ie st u.readData (hd ▸ id) hr
  | lmemRead a =>
    obtain rfl := Host.Outcome.next.inj ht
    obtain ⟨st, d, he, hd, hr⟩ := lmemRead_cases u a
    rw [he]; exact .flags u.ie st (some d) (hd ▸ id) hr
  | rst =>
    obtain rfl := Host.Outcome.next.inj ht
    exact .rst rfl
  | powerOn =>
    obtain rfl := Host.Outcome.next.inj ht
    exact .powerOn rfl
  | advance =>
    change u.advanceEngine = .next t at ht
    rcases advanceEngine_cases u with ⟨_, he⟩ | ⟨e, hs, he, _⟩ | ⟨e, hs, he, _⟩
    · rw [he] at ht
      obtain rfl := Host.Outcome.next.inj ht
      exact StepOf_refl _ u
    · rw [he] at ht
      exact StepOf_exec_busy hs ht
    · rw [he] at ht
      obtain rfl := Host.Outcome.next.inj ht
      exact .move e hs
  | complete => exact StepOf_completeEngine ht

/-- Everything a step can do: it takes the next event, if there is one, and does one of the ten things
of `StepOf`; the two resets only on their events. -/
theorem step_cases {s t : State} (h : step s = .next t) :
    StepOf s.bus.head? { s with bus := s.bus.tail } t := by
  cases hb : s.bus with
  | nil =>
    rw [step_quiet hb] at h
    have : ({ s with bus := [] } : State) = s := by cases s; simp_all
    rw [List.tail_nil, this]
    exact StepOf_completeEngine h
  | cons e rest =>
    rw [step_event hb] at h
    exact StepOf_serve h

/-- Drawing intervals leaves the schedule. -/
@[simp] theorem drawSpans_bus (l : List Interval) : ∀ s : State, (s.drawSpans l).bus = s.bus := by
  induction l with
  | nil => intro s; rfl
  | cons x xs ih => intro s; rw [State.drawSpans, ih, drawLimbs_bus]

/-- RST leaves the schedule (log entry 16). -/
@[simp] theorem assertRst_bus (s : State) : s.assertRst.bus = s.bus := by
  unfold State.assertRst
  split
  · rfl
  · exact drawSpans_bus _ s

/-- A step takes one event from the schedule, if there is one, and puts none on it. -/
theorem step_bus {s t : State} (h : step s = .next t) : t.bus = s.bus.tail := by
  have hc := step_cases h
  cases hc with
  | complete e _ _ => exact (effectOf_keeps e.op _).2.2.2.2.2.1
  | rst => exact assertRst_bus _
  | _ => rfl

/-- A run begins with its first step. -/
theorem run_succ {s t : State} (h : step s = .next t) (k : Nat) :
    Host.Core.run Sys2Proof.core (k + 1) s = Host.Core.run Sys2Proof.core k t := by
  have h' : Sys2Proof.core.step s = .next t := h
  simp only [Host.Core.run]
  split <;> rename_i hx <;> rw [h'] at hx <;> cases hx
  rfl

/-- A run of `k` and then `m` steps. -/
theorem run_add {s t : State} {k : Nat} (h : Host.Core.run Sys2Proof.core k s = .next t) (m : Nat) :
    Host.Core.run Sys2Proof.core (k + m) s = Host.Core.run Sys2Proof.core m t := by
  induction k generalizing s with
  | zero =>
    obtain rfl := Host.Outcome.next.inj h
    rw [Nat.zero_add]
  | succ k ih =>
    simp only [Host.Core.run] at h
    split at h
    · rename_i u hu
      rw [Nat.succ_add, run_succ hu]
      exact ih h
    · cases h
    · cases h

end Sys2Proof.Machine
end

