-- ==== Sys2Proof/Laws/Effects.lean ====
section
/-! SUPPORT. What the publishing operations do to LMEM: which limbs they touch, and that they keep the
canonical form (R66, R252). -/

namespace Sys2Proof.Machine

/-- `t` is `s` with bytes of LMEM changed at most in the limbs of `spans`, and with draws counted on. -/
structure Touches (spans : List Interval) (s t : State) : Prop where
  params : t.params = s.params
  cfg : t.cfg = s.cfg
  powerDraw : t.powerDraw = s.powerDraw
  draws : s.draws ≤ t.draws
  wf : Memory.wf s.lmem → Memory.wf t.lmem
  cells : ∀ c ∈ t.lmem, c ∈ s.lmem ∨
    ∃ x ∈ spans, x.base * s.limbBytes ≤ c.1 ∧ c.1 < (x.base + x.len) * s.limbBytes
  kept : ∀ a, (∀ x ∈ spans, x.has (a / s.limbBytes) = false) → t.byteAt a = s.byteAt a

theorem Touches_refl (spans : List Interval) (s : State) : Touches spans s s :=
  ⟨rfl, rfl, rfl, le_refl _, id, fun _ h => .inl h, fun _ _ => rfl⟩

theorem Touches_trans {l : List Interval} {s t u : State} (h1 : Touches l s t)
    (h2 : Touches l t u) : Touches l s u := by
  have hb : t.limbBytes = s.limbBytes := by simp [State.limbBytes, h1.params]
  refine ⟨h2.params.trans h1.params, h2.cfg.trans h1.cfg, h2.powerDraw.trans h1.powerDraw,
    h1.draws.trans h2.draws, h2.wf ∘ h1.wf, fun c hc => ?_, fun a ha => ?_⟩
  · rcases h2.cells c hc with h | h
    · exact h1.cells c h
    · rw [hb] at h; exact .inr h
  · rw [h2.kept a (by rwa [hb]), h1.kept a ha]

theorem Touches_mono {l m : List Interval} {s t : State} (h : Touches l s t)
    (hl : ∀ x ∈ l, ∃ y ∈ m, y.base ≤ x.base ∧ x.base + x.len ≤ y.base + y.len) :
    Touches m s t := by
  refine ⟨h.params, h.cfg, h.powerDraw, h.draws, h.wf, fun c hc => ?_, fun a ha => h.kept a ?_⟩
  · rcases h.cells c hc with h' | ⟨x, hx, h3, h4⟩
    · exact .inl h'
    · obtain ⟨y, hy, h1, h2⟩ := hl x hx
      exact .inr ⟨y, hy, le_trans (Nat.mul_le_mul_right _ h1) h3,
        lt_of_lt_of_le h4 (Nat.mul_le_mul_right _ h2)⟩
  · intro x hx
    obtain ⟨y, hy, h1, h2⟩ := hl x hx
    have h3 := ha y hy
    simp only [Interval.has, Bool.and_eq_false_iff, decide_eq_false_iff_not] at h3 ⊢
    omega

theorem Touches_memWrite (s : State) (a n v : Nat) :
    Touches [{ base := a, len := n }] s (s.memWrite a n v) := by
  refine ⟨rfl, rfl, rfl, le_refl _, fun h => memWrite_wf h a n v, fun c hc => ?_, fun k hk => ?_⟩
  · rw [memWrite_lmem] at hc
    rcases mem_writeBytes hc with h | h
    · exact .inl h
    · right
      refine ⟨_, List.mem_singleton.2 rfl, h.1, ?_⟩
      have e : (a + n) * s.limbBytes = a * s.limbBytes + n * s.limbBytes := by ring
      have h2 := h.2
      rw [bytesOfLimbs_length, limbsOf_length] at h2
      exact e ▸ h2
  · exact byteAt_memWrite_outside s a n v k
      (outside_of_not_has (x := { base := a, len := n }) (hk _ (List.mem_singleton.2 rfl)))

theorem Touches_drawLimbs (s : State) (a n : Nat) :
    Touches [{ base := a, len := n }] s (s.drawLimbs a n) := by
  refine ⟨rfl, rfl, rfl, Nat.le_succ _, fun h => drawLimbs_wf h a n, fun c hc => ?_, fun k hk => ?_⟩
  · rw [drawLimbs_lmem] at hc
    rcases mem_writeBytes hc with h | h
    · exact .inl h
    · right
      refine ⟨_, List.mem_singleton.2 rfl, h.1, ?_⟩
      have e : (a + n) * s.limbBytes = a * s.limbBytes + n * s.limbBytes := by ring
      have h2 := h.2
      rw [drawnBytes_length] at h2
      exact e ▸ h2
  · exact byteAt_drawLimbs_outside s a n k
      (outside_of_not_has (x := { base := a, len := n }) (hk _ (List.mem_singleton.2 rfl)))

/-- What a byte of freshly drawn limbs is (R9). -/
theorem drawnBytes_getElem? (d lo n k : Nat) (h : k < n) :
    (drawnBytes d lo n)[k]? = some (Config.drawn d (lo + k)) := by
  induction n generalizing lo k with
  | zero => omega
  | succ n ih =>
    cases k with
    | zero => rfl
    | succ k =>
      rw [drawnBytes, List.getElem?_cons_succ, ih (lo + 1) k (by omega)]
      congr 2
      ring

/-- A byte of limbs just drawn is a byte of that draw (R9). -/
theorem byteAt_drawLimbs_inside (s : State) (a n k : Nat) (h1 : a * s.limbBytes ≤ k)
    (h2 : k < (a + n) * s.limbBytes) :
    (s.drawLimbs a n).byteAt k = Config.drawn s.draws k := by
  have e : (a + n) * s.limbBytes = a * s.limbBytes + n * s.limbBytes := by ring
  have hd := drawnBytes_getElem? s.draws (a * s.limbBytes) (n * s.limbBytes)
    (k - a * s.limbBytes) (by omega)
  rw [show a * s.limbBytes + (k - a * s.limbBytes) = k by omega] at hd
  simp only [State.byteAt, State.drawLimbs, read?_writeBytes, drawnBytes_length]
  rw [if_pos (by omega), hd]
  rfl

/-- Table entries written from limb `o` on touch just their limbs (R190, R194). -/
theorem Touches_writeEntries (l : List Nat) : ∀ (s : State) (o : Nat),
    Touches [{ base := o, len := l.length * s.r }] s (s.writeEntries o l) := by
  induction l with
  | nil => intro s o; exact Touches_refl _ s
  | cons x xs ih =>
    intro s o
    rw [State.writeEntries]
    have e : (x :: xs).length * s.r = s.r + xs.length * s.r := by rw [List.length_cons]; ring
    have hr : (s.memWrite o s.r x).r = s.r := rfl
    refine Touches_trans (Touches_mono (Touches_memWrite s o s.r x) ?_)
      (Touches_mono (ih (s.memWrite o s.r x) (o + s.r)) ?_)
    · intro y hy
      obtain rfl := List.mem_singleton.1 hy
      exact ⟨_, List.mem_singleton.2 rfl, le_refl _, by simp only [e]; omega⟩
    · intro y hy
      obtain rfl := List.mem_singleton.1 hy
      refine ⟨_, List.mem_singleton.2 rfl, by simp only; omega, ?_⟩
      simp only [e, hr]
      omega

theorem Touches_publishTable (s : State) (l : List Nat) (hl : l.length = 64) :
    Touches [s.outSpan (64 * s.r), s.scrSpan (4 * s.r)] s (s.publishTable l) := by
  have h1 := Touches_writeEntries l s s.cfg.addrOut.toNat
  rw [hl] at h1
  unfold State.publishTable
  refine Touches_trans (Touches_mono h1 ?_)
    (Touches_mono (Touches_drawLimbs (s.writeEntries s.cfg.addrOut.toNat l) s.cfg.addrScr.toNat
      (4 * s.r)) ?_)
  · intro y hy
    obtain rfl := List.mem_singleton.1 hy
    exact ⟨s.outSpan (64 * s.r), by simp, le_refl _, le_refl _⟩
  · intro y hy
    obtain rfl := List.mem_singleton.1 hy
    exact ⟨s.scrSpan (4 * s.r), by simp, le_refl _, le_refl _⟩

/-- A draw and then a write of the output. -/
theorem Touches_draw_write (s : State) (a n o m v : Nat) :
    Touches [{ base := o, len := m }, { base := a, len := n }] s
      ((s.drawLimbs a n).memWrite o m v) := by
  refine Touches_trans (Touches_mono (Touches_drawLimbs s a n) ?_)
    (Touches_mono (Touches_memWrite (s.drawLimbs a n) o m v) ?_) <;>
  · intro y hy
    obtain rfl := List.mem_singleton.1 hy
    exact ⟨_, by simp, le_refl _, le_refl _⟩

theorem tableFrom_length (w n nq r a : Nat) (k x : Nat) :
    (tableFrom w n nq r a k x).length = k := by
  induction k generalizing x with
  | zero => rfl
  | succ k ih => rw [tableFrom, List.length_cons, ih]

theorem buildTable_length (w n nq r a : Nat) : (buildTable w n nq r a).length = 64 := by
  rw [buildTable, List.length_cons, tableFrom_length]

/-- A command's effect touches only its written intervals (R66). -/
theorem Touches_effectOf (i : Instr) (s : State) : Touches (writtenSpans i s) s (effectOf i s) := by
  cases i with
  | inv1 => exact ⟨rfl, rfl, rfl, le_refl _, id, fun _ h => .inl h, fun _ _ => rfl⟩
  | redc => exact Touches_draw_write s _ _ _ _ _
  | mul => exact Touches_draw_write s _ _ _ _ _
  | sqr => exact Touches_draw_write s _ _ _ _ _
  | build => exact Touches_publishTable s (buildResult s) (buildTable_length _ _ _ _ _)
  | modpow => exact Touches_draw_write s _ _ _ _ _

/-- Drawing intervals touches only them (R252). -/
theorem Touches_drawSpans (l : List Interval) (s : State) : Touches l s (s.drawSpans l) := by
  induction l generalizing s with
  | nil => exact Touches_refl _ s
  | cons x xs ih =>
    rw [State.drawSpans]
    refine Touches_trans (Touches_mono (Touches_drawLimbs s x.base (s.clipLen x)) ?_)
      (Touches_mono (ih (s.drawLimbs x.base (s.clipLen x))) ?_)
    · intro y hy
      obtain rfl := List.mem_singleton.1 hy
      have hc : s.clipLen x ≤ x.len := Nat.min_le_left ..
      exact ⟨x, by simp, le_refl _, by simp only; omega⟩
    · intro y hy
      exact ⟨y, by simp [hy], le_refl _, le_refl _⟩

/-- Drawing intervals, each clipped to LMEM, lists no byte outside LMEM (R37). -/
theorem drawSpans_in_lmem (l : List Interval) (s : State)
    (h : ∀ c ∈ s.lmem, c.1 < s.lmemLimbs * s.limbBytes) :
    ∀ c ∈ (s.drawSpans l).lmem, c.1 < s.lmemLimbs * s.limbBytes := by
  induction l generalizing s with
  | nil => exact h
  | cons x xs ih =>
    rw [State.drawSpans]
    refine ih (s.drawLimbs x.base (s.clipLen x)) (fun c hc => ?_)
    rcases (Touches_drawLimbs s x.base (s.clipLen x)).cells c hc with h' | ⟨y, hy, h1, h2⟩
    · exact h c h'
    · obtain rfl := List.mem_singleton.1 hy
      simp only at h1 h2
      have hc : s.clipLen x ≤ s.lmemLimbs - x.base := Nat.min_le_right ..
      change c.1 < s.lmemLimbs * s.limbBytes
      by_cases hz : s.clipLen x = 0
      · rw [hz, Nat.add_zero] at h2; omega
      · exact lt_of_lt_of_le h2 (Nat.mul_le_mul_right _ (by omega))

/-- The written intervals of a command whose buffers are in LMEM are in LMEM (R104). -/
theorem writtenSpans_in_lmem {i : Instr} {s : State} (h : rangeViolation i s = false) :
    ∀ x ∈ writtenSpans i s, x.len = 0 ∨ x.base + x.len ≤ s.lmemLimbs := by
  intro x hx
  unfold writtenSpans at hx
  obtain ⟨b, hb, rfl⟩ := List.mem_map.1 hx
  have hb := (List.mem_filter.1 hb).1
  unfold rangeViolation at h
  have := List.any_eq_false.1 h b hb
  simp only [Interval.outside, Bool.and_eq_true, decide_eq_true_eq, not_and, not_lt] at this
  by_cases hz : b.span.len = 0
  · exact .inl hz
  · exact .inr (this (by omega))

end Sys2Proof.Machine
end

