-- ==== Sys2Proof/Laws/Algorithms.lean ====
section
/-! SUPPORT. Bounds of the integer algorithms (R151, R170, R191, R201), and reading back what the
publishing operations write (R150, R171, R190, R201). -/

namespace Sys2Proof.Machine

theorem subMod_lt (x y m : Nat) (h : 0 < m) : subMod x y m < m := by
  unfold subMod
  have h1 := Int.emod_nonneg ((x : Int) - (y : Int)) (by omega : (m : Int) ≠ 0)
  have h2 := Int.emod_lt_of_pos ((x : Int) - (y : Int)) (by omega : (0 : Int) < (m : Int))
  omega

/-- The working area stays below R^2 (R151). -/
theorem redcSweep_lt (w n nq r t k : Nat) (ht : t < 2 ^ (2 * r * w)) :
    (redcSweep w n nq r t k).1 < 2 ^ (2 * r * w) := by
  cases k with
  | zero => exact ht
  | succ k => exact Nat.mod_lt _ (by positivity)

/-- Redc of a value below R^2 is below R (R153). -/
theorem redc_lt (w t n nq r : Nat) (ht : t < 2 ^ (2 * r * w)) : redc w t n nq r < 2 ^ (r * w) := by
  unfold redc
  simp only
  split
  · exact subMod_lt _ _ _ (by positivity)
  · rw [Nat.div_lt_iff_lt_mul (by positivity), ← pow_add, show r * w + r * w = 2 * r * w by ring]
    exact redcSweep_lt w n nq r t r ht

/-- MontMul of values below R is below R (R170). -/
theorem montMul_lt (w n nq r x y : Nat) (hx : x < 2 ^ (r * w)) (hy : y < 2 ^ (r * w)) :
    montMul w n nq r x y < 2 ^ (r * w) := by
  refine redc_lt w _ n nq r ?_
  rw [show 2 * r * w = r * w + r * w by ring, pow_add]
  exact Nat.mul_lt_mul'' hx hy

theorem squarings_lt (w n nq r k x : Nat) (h : x < 2 ^ (r * w)) :
    squarings w n nq r k x < 2 ^ (r * w) := by
  induction k generalizing x with
  | zero => exact h
  | succ k ih => exact ih _ (montMul_lt _ _ _ _ _ _ h h)

theorem tableFrom_lt (w n nq r a : Nat) (ha : a < 2 ^ (r * w)) (k x : Nat) (h : x < 2 ^ (r * w)) :
    ∀ y ∈ tableFrom w n nq r a k x, y < 2 ^ (r * w) := by
  induction k generalizing x with
  | zero => intro y hy; cases hy
  | succ k ih =>
    intro y hy
    rcases List.mem_cons.1 hy with rfl | hy
    · exact h
    · exact ih _ (montMul_lt _ _ _ _ _ _ ha h) y hy

/-- The table's entries are below R (R191). -/
theorem buildTable_lt (w n nq r a : Nat) (hr : 0 < r * w) (ha : a < 2 ^ (r * w)) :
    ∀ y ∈ buildTable w n nq r a, y < 2 ^ (r * w) := by
  intro y hy
  rcases List.mem_cons.1 hy with rfl | hy
  · exact Nat.one_lt_two_pow (by omega)
  · exact tableFrom_lt w n nq r a ha _ _ ha y hy

theorem getD_lt (l : List Nat) (b : Nat) (hb : 0 < b) (h : ∀ y ∈ l, y < b) (i : Nat) :
    l.getD i 0 < b := by
  rw [List.getD_eq_getElem?_getD]
  cases hh : l[i]? with
  | none => simpa using hb
  | some x => simpa using h x (List.mem_of_getElem? hh)

/-- The accumulator stays below R (R201). -/
theorem powBlocks_lt (w n nq r : Nat) (tbl : List Nat) (ht : ∀ y ∈ tbl, y < 2 ^ (r * w))
    (l : List Nat) (acc : Nat) (h : acc < 2 ^ (r * w)) :
    powBlocks w n nq r tbl l acc < 2 ^ (r * w) := by
  induction l generalizing acc with
  | nil => exact h
  | cons x l ih =>
    refine ih _ ?_
    unfold powBlock
    simp only
    split
    · exact squarings_lt _ _ _ _ _ _ h
    · exact montMul_lt _ _ _ _ _ _ (squarings_lt _ _ _ _ _ _ h)
        (getD_lt _ _ (by positivity) ht _)

/-- Entry e + 1 of a table run is MontMul of A and entry e (R191). -/
theorem tableFrom_getD_succ (w n nq r a k x e : Nat) (h : e + 1 < k) :
    (tableFrom w n nq r a k x).getD (e + 1) 0 =
      montMul w n nq r a ((tableFrom w n nq r a k x).getD e 0) := by
  induction k generalizing x e with
  | zero => omega
  | succ k ih =>
    cases e with
    | zero =>
      cases k with
      | zero => omega
      | succ k => rfl
    | succ e =>
      rw [tableFrom, List.getD_cons_succ, List.getD_cons_succ, ih _ e (by omega)]

/-- Entries 2 and up of the table (R191). -/
theorem buildTable_getD_succ (w n nq r a e : Nat) (h1 : 1 ≤ e) (h2 : e + 1 < 64) :
    (buildTable w n nq r a).getD (e + 1) 0 =
      montMul w n nq r a ((buildTable w n nq r a).getD e 0) := by
  obtain ⟨e, rfl⟩ : ∃ d, e = d + 1 := ⟨e - 1, by omega⟩
  rw [buildTable, List.getD_cons_succ, List.getD_cons_succ,
    tableFrom_getD_succ _ _ _ _ _ _ _ _ (by omega)]

/-- Every entry written is read back (R190, R194). -/
theorem memRead_writeEntries (l : List Nat) : ∀ (s : State) (o e : Nat), e < l.length →
    (∀ x ∈ l, x < 2 ^ (s.r * s.limbBits)) →
    (s.writeEntries o l).memRead (o + e * s.r) s.r = l.getD e 0 := by
  induction l with
  | nil => intro s o e h; simp at h
  | cons x xs ih =>
    intro s o e h hl
    rw [State.writeEntries]
    have T := Touches_writeEntries xs (s.memWrite o s.r x) (o + s.r)
    cases e with
    | zero =>
      rw [Nat.zero_mul, Nat.add_zero, List.getD_cons_zero]
      have h1 : ((s.memWrite o s.r x).writeEntries (o + s.r) xs).memRead o s.r =
          (s.memWrite o s.r x).memRead o s.r := by
        refine memRead_congr T.params (fun k h1 h2 => T.kept k ?_)
        intro y hy
        obtain rfl := List.mem_singleton.1 hy
        have h3 : k / (s.memWrite o s.r x).limbBytes < o + s.r :=
          (Nat.div_lt_iff_lt_mul (limbBytes_pos _)).2 h2
        simp only [Interval.has, Bool.and_eq_false_iff, decide_eq_false_iff_not]
        omega
      rw [h1, memRead_memWrite, Nat.mod_eq_of_lt (hl x (List.mem_cons_self ..))]
    | succ e =>
      have h2 := ih (s.memWrite o s.r x) (o + s.r) e (by simpa using h)
        (fun y hy => hl y (List.mem_cons_of_mem _ hy))
      rw [List.getD_cons_succ, ← h2]
      have hr : (s.memWrite o s.r x).r = s.r := rfl
      rw [hr, show o + (e + 1) * s.r = o + s.r + e * s.r by ring]

/-- Intervals that do not overlap: one is empty, or one ends before the other begins (R10). -/
theorem disjoint_of_not_overlaps {x y : Interval} (h : x.overlaps y = false) :
    x.len = 0 ∨ y.len = 0 ∨ x.base + x.len ≤ y.base ∨ y.base + y.len ≤ x.base := by
  simp [Interval.overlaps] at h
  omega

/-- Ending a command changes no byte (R108). -/
theorem byteAt_endCommand (s : State) (a : Nat) : s.endCommand.byteAt a = s.byteAt a := rfl

/-- What is touched before a command ends is touched after (R108). -/
theorem Touches_endCommand {l : List Interval} {s t : State} (h : Touches l s t) :
    Touches l s t.endCommand :=
  ⟨h.params, h.cfg, h.powerDraw, h.draws, h.wf, h.cells, fun a ha =>
    (byteAt_endCommand t a).trans (h.kept a ha)⟩

/-- Ending a command changes no limb (R108). -/
theorem memRead_endCommand (s : State) (a n : Nat) : s.endCommand.memRead a n = s.memRead a n :=
  memRead_congr rfl (fun k _ _ => byteAt_endCommand s k)

/-- Draw the scratch, then write the output: the output reads as written (R150, R171, R201). -/
theorem memRead_draw_write (s : State) (a n o m v : Nat) (hv : v < 2 ^ (m * s.limbBits)) :
    ((s.drawLimbs a n).memWrite o m v).memRead o m = v := by
  rw [memRead_memWrite, drawLimbs_limbBits, Nat.mod_eq_of_lt hv]

/-- A byte of limbs just drawn, said with the interval. -/
theorem byteAt_drawLimbs_has (s : State) (a n b : Nat)
    (h : ({ base := a, len := n } : Interval).has (b / s.limbBytes) = true) :
    (s.drawLimbs a n).byteAt b = Config.drawn s.draws b := by
  simp only [Interval.has, Bool.and_eq_true, decide_eq_true_eq] at h
  exact byteAt_drawLimbs_inside s a n b ((Nat.le_div_iff_mul_le (limbBytes_pos s)).1 h.1)
    ((Nat.div_lt_iff_lt_mul (limbBytes_pos s)).1 h.2)

/-- A byte that lies in LMEM and in one of the intervals drawn is a byte of some fresh draw (R252). -/
theorem byteAt_drawSpans_has (l : List Interval) : ∀ (s : State) (x : Interval), x ∈ l →
    ∀ b, b / s.limbBytes < s.lmemLimbs → x.has (b / s.limbBytes) = true →
      ∃ d, s.draws ≤ d ∧ (s.drawSpans l).byteAt b = Config.drawn d b := by
  induction l with
  | nil => intro s x hx; cases hx
  | cons y l ih =>
    intro s x hx b hl hb
    rw [State.drawSpans]
    by_cases hm : ∃ z ∈ l, z.has (b / s.limbBytes) = true
    · obtain ⟨z, hz, h2⟩ := hm
      obtain ⟨d, hd, he⟩ := ih (s.drawLimbs y.base (s.clipLen y)) z hz b hl h2
      exact ⟨d, by rw [drawLimbs_draws] at hd; omega, he⟩
    · rcases List.mem_cons.1 hx with rfl | hx
      · refine ⟨s.draws, le_refl _, ?_⟩
        rw [(Touches_drawSpans l (s.drawLimbs x.base (s.clipLen x))).kept b (by
          intro z hz
          by_contra hc
          exact hm ⟨z, hz, by simpa using hc⟩)]
        refine byteAt_drawLimbs_has s _ _ b ?_
        simp only [Interval.has, Bool.and_eq_true, decide_eq_true_eq] at hb ⊢
        simp only [State.clipLen]
        omega
      · exact absurd ⟨x, hx, hb⟩ hm

end Sys2Proof.Machine
end

