-- ==== Sys2Proof/Laws/Datapath.lean ====
section
/-! SUPPORT. Lengths and bounds of what the datapath gives, one lemma per function (R120 to R127, R141,
R151). -/

namespace Sys2Proof.Machine

/-- The carry chain keeps the number of limbs and gives limbs below 2 ^ W (R127). -/
theorem carryChain_ok (w : Nat) (t : List Nat) (cy : Nat) :
   (carryChain w t cy).1.length = t.length ∧ ∀ x ∈ (carryChain w t cy).1, x < 2 ^ w := by
  induction t generalizing cy with
  | nil => simp [carryChain]
  | cons a t ih =>
    have := ih (addC w a cy 0).1
    simp only [carryChain, List.length_cons, this.1, true_and]
    intro x hx
    rcases List.mem_cons.1 hx with rfl | h
    · exact Nat.mod_lt _ (by positivity)
    · exact this.2 x h

/-- The first loop of AddMulShift keeps the number of limbs and gives limbs below 2 ^ W (R127). -/
theorem addMulRow_ok (w m : Nat) (t n : List Nat) (cy : Nat) (h : ∀ x ∈ t, x < 2 ^ w) :
   (addMulRow w m t n cy).1.length + (addMulRow w m t n cy).2.1.length = t.length ∧
      (∀ x ∈ (addMulRow w m t n cy).1, x < 2 ^ w) ∧
      ∀ x ∈ (addMulRow w m t n cy).2.1, x < 2 ^ w := by
  induction t generalizing n cy with
  | nil => cases n <;> simp [addMulRow]
  | cons a t ih =>
    cases n with
    | nil => simpa [addMulRow] using h
    | cons b n =>
      have := ih n (mulAddC w m b a cy).1 (fun x hx => h x (List.mem_cons_of_mem _ hx))
      simp only [addMulRow, List.length_cons]
      refine ⟨by omega, ?_, this.2.2⟩
      intro x hx
      rcases List.mem_cons.1 hx with rfl | h
      · exact Nat.mod_lt _ (by positivity)
      · exact this.2.1 x h

/-- AddMulShift keeps the number of limbs and gives limbs below 2 ^ W (R127). -/
theorem addMulShift_ok (w i m : Nat) (t n : List Nat) (h : ∀ x ∈ t, x < 2 ^ w) :
   (addMulShift w t i m n).2.length = t.length ∧
      ∀ x ∈ (addMulShift w t i m n).2, x < 2 ^ w := by
  have hr := addMulRow_ok w m (t.drop i) n 0 (fun x hx => h x (List.mem_of_mem_drop hx))
  have hc := carryChain_ok w (addMulRow w m (t.drop i) n 0).2.1 (addMulRow w m (t.drop i) n 0).2.2
  simp only [addMulShift, List.length_append, List.length_take]
  rw [List.length_drop] at hr
  refine ⟨by omega, ?_⟩
  intro x hx
  rcases List.mem_append.1 hx with hx | hx
  · rcases List.mem_append.1 hx with hx | hx
    · exact h x (List.mem_of_mem_take hx)
    · exact hr.2.1 x hx
  · exact hc.2 x hx

/-- The borrow chain gives as many limbs, each below 2 ^ W (R124). -/
theorem subChain_ok (w : Nat) (x y : List Nat) (b : Nat) (hl : x.length = y.length) :
  (subChain w x y b).length = x.length ∧ ∀ d ∈ subChain w x y b, d < 2 ^ w := by
  induction x generalizing y b with
  | nil => simp [subChain]
  | cons a x ih =>
    cases y with
    | nil => simp at hl
    | cons c y =>
      have := ih y (subB w a c b).1 (by simpa using hl)
      simp only [subChain, List.length_cons, this.1, true_and]
      intro d hd
      rcases List.mem_cons.1 hd with rfl | h
      · simp only [subB, subMod]
        have : (0:Int) < ((2 ^ w : Nat) : Int) := by positivity
        have h1 := Int.emod_nonneg ((a:Int) - ((c + b : Nat) : Int))
          (by omega : ((2 ^ w : Nat):Int) ≠ 0)
        have h2 := Int.emod_lt_of_pos ((a:Int) - ((c + b : Nat) : Int)) this
        omega
      · exact this.2 d h

/-- What REDC_FIX gives is below R (R151). -/
theorem redcFixLimbs_lt (w r : Nat) (n t : List Nat) (c : Bool) (hn : n.length = r)
    (ht : t.length = 2 * r) (h : ∀ x ∈ t, x < 2 ^ w) :
    valOf w (redcFixLimbs w r n (t,c)) < 2 ^ (r * w) := by
  have hd : (t.drop r).length = r := by rw [List.length_drop]; omega
  unfold redcFixLimbs
  simp only
  split
  · have := subChain_ok w (t.drop r) n 0 (by omega)
    have h2 := valOf_lt this.2
    rw [this.1, hd] at h2
    exact h2
  · have h2 := valOf_lt (w := w) (l := t.drop r) (fun x hx => h x (List.mem_of_mem_drop hx))
    rwa [hd] at h2

/-- The sweep keeps the working area 2r limbs below 2 ^ W (R151). -/
theorem redcLimbSweep_ok (w nq : Nat) (n t : List Nat) (k : Nat) (h : ∀ x ∈ t, x < 2 ^ w) :
  (redcLimbSweep w nq n t k).1.length = t.length ∧
    ∀ x ∈ (redcLimbSweep w nq n t k).1, x < 2 ^ w := by
  induction k with
  | zero => exact ⟨rfl, h⟩
  | succ k ih =>
    simp only [redcLimbSweep, redcDigitStep]
    have := addMulShift_ok w k (redcDigit w nq k (redcLimbSweep w nq n t k).1)
      (redcLimbSweep w nq n t k).1 n ih.2
    exact ⟨this.1.trans ih.1, this.2⟩

/-- Redc on limbs gives a value below R (R151). -/
theorem redcLimbs_lt (w nq r : Nat) (n t : List Nat) (hn : n.length = r)
    (ht : t.length = 2 * r) (h : ∀ x ∈ t, x < 2 ^ w) :
   valOf w (redcLimbs w nq r n t) < 2 ^ (r * w) := by
  have := redcLimbSweep_ok w nq n t r h
  unfold redcLimbs
  exact redcFixLimbs_lt w r n _ _ hn (this.1.trans ht) this.2

/-- A MontMul of the controller is below R (R170). -/
theorem engineMul_lt (s : State) (x y : Nat) : s.engineMul x y < 2 ^ (s.r * s.limbBits) :=
  redcLimbs_lt _ _ _ _ _ (by simp [State.nLimbs]) (by simp [fullMul]) (limbsOf_lt _ _ _)
/-- A MontSqr of the controller is below R (R170). -/
theorem engineSqr_lt (s : State) (x : Nat) : s.engineSqr x < 2 ^ (s.r * s.limbBits) :=
  redcLimbs_lt _ _ _ _ _ (by simp [State.nLimbs]) (by simp [square]) (limbsOf_lt _ _ _)

/-- A pass of Inv1 keeps y below 2 ^ W (R141). -/
theorem inv1Bit_lt (w x y b : Nat) (hb : b < w) (hy : y < 2 ^ w) : inv1Bit w x y b < 2 ^ w := by
  unfold inv1Bit
  split
  · apply Nat.or_lt_two_pow hy
    rw [Nat.one_shiftLeft]
    exact Nat.pow_lt_pow_right (by omega) hb
  · exact hy

/-- The partial inverse is below 2 ^ W (R141). -/
theorem inv1Upto_lt (w x k : Nat) (hk : k < w) : inv1Upto w x k < 2 ^ w := by
  induction k with
  | zero => exact Nat.one_lt_two_pow (by omega)
  | succ k ih => exact inv1Bit_lt _ _ _ _ hk (ih (by omega))

end Sys2Proof.Machine
end

