-- ==== Sys2Proof/Laws/Operands.lean ====
section
/-! SUPPORT. What the operands, the controller and the results depend on: the parameters, the cfg
registers and the bytes of LMEM, and nothing else of the state (R32, R108). -/

namespace Sys2Proof.Machine

/-- Two states that hold the same operands: parameters, cfg registers and LMEM. -/
structure SameOperands (s u : State) : Prop where
  params : u.params = s.params
  cfg : u.cfg = s.cfg
  lmem : u.lmem = s.lmem
  powerDraw : u.powerDraw = s.powerDraw

section
variable {s u : State} (h : SameOperands s u)
include h

theorem byteAt_same (a : Nat) : u.byteAt a = s.byteAt a := by
  simp only [State.byteAt, h.lmem, h.powerDraw]

theorem limbBits_same : u.limbBits = s.limbBits := by simp only [State.limbBits, h.params]

theorem limbs_same (a n : Nat) : u.limbs a n = s.limbs a n :=
  limbs_congr h.params (fun k _ _ => byteAt_same h k)

theorem limb_same (a : Nat) : u.limb a = s.limb a := by
  have h1 := limbs_same h a 1
  simpa [State.limbs] using h1

theorem memRead_same (a n : Nat) : u.memRead a n = s.memRead a n :=
  memRead_congr h.params (fun k _ _ => byteAt_same h k)

theorem r_same : u.r = s.r := by simp only [State.r, h.cfg]

theorem nq_same : u.nq = s.nq := by simp only [State.nq, h.cfg]

theorem blocks_same : u.blocks = s.blocks := by simp only [State.blocks, State.expLen, h.cfg]

theorem ebit_same (p : Nat) : u.ebit p = s.ebit p := by
  have e : u.expLen = s.expLen := by simp only [State.expLen, h.cfg]
  rw [State.ebit, State.ebit, e, h.cfg, limbBits_same h, limb_same h]

theorem window_same (j : Nat) : u.window j = s.window j := by
  have e : ∀ k p, u.ebits p k = s.ebits p k := by
    intro k
    induction k with
    | zero => intro p; rfl
    | succ k ih => intro p; rw [State.ebits, State.ebits, ebit_same h, ih]
  exact e _ _

theorem windowsBelow_same (k : Nat) : u.windowsBelow k = s.windowsBelow k := by
  induction k with
  | zero => rfl
  | succ k ih => rw [State.windowsBelow, State.windowsBelow, window_same h, ih]

/-- The results a command owes (R108, R110). -/
theorem resultsOf_same (i : Instr) : resultsOf u i = resultsOf s i := by
  cases i with
  | inv1 => simp only [resultsOf, State.invArg, h.cfg, limbBits_same h]
  | redc => simp only [resultsOf, redcResult, State.nVal, h.cfg, limbBits_same h, r_same h, nq_same h,
      memRead_same h]
  | mul => simp only [resultsOf, mulResult, State.nVal, State.aVal, State.bVal, h.cfg, limbBits_same h,
      r_same h, nq_same h, memRead_same h]
  | sqr => simp only [resultsOf, sqrResult, State.nVal, State.aVal, h.cfg, limbBits_same h, r_same h,
      nq_same h, memRead_same h]
  | build =>
    show buildResult u = buildResult s
    unfold buildResult State.nVal State.aVal
    rw [h.cfg, limbBits_same h, r_same h, nq_same h, memRead_same h, memRead_same h]
  | modpow =>
    have hb : buildResult u = buildResult s := by
      unfold buildResult State.nVal State.aVal
      rw [h.cfg, limbBits_same h, r_same h, nq_same h, memRead_same h, memRead_same h]
    simp only [resultsOf, modpowResult, State.nVal, State.accVal, h.cfg, limbBits_same h, r_same h,
      nq_same h, memRead_same h, windowsBelow_same h, blocks_same h, hb]

theorem enterRedc_same (t : List Nat) : u.enterRedc t = s.enterRedc t := by
  simp only [State.enterRedc, limbBits_same h, nq_same h]

theorem enterBlock_same (es : List Nat) (acc k : Nat) :
    u.enterBlock es acc k = s.enterBlock es acc k := by
  cases k with
  | zero => rfl
  | succ j => simp only [State.enterBlock, window_same h]

/-- Where a command starts (R42). -/
theorem firstPosition_same (i : Instr) : u.firstPosition i = s.firstPosition i := by
  cases i <;> simp only [State.firstPosition, h.cfg, r_same h, limbs_same h, memRead_same h,
    enterRedc_same h]

theorem engineMul_same (x y : Nat) : u.engineMul x y = s.engineMul x y := by
  simp only [State.engineMul, State.nLimbs, h.cfg, limbBits_same h, r_same h, nq_same h, limbs_same h]

theorem engineSqr_same (x : Nat) : u.engineSqr x = s.engineSqr x := by
  simp only [State.engineSqr, State.nLimbs, h.cfg, limbBits_same h, r_same h, nq_same h, limbs_same h]

/-- How the controller moves (R42). -/
theorem movePosition_same (i : Instr) (p : Position) : u.movePosition i p = s.movePosition i p := by
  cases p <;> simp only [State.movePosition, State.nLimbs, State.aLimbs, State.bLimbs, State.invArg,
    h.cfg, limbBits_same h, r_same h, nq_same h, limbs_same h, memRead_same h, blocks_same h,
    enterRedc_same h, enterBlock_same h, engineMul_same h, engineSqr_same h]

theorem moveEngine_same (e : Engine) : u.moveEngine e = s.moveEngine e := by
  rw [State.moveEngine, State.moveEngine, movePosition_same h]

theorem moveEngines_same (k : Nat) (e : Engine) : u.moveEngines k e = s.moveEngines k e := by
  induction k generalizing e with
  | zero => rfl
  | succ k ih =>
    rw [State.moveEngines, State.moveEngines, ih, moveEngine_same h]

end

/-- One more move at the end. -/
theorem moveEngines_succ (s : State) (k : Nat) (e : Engine) :
    s.moveEngines (k + 1) e = s.moveEngine (s.moveEngines k e) := by
  induction k generalizing e with
  | zero => rfl
  | succ k ih =>
    rw [State.moveEngines, ih]
    rfl

/-- A move keeps the opcode (R40). -/
theorem moveEngines_op (s : State) (k : Nat) (e : Engine) : (s.moveEngines k e).op = e.op := by
  induction k generalizing e with
  | zero => rfl
  | succ k ih =>
    rw [State.moveEngines, ih]
    rfl

end Sys2Proof.Machine
end

