-- ==== Sys2Proof/Laws/PerInstr.lean ====
section
/-! SUPPORT. Statements for all commands, one lemma per constructor. -/

namespace Sys2Proof.Laws.Encoded

/-- The full word of a command is its opcode (R81) and is not an illegal word (R82). -/
def Statement (i : Instr) : Prop :=
  (encode i).toNat = i.opcode.toNat ∧ Word32.wellFormed (encode i) = true ∧ i.wellFormed = true

theorem inv1 : Statement .inv1 := by unfold Statement; decide
theorem redc : Statement .redc := by unfold Statement; decide
theorem mul : Statement .mul := by unfold Statement; decide
theorem sqr : Statement .sqr := by unfold Statement; decide
theorem build : Statement .build := by unfold Statement; decide
theorem modpow : Statement .modpow := by unfold Statement; decide

end Sys2Proof.Laws.Encoded
end

