-- ==== Sys2Proof/Tests/Slice0.lean ====
section
/-! SUPPORT. Tests: the words of the commands written out from R80 and R81, single steps with the
expected values of 95_test_vectors.md, and for every statement with hypotheses a state or operands that
meet them all. -/

namespace Sys2Proof.Tests

open Sys2Proof Sys2Proof.Machine

/-! ### Helpers -/

/-- A machine just powered on with some limbs written, and with registers, a running command and a
schedule set. -/
def machine (p : Params) (c : CfgRegs) (limbs : List (Nat × Nat)) (e : Option Engine)
    (bus : List Event) : State :=
  { limbs.foldl (fun s l => s.memWrite l.1 1 l.2) (State.powerOn p) with
    cfg := c
    engine := e
    bus := bus }

/-- W = 32, 256 limbs. -/
def p32 : Params := { width := .w32, lastLimb := 255#32 }

/-- W = 64, 256 limbs. -/
def p64 : Params := { width := .w64, lastLimb := 255#32 }

/-- Command `i`, accepted in state `s`. -/
def running (s : State) (i : Instr) : State :=
  { s with engine := some { op := i, pos := s.firstPosition i } }

/-- The value of n limbs after an outcome; 0 if it is not a next state. -/
def valueAfter (o : Host.Outcome State Fault Refusal) (a n : Nat) : Nat :=
  match o with
  | .next t => t.memRead a n
  | .fault _ => 0
  | .refused _ => 0

/-- STATUS after an outcome; all ones if it is not a next state. -/
def statusAfter (o : Host.Outcome State Fault Refusal) : Word32 :=
  match o with
  | .next t => t.statusWord
  | .fault _ => 0xFFFFFFFF#32
  | .refused _ => 0xFFFFFFFF#32

/-- What the host has read, and IRQ, after an outcome. -/
def readAfter (o : Host.Outcome State Fault Refusal) : Option Slot × Bool :=
  match o with
  | .next t => (t.readData, t.irq)
  | .fault _ => (none, false)
  | .refused _ => (none, false)

/-- r = 1, N = 97, with buffers that pass the checks of all six commands in 256 limbs: n at 0, a at 1,
b at 2, t at 4, the exponent at 6 with L = 7, the output at 100, scratch at 170. -/
def ready : CfgRegs :=
  { rLimbs := 1, nquote0 := 0xA0FD5C5F, addrOut := 100, addrN := 0, addrA := 1, addrB := 2,
    addrT := 4, addrScr := 170, addrExp := 6, expBits := 7, invX := 23 }

/-- The operands of section 2.3 and 2.5: N = 97, A = Mont(3), B = Mont(7), T = 5, E = 65, the
accumulator Mont(1). -/
def operands : List (Nat × Nat) :=
  [(0, 97), (1, 8), (2, 0x33), (4, 5), (5, 0), (6, 0x41), (100, 0x23)]

def idle32 : State := machine p32 ready operands none []

def busy32 (i : Instr) : State := running idle32 i

/-- r = 2, N = 2^64 - 59 (V-REDC-9, V-MUL-6): t at 10, n at 0, a at 12, b at 20, scratch at 32, and the
output over the upper half of t, which is also a. -/
def twoLimb : State :=
  machine p32 { CfgRegs.reset with
      rLimbs := 2, nquote0 := 0xA08AD8F3, addrOut := 12, addrN := 0, addrA := 12, addrB := 20,
      addrT := 10, addrScr := 32 }
    [(0, 0xFFFFFFC5), (1, 0xFFFFFFFF), (10, 0xE10), (11, 0), (12, 0xFFFFFF88), (13, 0xFFFFFFFF),
     (20, 0x3456794C), (21, 0xABCDF012)] none []

/-! ### Well-formedness (R80, R82): an ill-formed term for each check -/

theorem test_word_with_reserved_bit_refused : Word32.rsvIsZero 0x00000013#32 = false := by decide
theorem test_word_with_opcode_0_refused : Word32.opIsLegal 0x00000000#32 = false := by decide
theorem test_word_with_opcode_7_refused : Word32.opIsLegal 0x00000007#32 = false := by decide
theorem test_word_6_well_formed : Word32.wellFormed 0x00000006#32 = true := by decide

/-! ### Decoding: OP in bits 3:0, RSV = 0 in bits 31:4 (R80), opcodes of R81 -/

theorem test_decode_inv1 : decode 0b00000000000000000000000000000001#32 = .ok .inv1 := by rfl
theorem test_decode_redc : decode 0b00000000000000000000000000000010#32 = .ok .redc := by rfl
theorem test_decode_mul : decode 0b00000000000000000000000000000011#32 = .ok .mul := by rfl
theorem test_decode_sqr : decode 0b00000000000000000000000000000100#32 = .ok .sqr := by rfl
theorem test_decode_build : decode 0b00000000000000000000000000000101#32 = .ok .build := by rfl
theorem test_decode_modpow : decode 0b00000000000000000000000000000110#32 = .ok .modpow := by rfl
theorem test_decode_reserved : decode 0b10000000000000000000000000000110#32 = .error .reservedBits := by
  rfl

/-! ### Commands, one step each; expected values from 95_test_vectors.md -/

/-- V-INV1-3: x = 23. -/
theorem test_inv1_23 :
    (match exec .inv1 (busy32 .inv1) with
      | .next t => t.invY
      | .fault _ => 0
      | .refused _ => 0) = 0xE9BD37A7#64 := by decide +kernel

/-- V-INV1-17, an even operand: x = 4. -/
theorem test_inv1_even :
    (match exec .inv1 (running (machine p32 { ready with invX := 4 } [] none []) .inv1) with
      | .next t => t.invY
      | .fault _ => 0
      | .refused _ => 0) = 0x55555555#64 := by decide +kernel

/-- V-REDC-9, P2: the carry comes out of iteration 0; the output is the upper half of t. -/
theorem test_redc_sticky_carry :
    valueAfter (exec .redc (running twoLimb .redc)) 12 2 = 0xCBEEA4E1A08AD8C4 := by decide

/-- V-ERR-15: the output coincides with n. -/
theorem test_redc_over_modulus :
    valueAfter (exec .redc (running (machine p32 { ready with addrOut := 0 } operands none []) .redc))
      0 1 = 0x0E := by decide

/-- V-MUL-1: Mont(5) * Mont(7) = Mont(35). -/
theorem test_mul_mont35 :
    valueAfter (exec .mul (running (machine p32 ready [(0, 97), (1, 0x4E), (2, 0x33)] none []) .mul))
      100 1 = 0x3D := by decide

/-- V-MUL-6, r = 2, with the output over a. -/
theorem test_mul_two_limbs :
    valueAfter (exec .mul (running ((twoLimb.memWrite 12 2 0x4320FEDCBA987615)) .mul)) 12 2 =
      0xD49A45C60A0097E1 := by decide

/-- V-SQR-4: an operand above N gives a result that is not reduced. -/
theorem test_sqr_unreduced :
    valueAfter (exec .sqr (running (machine p32 ready [(0, 97), (1, 0xFFFFFFFF)] none []) .sqr)) 100 1
      = 0xFFFFFFDA := by decide

/-- V-SQR-5: r = 2. -/
theorem test_sqr_two_limbs :
    valueAfter (exec .sqr (running ((twoLimb.memWrite 12 2 0x4320FEDCBA987615)) .sqr)) 12 2 =
      0xEBD561A1A68142ED := by decide

/-- V-BUILD-1: entries 0 and 7 of the table of Mont(3). -/
theorem test_build_entries :
    (valueAfter (exec .build (busy32 .build)) 100 1, valueAfter (exec .build (busy32 .build)) 107 1)
      = (1, 0x0C) := by decide +kernel

/-- V-BUILD-1: entry 63. -/
theorem test_build_last : valueAfter (exec .build (busy32 .build)) 163 1 = 0x41 := by decide +kernel

/-- V-MODPOW-1: 3^65 mod 97, two blocks. -/
theorem test_modpow_65 : valueAfter (exec .modpow (busy32 .modpow)) 100 1 = 3 := by decide +kernel

/-- V-MODPOW-11: W = 64, eleven windows. -/
theorem test_modpow_w64 :
    valueAfter (exec .modpow (running (machine p64
      { ready with nquote0 := 0xCBEEA4E1A08AD8F3, expBits := 64 }
      [(0, 0xFFFFFFFFFFFFFFC5), (1, 0x4320FEDCBA987615), (6, 0xFEDCBA9876543210), (100, 0x3B)] none [])
      .modpow)) 100 1 = 0x01637CA437FCF840 := by decide +kernel

/-! ### Checks, STATUS and the host's ports (section 2.6) -/

/-- V-ERR-7: ILLEGAL_CMD comes before BAD_LEN. -/
theorem test_illegal_before_bad_len :
    statusAfter (step (machine p32 CfgRegs.reset [] none [.regWrite 0x20 0x10])) = 0x12#32 := by
  decide

/-- V-ERR-10: base + length does not wrap at 2^32. -/
theorem test_range_does_not_wrap :
    statusAfter (step (machine p32 { ready with addrOut := 3, addrScr := 0xFFFFFFFE } [] none
      [.regWrite 0x20 3])) = 0x32#32 := by decide

/-- V-ERR-9: a buffer may end at LMEM_LIMBS. -/
theorem test_range_boundary_accepted :
    statusAfter (step (machine p32 { ready with addrOut := 3, addrScr := 0xFC } [] none
      [.regWrite 0x20 3])) = 0x01#32 := by decide

/-- V-ERR-17: REDC's output may not be the lower half of t. -/
theorem test_redc_lower_half_overlap :
    statusAfter (step (machine p32 { ready with addrOut := 4 } [] none [.regWrite 0x20 2])) = 0x42#32 := by
  decide

/-- V-ERR-25: a command word while BUSY. -/
theorem test_overrun :
    statusAfter (step { busy32 .mul with bus := [.regWrite 0x20 4] }) = 0x05#32 := by decide

/-- V-ERR-25: `LD [0]` while BUSY returns 0, although limb 0 holds 97. -/
theorem test_lmem_read_while_busy :
    readAfter (step { busy32 .mul with bus := [.lmemRead 0] }) = (some 0#64, false) := by decide

/-- P3: `WR STATUS, 0xE` clears DONE, OVERRUN and HOSTVIOL. -/
theorem test_status_w1c :
    statusAfter (step { idle32 with
      status := { done := true, overrun := true, hostviol := true, err := .range }
      bus := [.regWrite 0x18 0xE] }) = 0x30#32 := by decide

/-- R61, R62: a limb written and read back through the host port. -/
theorem test_lmem_read : readAfter (step { idle32 with bus := [.lmemRead 2] }) = (some 0x33#64, false) := by
  decide

/-- R62: limb 12 is 0xFFFFFF88, so byte 0 of it, at byte address 48, is 0x88 and its upper half, at 50, is
0xFFFF, both zero-extended. -/
theorem test_window_load :
    readAfter (step { twoLimb with bus := [.windowLoad .byte 48] }) = (some 0x88#64, false) ∧
      readAfter (step { twoLimb with bus := [.windowLoad .halfLimb 50] }) = (some 0xFFFF#64, false) := by
  decide

/-- R62: byte 1 of limb 12 and its upper half are written, the limb's other bits and limb 13 are not. -/
theorem test_window_store :
    valueAfter (step { twoLimb with bus := [.windowStore .byte 49 0xABCD] }) 12 2 =
        0xFFFFFFFFFFFFCD88 ∧
      valueAfter (step { twoLimb with bus := [.windowStore .halfLimb 50 0x51234] }) 12 2 =
        0xFFFFFFFF1234FF88 := by decide

/-- R63: a byte of limb 0, which holds 97, reads 0 while BUSY; a byte write is discarded, with HOSTVIOL. -/
theorem test_window_while_busy :
    readAfter (step { busy32 .mul with bus := [.windowLoad .byte 0] }) = (some 0#64, false) ∧
      statusAfter (step { busy32 .mul with bus := [.windowStore .byte 0 5] }) = 0x09#32 ∧
      valueAfter (step { busy32 .mul with bus := [.windowStore .byte 0 5] }) 0 1 = 97 := by decide

/-- R42: one step on `.advance` takes MUL from PROD to REDC_RED and leaves STATUS = BUSY. -/
theorem test_advance_step :
    (match step { busy32 .mul with bus := [.advance] } with
      | .next t => (t.phase, t.statusWord)
      | .fault _ => (.idle, 0)
      | .refused _ => (.idle, 0)) = (.redcRed, 1#32) := by decide

/-- R246: an idle engine with nothing to do stays as it is. -/
theorem test_idle_step : (match step idle32 with
      | .next t => t = idle32
      | .fault _ => False
      | .refused _ => False) := by rfl

/-- Trace of V-REDC-9: after one digit the carry is 1 and the next digit is 0xCBEEA4E1. -/
theorem test_controller_redc_digit :
    (match (twoLimb.moveEngines 1 { op := .redc, pos := twoLimb.firstPosition .redc }).pos with
      | .redcRed _ i c m => (i, c, m)
      | _ => (0, false, 0)) = (1, true, 0xCBEEA4E1) := by decide

/-- R252: RST while BUSY leaves the limbs outside the written intervals, here n and t. -/
theorem test_reset_while_busy :
    (match step { busy32 .mul with bus := [.rst] } with
      | .next t => (t.memRead 0 1, t.memRead 4 2, t.busy, t.cfg)
      | .fault _ => (0, 0, true, ready)
      | .refused _ => (0, 0, true, ready)) = (97, 5, false, CfgRegs.reset) := by decide

/-- P1, line 2 and line 3 of its transactions; `STN` of R87. -/
theorem test_host_statements :
    programEvents .w32 [.wr .invX 0xFFFFFF9F, .cmd .inv1, .stn 4 2 0x500000003] =
      [.regWrite 0x78 0xFFFFFF9F, .regWrite 0x20 1, .lmemWrite 4 3, .lmemWrite 5 5] := by decide

/-- P1, `NQ0 97` (R95): the value read from INV_Y is written to NQUOTE0. -/
theorem test_pseudo_nq0 :
    programEvents .w32 (pseudoNq0 .w32 97 1) =
      [.regWrite 0x78 0xFFFFFF9F, .regWrite 0x20 1, .regRead 0x18, .complete, .pollStatus,
       .regRead 0x80, .regWriteBack 0x30] := by decide

/-- R87, R89: after a read that showed BUSY = 0 (here DONE alone) a WAIT loop reads STATUS no more;
STATUS itself is 0. -/
theorem test_wait_ends :
    readAfter (step { idle32 with readData := some 2#64, bus := [.pollStatus] }) =
      (some 2#64, false) := by decide

/-- R87: while a read showed BUSY = 1 the loop goes on. -/
theorem test_wait_goes_on :
    readAfter (step { busy32 .mul with readData := some 5#64, bus := [.pollStatus] }) =
      (some 1#64, false) := by decide

/-- R61, R87: `STN [0xFFFFFFFF], 2, v` does not wrap; its second limb is out of range, and limb 0 still
holds 97. -/
theorem test_stn_does_not_wrap :
    HostStmt.events .w32 (.stn 0xFFFFFFFF 2 0x500000003) =
        [.lmemWrite 0xFFFFFFFF 3, .lmemWrite 0x100000000 5] ∧
      valueAfter (step { idle32 with bus := [.lmemWrite 0x100000000 5] }) 0 1 = 97 := by
  decide

/-! ### Witnesses: the hypotheses of the statements can be met -/

theorem ready_checks (i : Instr) : checkOperands i idle32 = .none := by cases i <;> decide

/-- An idle engine whose next CMD write is the illegal word 7 (the bits above 31 are not looked at). -/
def illegalNext : State := { idle32 with bus := [.regWrite 0x20 0x100000007] }

theorem witness_OnlySixWordsAreCommands : ∃ (s : State) (w : Word32) (v : Slot) (rest : List Event),
    s.busy = false ∧ ¬ (w.toNat / 16 = 0 ∧ 1 ≤ w.toNat % 16 ∧ w.toNat % 16 ≤ 6) ∧
    s.bus = .regWrite 0x20 v :: rest ∧ v.setWidth 32 = w :=
  ⟨illegalNext, 7#32, 0x100000007, [], rfl, by decide, rfl, by decide⟩

theorem witness_CheckedCommandIsAccepted (i : Instr) :
    ∃ s : State, s.busy = false ∧ checkOperands i s = .none := ⟨idle32, rfl, ready_checks i⟩

theorem witness_FailedCheckRejects : ∃ (i : Instr) (s : State), s.busy = false ∧
    checkOperands i s ≠ .none := ⟨.mul, State.reset, rfl, by decide⟩

/-- An illegal word. -/
theorem witness_FailedCheckRejects_word : ∃ (s : State) (v : Slot) (rest : List Event)
    (why : IllegalWord), s.busy = false ∧ s.bus = .regWrite 0x20 v :: rest ∧
    decode (v.setWidth 32) = .error why :=
  ⟨illegalNext, 0x100000007, [], .opcode 7#4, rfl, rfl, by rfl⟩

/-- A command word whose operands fail a check (R_LIMBS = 0). -/
theorem witness_FailedCheckRejects_check : ∃ (s : State) (v : Slot) (rest : List Event) (i : Instr),
    s.busy = false ∧ s.bus = .regWrite 0x20 v :: rest ∧ decode (v.setWidth 32) = .ok i ∧
    checkOperands i s ≠ .none :=
  ⟨{ State.reset with bus := [.regWrite 0x20 3] }, 3, [], .mul, rfl, rfl, by rfl, by decide⟩

/-- The read of STATUS that follows a rejection. -/
theorem witness_FailedCheckRejects_read : ∃ (s : State) (rest : List Event), s.busy = false ∧
    s.bus = .regRead 0x18 :: rest := ⟨{ idle32 with bus := [.regRead 0x18] }, [], rfl, rfl⟩

/-- An idle engine; one whose next CMD write is accepted, and one whose is rejected. -/
theorem witness_CommandWriteClearsStatus : ∃ (s u : State) (w : Word32), s.busy = false ∧
    u.busy = false ∧ (∃ t, s.cmdWrite w = .next t ∧ t.busy = true) ∧
    ∃ t, u.cmdWrite w = .next t ∧ t.busy = false :=
  ⟨idle32, State.reset, 3#32, rfl, rfl, ⟨_, rfl, by decide⟩, ⟨_, rfl, by decide⟩⟩

theorem witness_ChecksAreInOrder_badLen : ∃ (i : Instr) (s : State), i ≠ .inv1 ∧ s.r = 0 :=
  ⟨.mul, State.reset, by decide, by decide⟩

/-- One limb too far: scratch [253 +: 4] (V-ERR-8). -/
theorem witness_ChecksAreInOrder_range : ∃ (i : Instr) (s : State), i ≠ .inv1 ∧ s.r ≠ 0 ∧
    ∃ b ∈ buffers i s, 0 < b.span.len ∧ s.lmemLimbs < b.span.base + b.span.len :=
  ⟨.mul, machine p32 { ready with addrScr := 0xFD } [] none [], by decide, by decide,
    { name := .scr, role := .scratch, span := { base := 0xFD, len := 4 } }, by decide,
    by decide, by decide⟩

/-- Scratch [252 +: 4] ends at LMEM_LIMBS (V-ERR-9), and overlaps the output at its last limb. -/
theorem witness_ChecksAreInOrder_overlap : ∃ (i : Instr) (s : State), i ≠ .inv1 ∧ s.r ≠ 0 ∧
    (∀ b ∈ buffers i s, b.span.len = 0 ∨ b.span.base + b.span.len ≤ s.lmemLimbs) ∧
    forbiddenOverlap s i :=
  ⟨.mul, machine p32 { ready with addrScr := 0xFC, addrOut := 0xFF } [] none [], by decide, by decide,
    by decide,
    .inl ⟨{ base := 0xFF, len := 1 }, by decide, 0xFF, by decide, by decide⟩⟩

/-- Scratch [252 +: 4] and the output just below it. -/
theorem witness_ChecksAreInOrder_none : ∃ (i : Instr) (s : State), i ≠ .inv1 ∧ s.r ≠ 0 ∧
    (∀ b ∈ buffers i s, b.span.len = 0 ∨ b.span.base + b.span.len ≤ s.lmemLimbs) ∧
    checkOperands i s = .none :=
  ⟨.mul, machine p32 { ready with addrScr := 0xFC, addrOut := 0xFB } [] none [], by decide, by decide,
    by decide, by decide⟩

theorem witness_OverrunDiscardsWord : ∃ (s : State) (v : Slot) (rest : List Event),
    s.bus = .regWrite 0x20 v :: rest ∧ s.busy = true :=
  ⟨{ busy32 .mul with bus := [.regWrite 0x20 4] }, 4, [], rfl, rfl⟩

theorem witness_StepRunsDecodedCommand : ∃ (s : State) (v : Slot) (rest : List Event) (i : Instr),
    s.bus = .regWrite 0x20 v :: rest ∧ s.busy = false ∧ decode (v.setWidth 32) = .ok i :=
  ⟨{ idle32 with bus := [.regWrite 0x20 3] }, 3, [], .mul, rfl, rfl, by rfl⟩

theorem witness_StepRunsDecodedCommand_complete : ∃ (s : State) (rest : List Event) (e : Engine),
    s.bus = .complete :: rest ∧ s.engine = some e :=
  ⟨{ busy32 .mul with bus := [.complete] }, [], { op := .mul, pos := .prod }, rfl, rfl⟩

theorem witness_StepRunsDecodedCommand_quiet : ∃ (s : State) (e : Engine),
    s.bus = [] ∧ s.engine = some e := ⟨busy32 .mul, { op := .mul, pos := .prod }, rfl, rfl⟩

/-- A controller move before FINISH. -/
theorem witness_StepRunsDecodedCommand_advance : ∃ (s : State) (rest : List Event) (e : Engine),
    s.bus = .advance :: rest ∧ s.engine = some e ∧ e.pos.phase ≠ .finish :=
  ⟨{ busy32 .mul with bus := [.advance] }, [], { op := .mul, pos := .prod }, rfl, rfl, by decide⟩

/-- The controller at FINISH. -/
theorem witness_StepRunsDecodedCommand_finish : ∃ (s : State) (rest : List Event) (e : Engine),
    s.bus = .advance :: rest ∧ s.engine = some e ∧ e.pos.phase = .finish :=
  ⟨{ idle32 with bus := [.advance], engine := some { op := .mul, pos := .finish [5] } }, [],
    { op := .mul, pos := .finish [5] }, rfl, rfl, rfl⟩

/-- An idle engine with nothing to come, and one with an engine event to come. -/
theorem witness_StepRunsDecodedCommand_idle : ∃ (s u : State) (rest : List Event),
    (s.engine = none ∧ s.bus = []) ∧
    u.engine = none ∧ (u.bus = .advance :: rest ∨ u.bus = .complete :: rest) :=
  ⟨idle32, { idle32 with bus := [.advance] }, [], ⟨rfl, rfl⟩, rfl, .inl rfl⟩

theorem witness_FetchWordIsRun : ∃ (w : Nat) (i : Instr), decodeTableWord 32 w = some i :=
  ⟨6, .modpow, by rfl⟩

theorem witness_IssueThenComplete (i : Instr) : ∃ (s : State) (rest : List Event),
    s.bus = .regWrite 0x20 ((encode i).setWidth 64) :: .complete :: rest ∧ s.busy = false ∧
      checkOperands i s = .none :=
  ⟨{ idle32 with bus := [.regWrite 0x20 ((encode i).setWidth 64), .complete] }, [], rfl, rfl,
    ready_checks i⟩

/-- Also the witness of RedcCompletes, MulCompletes, SqrCompletes, BuildCompletes and ModpowCompletes,
and of Inv1Completes. -/
theorem witness_Completes (i : Instr) : ∃ s : State, s.busy = true ∧ checkOperands i s = .none :=
  ⟨busy32 i, rfl, ready_checks i⟩

theorem witness_Inv1InvertsOddWords : ∃ s : State, s.busy = true ∧ s.invArg % 2 = 1 :=
  ⟨busy32 .inv1, rfl, by decide⟩

theorem witness_Inv1GivesNquote0 : ∃ w n : Nat, 0 < w ∧ n % 2 = 1 := ⟨32, 97, by decide, by decide⟩

/-- The largest T below N*R (V-REDC-6). -/
theorem witness_RedcReducesBelowNR : ∃ w n nq r t : Nat, 0 < w ∧ (n * nq + 1) % 2 ^ w = 0 ∧
    n < 2 ^ (r * w) ∧ t < n * 2 ^ (r * w) :=
  ⟨32, 97, 0xA0FD5C5F, 1, 0x60FFFFFFFF, by decide, by decide, by decide, by decide⟩

/-- The largest T of all (V-REDC-7). -/
theorem witness_RedcStaysCongruent : ∃ w n nq r t : Nat, 0 < w ∧ (n * nq + 1) % 2 ^ w = 0 ∧
    n < 2 ^ (r * w) ∧ t < 2 ^ (2 * r * w) :=
  ⟨32, 97, 0xA0FD5C5F, 1, 2 ^ 64 - 1, by decide, by decide, by decide, by decide⟩

theorem witness_RedcSweepIsExact : ∃ w n r t k : Nat, k ≤ r ∧ n < 2 ^ (r * w) ∧
    t < 2 ^ (2 * r * w) := ⟨32, 2 ^ 64 - 59, 2, 2 ^ 128 - 1, 2, by decide, by decide, by decide⟩

/-- MUL over its own input, ADDR_OUT = ADDR_A = ADDR_B (R175). -/
theorem witness_SqrIsMulBySelf : ∃ s : State, s.busy = true ∧ checkOperands .mul s = .none ∧
    s.cfg.addrB = s.cfg.addrA :=
  ⟨running (machine p32 { ready with addrOut := 1, addrB := 1 } operands none []) .mul, rfl,
    by decide, rfl⟩

theorem witness_MulIsMontgomeryProduct : ∃ s : State, s.busy = true ∧ checkOperands .mul s = .none ∧
    (s.nVal * s.nq + 1) % 2 ^ s.limbBits = 0 ∧ s.aVal < s.nVal ∧ s.bVal < s.nVal ∧
    s.aVal = 3 * 2 ^ (s.r * s.limbBits) % s.nVal ∧ s.bVal = 7 * 2 ^ (s.r * s.limbBits) % s.nVal :=
  ⟨busy32 .mul, rfl, ready_checks .mul, by decide, by decide, by decide,
    by decide, by decide⟩

/-- Also the witness of SqrIsMontgomerySquare and TableHoldsMontgomeryPowers. -/
theorem witness_MontgomeryOperand (i : Instr) : ∃ (s : State) (x : Nat), s.busy = true ∧
    checkOperands i s = .none ∧ (s.nVal * s.nq + 1) % 2 ^ s.limbBits = 0 ∧
    s.aVal = x * 2 ^ (s.r * s.limbBits) % s.nVal := by
  refine ⟨busy32 i, 3, rfl, ready_checks i, ?_, ?_⟩ <;> cases i <;> decide

theorem witness_ModpowComputesPower : ∃ (s : State) (x z : Nat), s.busy = true ∧
    checkOperands .modpow s = .none ∧ (s.nVal * s.nq + 1) % 2 ^ s.limbBits = 0 ∧
    s.aVal = x * 2 ^ (s.r * s.limbBits) % s.nVal ∧ s.accVal = z * 2 ^ (s.r * s.limbBits) % s.nVal :=
  ⟨busy32 .modpow, 3, 1, rfl, ready_checks .modpow, by decide, by decide,
    by decide⟩

/-- L = 0 with ADDR_EXP outside LMEM (V-ERR-23). -/
theorem witness_ModpowOfNoBitsKeepsAccumulator : ∃ s : State, s.busy = true ∧
    checkOperands .modpow s = .none ∧ s.cfg.expBits = 0#32 :=
  ⟨running (machine p32 { ready with expBits := 0, addrExp := 300 } operands none []) .modpow, rfl,
    by decide, rfl⟩

theorem witness_LimbOperationsAreExact : ∃ w x y z cy b : Nat, x < 2 ^ w ∧ y < 2 ^ w ∧ z < 2 ^ w ∧
    cy < 2 ^ w ∧ b ≤ 1 :=
  ⟨32, 2 ^ 32 - 1, 2 ^ 32 - 1, 2 ^ 32 - 1, 2 ^ 32 - 1, 1, by decide, by decide, by decide, by decide,
    by decide⟩

/-- Also the witness of SubNWrapsModuloR, in both of its cases (swap x and y). -/
theorem witness_ProductsAreExact : ∃ (w r : Nat) (a b : List Nat), a.length = r ∧ b.length = r ∧
    (∀ x ∈ a, x < 2 ^ w) ∧ (∀ x ∈ b, x < 2 ^ w) ∧ valOf w a < valOf w b :=
  ⟨32, 2, [5, 0], [2 ^ 32 - 1, 2 ^ 32 - 1], rfl, rfl, by decide, by decide, by decide⟩

/-- Also the witness of LimbRedcEqualsIntegerRedc; the last digit (i = r - 1) of the largest T. -/
theorem witness_AddMulShiftIsExact : ∃ (w r i m : Nat) (t n : List Nat), t.length = 2 * r ∧
    n.length = r ∧ i < r ∧ m < 2 ^ w ∧ (∀ x ∈ t, x < 2 ^ w) ∧ (∀ x ∈ n, x < 2 ^ w) :=
  ⟨32, 1, 0, 2 ^ 32 - 1, [2 ^ 32 - 1, 2 ^ 32 - 1], [97], rfl, rfl, by decide, by decide, by decide,
    by decide⟩

theorem witness_ControllerComputesResults (i : Instr) : ∃ s : State, checkOperands i s = .none :=
  ⟨idle32, ready_checks i⟩

/-- A command just accepted, with as many moves to come as it needs: INV1, W - 1 = 31. -/
theorem witness_ControllerComputesResults_run : ∃ (i : Instr) (s : State) (k : Nat)
    (rest : List Event), checkOperands i s = .none ∧ 0 < k ∧ k ≤ s.moves i ∧
    s.engine = some { op := i, pos := s.firstPosition i } ∧
    s.bus = List.replicate k .advance ++ rest :=
  ⟨.inv1, { busy32 .inv1 with bus := List.replicate 31 .advance }, 31, [], rfl, by decide, by decide,
    rfl, rfl⟩

/-- A good state in which a command runs, with a host access to come. -/
def busyGood : State := { busy32 .mul with bus := [.regRead 0x18] }

theorem busyGood_inv : busyGood.Inv := by
  refine ⟨⟨by decide, by decide⟩, ⟨by decide, by decide, by decide⟩,
    ?_⟩
  intro e he
  cases he
  exact ⟨ready_checks .mul, rfl, rfl, .inl rfl⟩

/-- A command runs, and no reset is to come. -/
theorem witness_EveryCommandCompletes : ∃ (s : State) (e : Engine), s.Inv ∧ s.engine = some e ∧
    (∀ ev ∈ s.bus, ev ≠ .rst ∧ ev ≠ .powerOn) ∧ s.bus ≠ [] :=
  ⟨busyGood, { op := .mul, pos := .prod }, busyGood_inv, rfl, by decide, by decide⟩

/-- Power-on while a command runs. -/
theorem witness_PowerOnValues : ∃ (s : State) (rest : List Event), s.params = p32 ∧
    s.bus = .powerOn :: rest ∧ s.busy = true :=
  ⟨{ busy32 .mul with bus := [.powerOn] }, [], rfl, rfl, rfl⟩

/-- Also the witness of GoodStatesNeverStop. -/
theorem witness_StepKeepsInvariant : ∃ s t : State, s.Inv ∧ step s = .next t ∧ s.busy = true :=
  ⟨busyGood, _, busyGood_inv, rfl, rfl⟩

theorem witness_StepKeepsControllerTrack : ∃ s t : State, s.tracks ∧ step s = .next t ∧
    s.busy = true := by
  refine ⟨busyGood, _, ?_, rfl, rfl⟩
  intro e he
  cases he
  exact ⟨0, rfl⟩

theorem witness_HostRegisterWrites_cfg_idle : ∃ (s : State) (r : Reg) (v : Slot) (rest : List Event),
    r.access = .cfg ∧ s.bus = .regWrite r.offset v :: rest ∧ s.busy = false :=
  ⟨{ idle32 with bus := [.regWrite 0x30 0x1A0FD5C5F] }, .nquote0, 0x1A0FD5C5F, [], rfl, rfl, rfl⟩

theorem witness_HostRegisterWrites_cfg_busy : ∃ (s : State) (r : Reg) (v : Slot) (rest : List Event),
    r.access = .cfg ∧ s.bus = .regWrite r.offset v :: rest ∧ s.busy = true :=
  ⟨{ busy32 .mul with bus := [.regWrite 0x28 2] }, .rLimbs, 2, [], rfl, rfl, rfl⟩

theorem witness_HostRegisterWrites_ctrl : ∃ (s : State) (v : Slot) (rest : List Event),
    s.bus = .regWrite 0x10 v :: rest := ⟨{ busy32 .mul with bus := [.regWrite 0x10 1] }, 1, [], rfl⟩

theorem witness_HostRegisterWrites_status : ∃ (s : State) (v : Slot) (rest : List Event),
    s.bus = .regWrite 0x18 v :: rest := ⟨{ idle32 with bus := [.regWrite 0x18 0xE] }, 0xE, [], rfl⟩

theorem witness_HostRegisterWrites_ro : ∃ (s : State) (r : Reg) (v : Slot) (rest : List Event),
    r.access = .ro ∧ s.bus = .regWrite r.offset v :: rest :=
  ⟨{ idle32 with bus := [.regWrite 0x80 1] }, .invY, 1, [], rfl, rfl⟩

/-- The first offset past the map, and one inside it that is not a multiple of 8. -/
theorem witness_HostRegisterWrites_unmapped : ∃ (s u : State) (v : Slot) (rest : List Event),
    s.bus = .regWrite 0x88 v :: rest ∧ u.bus = .regWrite 0x7C v :: rest :=
  ⟨{ idle32 with bus := [.regWrite 0x88 1] }, { idle32 with bus := [.regWrite 0x7C 1] }, 1, [], rfl, rfl⟩

theorem witness_HostRegisterReads : ∃ (s : State) (o : Nat) (rest : List Event),
    s.bus = .regRead o :: rest := ⟨{ busy32 .mul with bus := [.regRead 0x80] }, 0x80, [], rfl⟩

theorem witness_HostRegisterReads_busy : ∃ s t : State, step s = .next t ∧ s.busy = true ∧
    t.busy = true := ⟨busyGood, _, rfl, rfl, rfl⟩

/-- The last limb, and the first address past it, for writes. -/
theorem witness_HostLmemPort_write : ∃ (s u b : State) (v : Slot),
    (s.bus = .lmemWrite 255 v :: [] ∧ s.busy = false ∧ 255 < s.lmemLimbs) ∧
    (u.bus = .lmemWrite 256 v :: [] ∧ u.busy = false ∧ u.lmemLimbs ≤ 256) ∧
    (b.bus = .lmemWrite 0 v :: [] ∧ b.busy = true) :=
  ⟨{ idle32 with bus := [.lmemWrite 255 7] }, { idle32 with bus := [.lmemWrite 256 7] },
    { busy32 .mul with bus := [.lmemWrite 0 7] }, 7, ⟨rfl, rfl, by decide⟩, ⟨rfl, rfl, by decide⟩,
    ⟨rfl, rfl⟩⟩

/-- The same for reads. -/
theorem witness_HostLmemPort_read : ∃ s u b : State,
    (s.bus = .lmemRead 255 :: [] ∧ s.busy = false ∧ 255 < s.lmemLimbs) ∧
    (u.bus = .lmemRead 256 :: [] ∧ u.busy = false ∧ u.lmemLimbs ≤ 256) ∧
    (b.bus = .lmemRead 0 :: [] ∧ b.busy = true) :=
  ⟨{ idle32 with bus := [.lmemRead 255] }, { idle32 with bus := [.lmemRead 256] },
    { busy32 .mul with bus := [.lmemRead 0] }, ⟨rfl, rfl, by decide⟩, ⟨rfl, rfl, by decide⟩, ⟨rfl, rfl⟩⟩

theorem witness_InterruptLine : ∃ v : Word32, v.getLsbD 1 = true := ⟨2#32, by decide⟩

theorem witness_WarmReset_idle : ∃ (s : State) (rest : List Event), s.bus = .rst :: rest ∧
    s.busy = false := ⟨{ idle32 with bus := [.rst] }, [], rfl, rfl⟩

/-- Also for INV1. -/
theorem witness_WarmReset_busy (i : Instr) : ∃ (s : State) (rest : List Event) (e : Engine),
    s.bus = .rst :: rest ∧ s.engine = some e ∧ e.op = i :=
  ⟨{ busy32 i with bus := [.rst] }, [], { op := i, pos := idle32.firstPosition i }, rfl, rfl, rfl⟩

/-- A written interval that lies in LMEM, MUL's scratch [170 +: 4]. -/
theorem witness_WarmReset_written : ∃ x ∈ writtenSpans .mul (busy32 .mul),
    x.base + x.len ≤ (busy32 .mul).lmemLimbs ∧ x.has 170 = true :=
  ⟨{ base := 170, len := 4 }, by decide, by decide, by decide⟩

/-- A command that ends. -/
theorem witness_WarmReset_ends : ∃ (s t : State) (e : Engine), s.engine = some e ∧
    step s = .next t ∧ t.busy = false :=
  ⟨{ busy32 .inv1 with bus := [.rst] }, _, { op := .inv1, pos := .inv 1 1 }, rfl, rfl, rfl⟩

theorem witness_OnlyInv1WritesInvY : ∃ s t : State, step s = .next t ∧ t.invY ≠ s.invY :=
  ⟨busy32 .inv1, _, rfl, by decide +kernel⟩

theorem witness_RunningCommandKeepsItsOperands : ∃ s t : State, step s = .next t ∧ s.busy = true ∧
    t.busy = true := ⟨busyGood, _, rfl, rfl, rfl⟩

theorem witness_HiddenStateIsUnobservable : ∃ (s : State) (e : Engine) (ev : Event)
    (rest : List Event), s.engine = some e ∧ s.bus = ev :: rest ∧ ev ≠ .advance ∧ ev ≠ .complete ∧
    ev ≠ .rst ∧ ev ≠ .powerOn :=
  ⟨{ busy32 .mul with bus := [.lmemRead 0] }, { op := .mul, pos := .prod }, .lmemRead 0, [], rfl, rfl,
    by decide, by decide, by decide, by decide⟩

/-- The two machines may run different commands. -/
theorem witness_HiddenStateIsUnobservable_commands : ∃ e f : Engine, e.op ≠ f.op :=
  ⟨{ op := .mul, pos := .prod }, { op := .inv1, pos := .inv 1 1 }, by decide⟩

/-- Two machines that differ in a limb no MUL reads and in STATUS. -/
theorem witness_ResultsDependOnlyOnInputs : ∃ (i : Instr) (s u : State), s.busy = true ∧
    u.busy = true ∧ s.params = u.params ∧ s.cfg = u.cfg ∧ checkOperands i s = .none ∧ s ≠ u ∧
    (∀ b ∈ buffers i s, b.role ≠ .output → b.role ≠ .scratch →
      ∀ a, b.span.has a = true → u.limb a = s.limb a) := by
  refine ⟨.mul, busy32 .mul, { busy32 .mul with status := { Status.reset with overrun := true } }, rfl,
    rfl, rfl, rfl, ready_checks .mul, by decide, fun b _ _ _ a _ => rfl⟩

theorem witness_ParametersNeverChange : ∃ s t : State, step s = .next t ∧ s.bus ≠ [] :=
  ⟨busyGood, _, rfl, by decide⟩

/-- The last byte of a limb, W = 32. -/
theorem witness_LimbIsItsBytes : ∃ (s : State) (b n : Nat), s.busy = false ∧ b < s.limbBytes ∧
    b + n ≤ s.limbBytes := ⟨idle32, 3, 1, rfl, by decide, by decide⟩

/-- A read of the upper half of the last limb, idle; and the same read while BUSY. -/
theorem witness_LimbIsItsBytes_load : ∃ (s u : State) (a b n : Nat),
    n = s.limbBits / 16 ∧ b + n ≤ s.limbBytes ∧ a + 1 = s.lmemLimbs ∧
    s.bus = .windowLoad .halfLimb (a * s.limbBytes + b) :: [] ∧ s.busy = false ∧
    u.bus = .windowLoad .halfLimb (a * u.limbBytes + b) :: [] ∧ u.busy = true :=
  ⟨{ idle32 with bus := [.windowLoad .halfLimb 1022] },
    { busy32 .mul with bus := [.windowLoad .halfLimb 1022] }, 255, 2, 2, by decide, by decide, by decide,
    rfl, rfl, rfl, rfl⟩

/-- A write of the last byte of LMEM, idle and while BUSY; and one of the first byte beyond it. -/
theorem witness_LimbIsItsBytes_store : ∃ (s u o : State) (a b : Nat) (v : Slot),
    b + 1 ≤ s.limbBytes ∧ a + 1 = s.lmemLimbs ∧
    s.bus = .windowStore .byte (a * s.limbBytes + b) v :: [] ∧ s.busy = false ∧
    u.bus = .windowStore .byte (a * u.limbBytes + b) v :: [] ∧ u.busy = true ∧
    o.bus = .windowStore .byte (o.lmemLimbs * o.limbBytes) v :: [] ∧ o.busy = false :=
  ⟨{ idle32 with bus := [.windowStore .byte 1023 7] },
    { busy32 .mul with bus := [.windowStore .byte 1023 7] },
    { idle32 with bus := [.windowStore .byte 1024 7] }, 255, 3, 7, by decide, by decide, rfl, rfl, rfl,
    rfl, rfl, rfl⟩

theorem witness_LimbSequences : ∃ len j : Nat, j < len := ⟨2, 1, by decide⟩

/-- Both hypotheses of the table of buffers, the second with a register that does change. -/
theorem witness_OperandBuffersTable : ∃ (s u : State) (v : BitVec 32), s.cfg.rLimbs.toNat = 1 ∧
    s.cfg.addrScr.toNat = 170 ∧ u = { s with cfg := { s.cfg with addrT := v } } ∧ u ≠ s :=
  ⟨idle32, { idle32 with cfg := { idle32.cfg with addrT := 9 } }, 9, by decide, by decide, rfl,
    by decide⟩

/-- The last table entry of MODPOW. -/
theorem witness_ScratchRegionsTile : ∃ (s : State) (a e : Nat), e < 64 ∧ (s.powEntry e).has a = true :=
  ⟨idle32, 233, 63, by decide, by decide⟩

theorem witness_IntervalRelations : ∃ x : Interval, x.len = 0 := ⟨{ base := 3, len := 0 }, rfl⟩

theorem witness_WindowsHoldExponent : ∃ (s : State) (p q : Nat), s.expLen ≤ p ∧ q < s.expLen :=
  ⟨idle32, 7, 6, by decide, by decide⟩

theorem witness_StoreStatementStoresInteger : ∃ (s : State) (a n v : Nat) (rest : List Event),
    s.busy = false ∧ a + n ≤ s.lmemLimbs ∧
    s.bus = HostStmt.events s.params.width (.stn a n v) ++ rest :=
  ⟨{ idle32 with bus := HostStmt.events .w32 (.stn 254 2 7) }, 254, 2, 7, [], rfl, by decide,
    by decide⟩

theorem witness_MnemonicIssuesCommand (i : Instr) : ∃ (s : State) (rest : List Event),
    s.busy = false ∧ s.bus = HostStmt.events s.params.width (.cmd i) ++ rest :=
  ⟨{ idle32 with bus := HostStmt.events .w32 (.cmd i) }, [], rfl, by rfl⟩

/-- WAIT on an idle engine. -/
theorem witness_WaitReadsUntilIdle_idle : ∃ (s : State) (polls : Nat) (rest : List Event),
    s.busy = false ∧ (∀ e, s.engine = some e → checkOperands e.op s = .none) ∧
    s.bus = HostStmt.events s.params.width (.wait polls) ++ rest := by
  refine ⟨{ idle32 with bus := HostStmt.events .w32 (.wait 3) }, 3, [], rfl, ?_, by rfl⟩
  intro e he
  cases he

/-- WAIT on a running command, with three reads that show BUSY = 1. -/
theorem witness_WaitReadsUntilIdle_busy : ∃ (s : State) (e : Engine) (polls k : Nat)
    (rest : List Event), s.engine = some e ∧ 1 ≤ k ∧ k ≤ polls ∧
    (∀ e, s.engine = some e → checkOperands e.op s = .none) ∧
    s.bus = HostStmt.events s.params.width (.wait polls) ++ rest := by
  refine ⟨{ busy32 .mul with bus := HostStmt.events .w32 (.wait 3) }, { op := .mul, pos := .prod }, 3, 3,
    [], rfl, by decide, by decide, ?_, by rfl⟩
  intro e he
  cases he
  exact ready_checks .mul

/-- `NQ0` of the modulus 97 on an idle engine. -/
theorem witness_Nq0SetsNquote0 : ∃ (s : State) (n polls : Nat) (rest : List Event),
    s.busy = false ∧ n % 2 = 1 ∧
    s.bus = programEvents s.params.width
      (pseudoNq0 s.params.width (n % 2 ^ s.limbBits) polls) ++ rest :=
  ⟨{ idle32 with bus := programEvents .w32 (pseudoNq0 .w32 (97 % 2 ^ 32) 1) }, 97, 1, [], rfl, rfl,
    by decide⟩

theorem witness_Nq0SetsNquote0_writeBack : ∃ (s : State) (o : Nat) (y : Slot) (rest : List Event),
    s.bus = .regWriteBack o :: rest ∧ s.readData = some y :=
  ⟨{ idle32 with readData := some 7, bus := [.regWriteBack 0x30] }, 0x30, 7, [], rfl, rfl⟩

end Sys2Proof.Tests
end

section
/-! PROOFS. The notation of the spec (00_scope.md): intervals (R10) and limb sequences (R8). -/

namespace Sys2Proof.Machine

/-! ### Intervals (R10) -/

theorem Interval.has_iff (x : Interval) (a : Nat) :
    x.has a = true ↔ x.base ≤ a ∧ a < x.base + x.len := by
  simp [Interval.has]

theorem Interval.coincides_iff (x y : Interval) : x.coincides y = true ↔ x = y := by
  cases x
  cases y
  simp [Interval.coincides]

/-- An interval without addresses overlaps nothing (R10: "both are nonempty"). -/
theorem Interval.overlaps_of_empty {x : Interval} (y : Interval) (h : x.len = 0) :
    x.overlaps y = false := by
  simp [Interval.overlaps, h]

/-- The comparison of end points finds exactly the shared addresses. The larger of the two bases is
shared as soon as any address is. -/
theorem Interval.overlaps_iff_shares (x y : Interval) : x.overlaps y = true ↔ x.shares y := by
  constructor
  · intro h
    refine ⟨max x.base y.base, ?_⟩
    simp only [Interval.overlaps, Bool.and_eq_true, decide_eq_true_eq] at h
    rw [Interval.has_iff, Interval.has_iff]
    omega
  · rintro ⟨a, hx, hy⟩
    rw [Interval.has_iff] at hx hy
    simp only [Interval.overlaps, Bool.and_eq_true, decide_eq_true_eq]
    omega

/-- Settles O52: each relation is characterised by its own lemma. -/
theorem intervalRelations : Obligations.IntervalRelations := fun x y =>
  ⟨x.has_iff, x.overlaps_iff_shares y, x.coincides_iff y, Interval.overlaps_of_empty y⟩

/-! ### Limb sequences (R8) -/

/-- `MemRead` splits off the limb at the lowest address, its least significant one. -/
theorem memRead_succ (s : State) (a n : Nat) :
    s.memRead a (n + 1) = s.limb a + 2 ^ s.limbBits * s.memRead (a + 1) n := rfl

theorem memRead_eq_sum (s : State) (a n : Nat) :
    s.memRead a n = ∑ j ∈ Finset.range n, s.limb (a + j) * 2 ^ (j * s.limbBits) := by
  induction n generalizing a with
  | zero => rfl
  | succ n ih =>
    have hshift : ∀ j, s.limb (a + (j + 1)) * 2 ^ ((j + 1) * s.limbBits) =
        2 ^ s.limbBits * (s.limb (a + 1 + j) * 2 ^ (j * s.limbBits)) := by
      intro j
      rw [show a + (j + 1) = a + 1 + j by ring]
      ring
    rw [memRead_succ, ih, Finset.sum_range_succ', Finset.sum_congr rfl (fun j _ => hshift j),
      ← Finset.mul_sum]
    simp [Nat.add_comm]

theorem limbs_getD (s : State) (a : Nat) {n j : Nat} (h : j < n) :
    (s.limbs a n).getD j 0 = s.limb (a + j) := by
  induction n generalizing a j with
  | zero => omega
  | succ n ih =>
    cases j with
    | zero => rfl
    | succ j =>
      rw [State.limbs, List.getD_cons_succ, ih (a + 1) (by omega), show a + 1 + j = a + (j + 1) by ring]

/-- Limb j of the value of a sequence is the sequence's limb j (R8). -/
theorem limbOf_memRead (s : State) (a : Nat) {n j : Nat} (h : j < n) :
    limbOf s.limbBits (s.memRead a n) j = s.limb (a + j) := by
  rw [State.memRead, limbOf_valOf (limbs_lt s a n), limbs_getD s a h]

/-- Reducing an integer to n limbs keeps each of those limbs (R8). -/
theorem limbOf_mod (w v : Nat) {n j : Nat} (h : j < n) :
    limbOf w (v % 2 ^ (n * w)) j = limbOf w v j := by
  obtain ⟨k, rfl⟩ := Nat.exists_eq_add_of_lt h
  have hexp : (j + k + 1) * w = j * w + (k + 1) * w := by ring
  have hdvd : 2 ^ w ∣ 2 ^ ((k + 1) * w) := pow_dvd_pow 2 (Nat.le_mul_of_pos_left w (by omega))
  rw [limbOf, limbOf, hexp, pow_add, Nat.mod_mul_right_div_self, Nat.mod_mod_of_dvd _ hdvd]

/-- `MemWrite` stores limb j of the integer at limb j of the sequence: what is read back is the integer
mod 2^(n*W), which has the same limb j (R8, R9). -/
theorem limb_memWrite (s : State) (a v : Nat) {n j : Nat} (h : j < n) :
    (s.memWrite a n v).limb (a + j) = limbOf s.limbBits v j := by
  rw [← limbOf_memRead _ a h, memRead_memWrite, memWrite_limbBits, limbOf_mod _ v h]

/-- Settles O53: the bound of a limb, `MemRead` as a sum by induction on the length, and the limbs of
what `MemWrite` stored. -/
theorem limbSequences : Obligations.LimbSequences := fun s =>
  ⟨limb_lt s, memRead_eq_sum s, fun a _ v _ h => limb_memWrite s a v h⟩

end Sys2Proof.Machine
end

section
/-! PROOFS. The host's register port and the interrupt line (10_state.md): the register map (R22), host
register writes (R30, R31) and reads (R33), and IRQ (R38). -/

namespace Sys2Proof.Machine

/-! ### The register map (R22) -/

theorem Reg.offset_aligned (r : Reg) : r.offset % 8 = 0 ∧ r.offset < 0x88 := by
  cases r <;> decide

@[simp] theorem Reg.atOffset_offset (r : Reg) : Reg.atOffset r.offset = some r := by
  cases r <;> rfl

theorem Reg.offset_injective : Function.Injective Reg.offset := fun q r h =>
  Option.some.inj (by rw [← Reg.atOffset_offset q, h, Reg.atOffset_offset])

/-- An offset that is not a multiple of 8, or lies beyond the map, is unmapped (R22). -/
theorem Reg.atOffset_unmapped {o : Nat} (h : o % 8 ≠ 0 ∨ 0x88 ≤ o) : Reg.atOffset o = none := by
  refine List.find?_eq_none.2 fun r _ hr => ?_
  obtain ⟨halign, hlast⟩ := r.offset_aligned
  rw [of_decide_eq_true hr] at halign hlast
  omega

/-- CMD is the one write-only register, so every other access class is off its offset. -/
theorem Reg.offset_ne_cmd {r : Reg} (h : r.access ≠ .wo) : r.offset ≠ Reg.offset .cmd := fun he =>
  h (by rw [Reg.offset_injective he]; rfl)

/-! ### The values of the registers (R22 to R26, R33) -/

theorem ErrCode.code_le (c : ErrCode) : c.code ≤ 4 := by
  cases c <;> decide

theorem setWidth_ofNat_word32 (n : Nat) :
    (BitVec.ofNat 32 n).setWidth 64 = BitVec.ofNat 64 (n % 2 ^ 32) :=
  BitVec.eq_of_toNat_eq (by simp)

/-- ID holds W and K side by side, so its bitwise OR is a sum (R23). -/
theorem regValue_id (s : State) :
    s.regValue .id = BitVec.ofNat 64 (s.params.width.bits + 6 * 256) := by
  rw [State.regValue, State.idWord, State.limbBits]
  cases s.params.width <;> rfl

theorem regValue_lmemSize (s : State) :
    s.regValue .lmemSize = BitVec.ofNat 64 (s.lmemLimbs % 2 ^ 32) :=
  setWidth_ofNat_word32 _

theorem regValue_ctrl (s : State) : s.regValue .ctrl = BitVec.ofNat 64 s.ie.toNat := by
  rw [State.regValue, State.ctrlWord]
  cases s.ie <;> rfl

/-- The fields of STATUS fit in 32 bits, so none is lost in the word (R26). -/
theorem regValue_status (s : State) :
    s.regValue .status = BitVec.ofNat 64 (s.busy.toNat + 2 * s.status.done.toNat +
      4 * s.status.overrun.toNat + 8 * s.status.hostviol.toNat + 16 * s.status.err.code) := by
  have hbusy := s.busy.toNat_le
  have hdone := s.status.done.toNat_le
  have hover := s.status.overrun.toNat_le
  have hviol := s.status.hostviol.toNat_le
  have hcode := s.status.err.code_le
  rw [State.regValue, State.statusWord, setWidth_ofNat_word32, Nat.mod_eq_of_lt (by omega)]

@[simp] theorem portValue_offset (s : State) (r : Reg) : s.portValue r.offset = s.regValue r := by
  rw [State.portValue, Reg.atOffset_offset]

theorem portValue_unmapped (s : State) {o : Nat} (h : o % 8 ≠ 0 ∨ 0x88 ≤ o) :
    s.portValue o = 0#64 := by
  rw [State.portValue, Reg.atOffset_unmapped h]

/-! ### Host register writes (R30, R31) -/

section

variable {s : State} {r : Reg}

theorem regWrite_cfg (h : r.access = .cfg) (v : Slot) :
    s.regWrite r.offset v = s.writeCfg r v := by
  simp only [State.regWrite, Reg.atOffset_offset, h]

theorem regWrite_ro (h : r.access = .ro) (v : Slot) : s.regWrite r.offset v = s := by
  simp only [State.regWrite, Reg.atOffset_offset, h]

theorem regWrite_ctrl (v : Slot) :
    s.regWrite (Reg.offset .ctrl) v = { s with ie := v.getLsbD 0 } := by
  simp [State.regWrite, Reg.access, State.setCtrl]

theorem regWrite_status (v : Slot) :
    s.regWrite (Reg.offset .status) v = { s with
      status :=
        { done := s.status.done && !v.getLsbD 1
          overrun := s.status.overrun && !v.getLsbD 2
          hostviol := s.status.hostviol && !v.getLsbD 3
          err := s.status.err } } := by
  simp [State.regWrite, Reg.access, State.writeStatus, Status.clearWritten]

theorem regWrite_unmapped {o : Nat} (h : o % 8 ≠ 0 ∨ 0x88 ≤ o) (v : Slot) : s.regWrite o v = s := by
  rw [State.regWrite, Reg.atOffset_unmapped h]

theorem writeCfg_idle (h : s.busy = false) (v : Slot) :
    s.writeCfg r v = { s with cfg := s.cfg.set s.params.width r v } := by
  simp [State.writeCfg, h]

theorem writeCfg_busy (h : s.busy = true) (v : Slot) : s.writeCfg r v = s.setHostviol := by
  simp [State.writeCfg, h]

end

theorem narrowTo_toNat (w : LimbWidth) (v : Slot) : (narrowTo w v).toNat = v.toNat % 2 ^ w.bits := by
  have hle : v.toNat % 2 ^ w.bits ≤ v.toNat := Nat.mod_le _ _
  rw [narrowTo, BitVec.toNat_ofNat, Nat.mod_eq_of_lt (by omega)]

theorem setWidth_word32_toNat (v : Slot) :
    ((v.setWidth 32).setWidth 64).toNat = v.toNat % 2 ^ 32 := by
  rw [BitVec.toNat_setWidth, BitVec.toNat_setWidth]
  omega

/-- A cfg register that takes port data holds the low bits of its width (R30). -/
theorem regValue_set_same {r : Reg} (h : r.access = .cfg) (s : State) (v : Slot) :
    (State.regValue { s with cfg := s.cfg.set s.params.width r v } r).toNat =
      v.toNat % 2 ^ r.width s.params.width := by
  cases r with
  | nquote0 | invX => exact narrowTo_toNat _ v
  | rLimbs | addrOut | addrN | addrA | addrB | addrT | addrScr | addrExp | expBits =>
    exact setWidth_word32_toNat v
  | _ => cases h

/-- The other registers keep their values: the map's two tables, register by register. -/
theorem regValue_set_other {q r : Reg} (h : q ≠ r) (s : State) (v : Slot) :
    State.regValue { s with cfg := s.cfg.set s.params.width r v } q = s.regValue q := by
  have htable : State.regValue { s with cfg := s.cfg.set s.params.width r v } q =
      if q = r then State.regValue { s with cfg := s.cfg.set s.params.width r v } r
      else s.regValue q := by
    cases r <;> cases q <;> rfl
  rw [htable, if_neg h]

/-- A step on a host write to any offset but CMD's is that register write. -/
theorem step_regWrite {s : State} {o : Nat} {v : Slot} {rest : List Event}
    (hb : s.bus = .regWrite o v :: rest) (ho : o ≠ Reg.offset .cmd) :
    step s = .next (State.regWrite { s with bus := rest } o v) := by
  rw [step_event hb, State.serve, State.portWrite, if_neg ho]

/-- Settles O41, clause by clause: which write the offset selects, and then what that write does. -/
theorem hostRegisterWrites : Obligations.HostRegisterWrites := by
  intro s v rest
  refine ⟨fun r hr hb => ?_, fun hb => ?_, fun hb => ?_, fun r hr hb => ?_, fun o ho hb => ?_⟩
  · have hstep := step_regWrite hb (Reg.offset_ne_cmd (by simp [hr]))
    rw [regWrite_cfg hr] at hstep
    constructor
    · intro hidle
      rw [writeCfg_idle (s := { s with bus := rest }) hidle] at hstep
      exact ⟨_, hstep, regValue_set_same hr { s with bus := rest } v,
        fun q hq => regValue_set_other hq { s with bus := rest } v, rfl⟩
    · intro hbusy
      rw [hstep, writeCfg_busy (s := { s with bus := rest }) hbusy, State.setHostviol]
  · rw [step_regWrite hb (by decide)]
    exact congrArg _ (regWrite_ctrl v)
  · rw [step_regWrite hb (by decide)]
    exact congrArg _ (regWrite_status v)
  · rw [step_regWrite hb (Reg.offset_ne_cmd (by simp [hr])), regWrite_ro hr]
  · have hcmd : o ≠ Reg.offset .cmd := by
      rw [Reg.offset]
      omega
    rw [step_regWrite hb hcmd, regWrite_unmapped ho]

/-! ### Host register reads (R33) -/

/-- RST ends with the reset of the registers, whether a command was running or not (R251, R252). -/
theorem assertRst_resets (s : State) : ∃ u : State, s.assertRst = u.resetRegisters := by
  unfold State.assertRst
  split <;> exact ⟨_, rfl⟩

@[simp] theorem assertRst_engine (s : State) : s.assertRst.engine = none := by
  obtain ⟨u, hu⟩ := assertRst_resets s
  rw [hu, resetRegisters_engine]

@[simp] theorem assertRst_status (s : State) : s.assertRst.status = Status.reset := by
  obtain ⟨u, hu⟩ := assertRst_resets s
  rw [hu, resetRegisters_status]

/-- A step on a running command that ends neither by completion nor by a reset leaves INV_Y (R36). -/
theorem step_busy_keeps_invY {s t : State} (h : step s = .next t) (hs : s.busy = true)
    (ht : t.busy = true) : t.invY = s.invY := by
  obtain ⟨e, he⟩ := (busy_iff s).1 hs
  obtain ⟨f, hf⟩ := (busy_iff t).1 ht
  cases step_cases h with
  | flags | move => rfl
  | cfg hn | store hn | storeBytes hn | accept hn | reject hn => cases he.symm.trans hn
  | complete | powerOn => cases hf
  | rst => cases (assertRst_engine _).symm.trans hf

/-- Settles O42: the read itself, INV_Y over a step that stays BUSY, and the value at each offset. -/
theorem hostRegisterReads : Obligations.HostRegisterReads := by
  refine ⟨fun s o rest hb => step_event hb, fun s t h hs ht => ?_, fun s => ?_⟩
  · have hport (u : State) : u.portValue 0x80 = u.invY := portValue_offset u .invY
    rw [hport, hport, step_busy_keeps_invY h hs ht]
  · have hport := portValue_offset s
    exact ⟨(hport .id).trans (regValue_id s), (hport .lmemSize).trans (regValue_lmemSize s),
      (hport .ctrl).trans (regValue_ctrl s), (hport .status).trans (regValue_status s), hport .cmd,
      hport .rLimbs, hport .nquote0, hport .addrOut, hport .addrN, hport .addrA, hport .addrB,
      hport .addrT, hport .addrScr, hport .addrExp, hport .expBits, hport .invX, hport .invY,
      fun _ => portValue_unmapped s⟩

/-! ### The interrupt line (R38, R224) -/

theorem irq_of_done {s : State} (h : s.status.done = true) : s.irq = s.ie := by
  rw [State.irq, h, Bool.true_and]

theorem irq_of_not_done {s : State} (h : s.status.done = false) : s.irq = false := by
  rw [State.irq, h, Bool.false_and]

/-- Settles O45: every clause is the value of DONE that the operation leaves. -/
theorem interruptLine : Obligations.InterruptLine :=
  ⟨fun _ => rfl,
    fun _ => irq_of_not_done rfl,
    fun _ => irq_of_not_done (by rw [assertRst_status]; rfl),
    fun _ v hv => irq_of_not_done (by simp [Status.clearWritten, hv]),
    fun _ _ => irq_of_not_done rfl,
    fun _ _ => irq_of_done rfl,
    fun _ => irq_of_done rfl⟩

end Sys2Proof.Machine
end

section
/-! PROOFS. Command words (30_encoding.md): the decoder and the encoder agree on every word (R81, R82), and
an illegal word is rejected. -/

namespace Sys2Proof.Machine

/-! ### The fields of a word (R80) -/

theorem opField_toNat (w : Word32) : (opField w).toNat = w.toNat % 16 := by
  simp [opField]

/-- RSV is what is left of the word above OP. -/
theorem rsvField_eq_zero_iff (w : Word32) : rsvField w = 0#28 ↔ w.toNat / 16 = 0 := by
  have hfield : (rsvField w).toNat = w.toNat / 16 := by
    rw [rsvField, BitVec.extractLsb'_toNat, Nat.shiftRight_eq_div_pow]
    omega
  rw [← hfield, BitVec.toNat_eq, BitVec.toNat_ofNat, Nat.zero_mod]

/-! ### The opcode map (R81) -/

theorem opcode_range (i : Instr) : 1 ≤ i.opcode.toNat ∧ i.opcode.toNat ≤ 6 := by
  cases i <;> decide

/-- The map inverts `Instr.opcode`; a finite table, so both directions are read off it. -/
theorem opcodeMap_eq_some_iff (op : BitVec 4) (i : Instr) :
    opcodeMap op = some i ↔ op.toNat = i.opcode.toNat := by
  revert op
  cases i <;> decide

/-- The opcodes are exactly 1 to 6. -/
theorem exists_opcode_iff (n : Nat) : (∃ i : Instr, n = i.opcode.toNat) ↔ 1 ≤ n ∧ n ≤ 6 := by
  constructor
  · rintro ⟨i, rfl⟩
    exact opcode_range i
  · rintro ⟨hlow, hhigh⟩
    interval_cases n
    exacts [⟨.inv1, rfl⟩, ⟨.redc, rfl⟩, ⟨.mul, rfl⟩, ⟨.sqr, rfl⟩, ⟨.build, rfl⟩, ⟨.modpow, rfl⟩]

/-! ### The decoder and the encoder (R82) -/

/-- The encoder zero-extends the opcode (R81). -/
theorem encode_toNat (i : Instr) : (encode i).toNat = i.opcode.toNat := by
  cases i <;> rfl

/-- A word decodes exactly when RSV = 0 and the map has its OP. -/
theorem decode_eq_ok_iff (w : Word32) (i : Instr) :
    decode w = .ok i ↔ rsvField w = 0#28 ∧ opcodeMap (opField w) = some i := by
  unfold decode
  split
  · cases opcodeMap (opField w) <;> simp [*]
  · simp [*]

/-- The same, read off the number that the word is. -/
theorem decode_eq_ok_iff_toNat (w : Word32) (i : Instr) :
    decode w = .ok i ↔ w.toNat / 16 = 0 ∧ w.toNat % 16 = i.opcode.toNat := by
  rw [decode_eq_ok_iff, rsvField_eq_zero_iff, opcodeMap_eq_some_iff, opField_toNat]

/-- An opcode is below 16, so a word with RSV = 0 is its OP. -/
theorem decode_eq_ok_iff_encode (w : Word32) (i : Instr) : decode w = .ok i ↔ w = encode i := by
  obtain ⟨_, hhigh⟩ := opcode_range i
  rw [decode_eq_ok_iff_toNat, BitVec.toNat_eq, encode_toNat]
  omega

theorem exists_decode_iff (w : Word32) :
    (∃ i, decode w = .ok i) ↔ w.toNat / 16 = 0 ∧ 1 ≤ w.toNat % 16 ∧ w.toNat % 16 ≤ 6 := by
  simp only [decode_eq_ok_iff_toNat, exists_and_left, exists_opcode_iff]

/-- The decoder is total: a word that is no command is an illegal word. -/
theorem decode_eq_error_of_not_ok {w : Word32} (h : ¬ ∃ i, decode w = .ok i) :
    ∃ why, decode w = .error why := by
  cases hw : decode w with
  | ok i => exact absurd ⟨i, hw⟩ h
  | error why => exact ⟨why, rfl⟩

/-! ### The CMD write (R100) -/

/-- A step on a host write to CMD is the CMD write of the low 32 bits (R22, R30). -/
theorem step_cmdWrite {s : State} {v : Slot} {rest : List Event}
    (hb : s.bus = .regWrite (Reg.offset .cmd) v :: rest) :
    step s = State.cmdWrite { s with bus := rest } (v.setWidth 32) := by
  rw [step_event hb, State.serve, State.portWrite, if_pos rfl]

/-- A rejection overwrites the ERR and DONE that the CMD write cleared, so STATUS ends with the code and
DONE, and nothing else changes (R102, R107). -/
theorem beginCommand_raiseCmdError (s : State) (code : ErrCode) :
    s.beginCommand.raiseCmdError code =
      { s with status := { s.status with done := true, err := code } } := rfl

/-- The step in which the host writes an illegal word to CMD of an idle engine (R103, R107). -/
theorem step_illegalWord {s : State} {v : Slot} {rest : List Event} {why : IllegalWord}
    (hidle : s.busy = false) (hb : s.bus = .regWrite (Reg.offset .cmd) v :: rest)
    (hw : decode (v.setWidth 32) = .error why) :
    step s = .next { s with
      bus := rest
      status := { s.status with done := true, err := .illegalCmd } } := by
  rw [step_cmdWrite hb, cmdWrite_illegal (s := { s with bus := rest }) hidle hw,
    beginCommand_raiseCmdError]

/-- Settles O2: the two descriptions of a command word, and the step on a word that is none. -/
theorem onlySixWordsAreCommands : Obligations.OnlySixWordsAreCommands := by
  refine ⟨decode_eq_ok_iff_encode, exists_decode_iff, ?_⟩
  rintro s w v rest hidle hword hb rfl
  obtain ⟨why, hw⟩ := decode_eq_error_of_not_ok (mt (exists_decode_iff _).1 hword)
  exact step_illegalWord hidle hb hw

end Sys2Proof.Machine
end

section
/-! PROOFS. The life of a command up to its acceptance (40_command_control.md): the operand checks and
their order (R103 to R105), the CMD write of an idle engine (R102, R106, R107), and the overrun (R101). -/

namespace Sys2Proof.Machine

/-! ### The range and overlap conditions (R104, R105) -/

/-- The range condition compares the end of each buffer that is not empty with LMEM_LIMBS (R104). -/
theorem rangeViolation_iff (i : Instr) (s : State) :
    rangeViolation i s = true ↔
      ∃ b ∈ buffers i s, 0 < b.span.len ∧ s.lmemLimbs < b.span.base + b.span.len := by
  simp [rangeViolation, Interval.outside]

theorem Interval.partlyOverlaps_iff (x y : Interval) :
    x.partlyOverlaps y = true ↔ x.partlyShares y := by
  rw [Interval.partlyOverlaps, Interval.partlyShares, Bool.and_eq_true, Interval.overlaps_iff_shares,
    Bool.not_eq_true', ← Bool.not_eq_true, Interval.coincides_iff]

/-- The comparisons of R105's table say what it says with shared addresses, row by row. -/
theorem aliasViolation_iff (i : Instr) (s : State) :
    aliasViolation i s = true ↔ forbiddenOverlap s i := by
  cases i <;>
    simp [aliasViolation, forbiddenOverlap, Interval.overlaps_iff_shares,
      Interval.partlyOverlaps_iff, or_assoc]

/-! ### The order of the checks (R103) -/

theorem checkOperands_of_empty {i : Instr} {s : State} (hi : i ≠ .inv1) (hr : s.r = 0) :
    checkOperands i s = .badLen := by
  rw [checkOperands, if_neg hi, if_pos hr]

/-- With r ≥ 1, RANGE comes before ALIAS. -/
theorem checkOperands_of_pos {i : Instr} {s : State} (hi : i ≠ .inv1) (hr : s.r ≠ 0) :
    checkOperands i s =
      if rangeViolation i s then .range else if aliasViolation i s then .overlap else .none := by
  rw [checkOperands, if_neg hi, if_neg hr]

/-- Settles O6: the two conditions, each said as the spec says it, in the order of the checks. -/
theorem checksAreInOrder : Obligations.ChecksAreInOrder := by
  refine ⟨fun s => rfl, fun i s hi => ⟨checkOperands_of_empty hi, fun hr => ?_⟩⟩
  rw [checkOperands_of_pos hi hr, ← aliasViolation_iff]
  refine ⟨fun hout => if_pos ((rangeViolation_iff i s).2 hout), fun hin => ?_⟩
  have hrange : ¬ rangeViolation i s = true := by
    rw [rangeViolation_iff]
    rintro ⟨b, hb, hlen, hend⟩
    have := hin b hb
    omega
  rw [if_neg hrange]
  exact ⟨fun h => if_pos h, fun h => if_neg h⟩

/-! ### Rejection (R107) -/

/-- A command given to an idle engine whose operands fail a check (R103, R107). -/
theorem exec_rejected {i : Instr} {s : State} (hidle : s.busy = false)
    (hc : checkOperands i s ≠ .none) :
    exec i s = .next { s with
      status := { s.status with done := true, err := checkOperands i s } } := by
  rw [exec_idle hidle]
  obtain ⟨hok, -⟩ | ⟨-, hissue⟩ := issue_cases s i
  · exact absurd hok hc
  · rw [hissue, beginCommand_raiseCmdError]

/-- The step in which the host writes to CMD of an idle engine a command that fails a check. -/
theorem step_rejected {s : State} {v : Slot} {rest : List Event} {i : Instr}
    (hidle : s.busy = false) (hb : s.bus = .regWrite (Reg.offset .cmd) v :: rest)
    (hw : decode (v.setWidth 32) = .ok i) (hc : checkOperands i s ≠ .none) :
    step s = .next { s with
      bus := rest
      status := { s.status with done := true, err := checkOperands i s } } := by
  have hkeep : checkOperands i { s with bus := rest } = checkOperands i s :=
    checkOperands_congr rfl rfl i
  rw [step_cmdWrite hb, cmdWrite_decoded (s := { s with bus := rest }) hidle hw,
    exec_rejected (s := { s with bus := rest }) hidle (by rwa [hkeep]), hkeep]

/-- The fields of STATUS side by side, as the number the host reads (R26). -/
theorem regValue_status_toNat (s : State) :
    (s.regValue .status).toNat = s.busy.toNat + 2 * s.status.done.toNat +
      4 * s.status.overrun.toNat + 8 * s.status.hostviol.toNat + 16 * s.status.err.code := by
  have hbusy := s.busy.toNat_le
  have hdone := s.status.done.toNat_le
  have hover := s.status.overrun.toNat_le
  have hviol := s.status.hostviol.toNat_le
  have hcode := s.status.err.code_le
  rw [regValue_status, BitVec.toNat_ofNat, Nat.mod_eq_of_lt (by omega)]

/-- STATUS of an idle engine whose DONE is set: BUSY = 0, DONE = 1 and the code (R26). -/
theorem regValue_status_fields {s : State} (hidle : s.busy = false) (hdone : s.status.done = true) :
    (s.regValue .status).getLsbD 0 = false ∧ (s.regValue .status).getLsbD 1 = true ∧
      (s.regValue .status).toNat / 16 = s.status.err.code := by
  have hword := regValue_status_toNat s
  have hover := s.status.overrun.toNat_le
  have hviol := s.status.hostviol.toNat_le
  rw [hidle, hdone, Bool.toNat_false, Bool.toNat_true] at hword
  simp only [BitVec.getLsbD, Nat.testBit_eq_decide_div_mod_eq, decide_eq_true_eq,
    decide_eq_false_iff_not]
  omega

/-- The host's read of STATUS after a command has ended (R26, R33). -/
theorem step_regRead_status {s : State} {rest : List Event} (hidle : s.busy = false)
    (hdone : s.status.done = true) (hb : s.bus = .regRead (Reg.offset .status) :: rest) :
    ∃ (u : State) (d : Slot), step s = .next u ∧ u.readData = some d ∧ d.getLsbD 0 = false ∧
      d.getLsbD 1 = true ∧ d.toNat / 16 = s.status.err.code :=
  ⟨_, _, step_event hb, congrArg some (portValue_offset _ .status),
    regValue_status_fields (s := { s with bus := rest }) hidle hdone⟩

/-- Settles O4: the rejection as `exec`, as the step of the CMD write, and as the host then reads it. -/
theorem failedCheckRejects : Obligations.FailedCheckRejects := by
  intro s hidle
  refine ⟨fun i hc => exec_rejected hidle hc, fun v rest hb =>
    ⟨fun why hw => step_illegalWord hidle hb hw, fun i hw hc => step_rejected hidle hb hw hc⟩, ?_⟩
  rintro code t rest rfl
  exact ⟨hidle, irq_of_done rfl, step_regRead_status (s := s.raiseCmdError code) hidle rfl⟩

/-! ### The CMD write of an idle engine (R102) -/

/-- Clearing DONE and ERR before the CMD write changes nothing: the write clears them itself. -/
theorem cmdWrite_beginCommand {s : State} (hidle : s.busy = false) (w : Word32) :
    s.beginCommand.cmdWrite w = s.cmdWrite w := by
  have hidle' : s.beginCommand.busy = false := hidle
  cases hw : decode w with
  | error why => rw [cmdWrite_illegal hidle hw, cmdWrite_illegal hidle' hw]; rfl
  | ok i =>
    rw [cmdWrite_decoded hidle hw, cmdWrite_decoded hidle' hw, exec_idle hidle, exec_idle hidle']
    rfl

/-- A CMD write to an idle engine has two outcomes: acceptance, and rejection with a code (R103). -/
theorem cmdWrite_idle_cases {s : State} (hidle : s.busy = false) (w : Word32) :
    (∃ i, s.cmdWrite w = .next (s.beginCommand.accept i)) ∨
      ∃ code, code ≠ .none ∧ s.cmdWrite w = .next (s.beginCommand.raiseCmdError code) := by
  cases hw : decode w with
  | error why => exact .inr ⟨.illegalCmd, by decide, cmdWrite_illegal hidle hw⟩
  | ok i =>
    rw [cmdWrite_decoded hidle hw, exec_idle hidle]
    obtain ⟨-, hissue⟩ | ⟨hc, hissue⟩ := issue_cases s i
    · exact .inl ⟨i, congrArg _ hissue⟩
    · exact .inr ⟨_, hc, congrArg _ hissue⟩

/-- Settles O5: the flags are read off the two outcomes. -/
theorem commandWriteClearsStatus : Obligations.CommandWriteClearsStatus := by
  refine fun s w hidle => ⟨(cmdWrite_beginCommand hidle w).symm, ?_⟩
  obtain ⟨i, haccept⟩ | ⟨code, hcode, hreject⟩ := cmdWrite_idle_cases hidle w
  · exact ⟨_, haccept, rfl, rfl, fun _ => ⟨rfl, rfl⟩, fun hnot => absurd hnot (by simp [State.busy])⟩
  · exact ⟨_, hreject, rfl, rfl, fun hbusy => absurd (hbusy.symm.trans hidle) (by decide),
      fun _ => ⟨rfl, hcode⟩⟩

/-! ### The overrun (R101) -/

/-- Settles O7: the CMD write of any word to a busy engine sets OVERRUN. -/
theorem overrunDiscardsWord : Obligations.OverrunDiscardsWord := by
  intro s v rest hb hbusy
  rw [step_cmdWrite hb, cmdWrite_busy (s := { s with bus := rest }) hbusy, State.setOverrun]

end Sys2Proof.Machine
end

section
/-! PROOFS. What the results of a command depend on (40_command_control.md R111): two machines that hold the
same operands publish the same values. -/

namespace Sys2Proof.Machine

/-! ### Limbs and effects -/

/-- What is touched only in given intervals keeps every limb outside them. -/
theorem Touches.limb_kept {l : List Interval} {s t : State} (h : Touches l s t) {a : Nat}
    (ha : ∀ x ∈ l, x.has a = false) : t.limb a = s.limb a := by
  have hbytes : t.limbBytes = s.limbBytes := by rw [State.limbBytes, h.params, State.limbBytes]
  rw [State.limb, State.limb, hbytes]
  refine congrArg (valOf 8) (bytesAt_congr fun k hlo hhi => h.kept k ?_)
  have hlimb : k / s.limbBytes = a := Nat.div_eq_of_lt_le hlo (by rwa [Nat.succ_mul])
  rwa [hlimb]

/-- Entries of r limbs each, one after another: limb k of them is limb k mod r of entry k / r (R194). -/
theorem limb_writeEntries (l : List Nat) : ∀ (s : State) (o k : Nat), k < l.length * s.r →
    (s.writeEntries o l).limb (o + k) = limbOf s.limbBits (l.getD (k / s.r) 0) (k % s.r) := by
  induction l with
  | nil => intro s o k hk; simp at hk
  | cons x xs ih =>
    intro s o k hk
    rw [List.length_cons, Nat.succ_mul] at hk
    rw [State.writeEntries]
    by_cases hfirst : k < s.r
    · have hlater := Touches_writeEntries xs (s.memWrite o s.r x) (o + s.r)
      rw [hlater.limb_kept (by simp [Interval.has, hfirst]), limb_memWrite s o x hfirst,
        Nat.div_eq_of_lt hfirst, Nat.mod_eq_of_lt hfirst, List.getD_cons_zero]
    · obtain ⟨j, rfl⟩ := Nat.exists_eq_add_of_le (Nat.le_of_not_lt hfirst)
      have hj : j < xs.length * s.r := by omega
      have hr : 0 < s.r := Nat.pos_of_mul_pos_left (Nat.zero_lt_of_lt hj)
      rw [← Nat.add_assoc, ih (s.memWrite o s.r x) (o + s.r) j hj, memWrite_r, memWrite_limbBits,
        Nat.add_div_left _ hr, Nat.add_mod_left, List.getD_cons_succ]

/-- A command that publishes in LMEM leaves its results one after another from ADDR_OUT (R110, R194). -/
theorem limb_effectOf_out {i : Instr} {s : State} (hi : i ≠ .inv1) (hc : checkOperands i s = .none)
    {k : Nat} (hk : k < (resultsOf s i).length * s.r) :
    (effectOf i s).limb (s.cfg.addrOut.toNat + k) =
      limbOf s.limbBits ((resultsOf s i).getD (k / s.r) 0) (k % s.r) := by
  cases i with
  | inv1 => exact absurd rfl hi
  | redc => exact limb_writeEntries _ (s.drawLimbs s.cfg.addrT.toNat (2 * s.r)) _ k hk
  | mul | sqr => exact limb_writeEntries _ (s.drawLimbs s.cfg.addrScr.toNat (4 * s.r)) _ k hk
  | modpow => exact limb_writeEntries _ (s.drawLimbs s.cfg.addrScr.toNat (68 * s.r)) _ k hk
  | build =>
    have hfree : ¬ forbiddenOverlap s .build := by
      rw [← aliasViolation_iff, aliasViolation_of_checked hc]
      exact Bool.false_ne_true
    have hlen : (buildResult s).length = 64 := buildTable_length _ _ _ _ _
    have hout : (s.outSpan (64 * s.r)).has (s.cfg.addrOut.toNat + k) = true :=
      (Interval.has_iff _ _).2 ⟨Nat.le_add_right _ _, Nat.add_lt_add_left (hlen ▸ hk) _⟩
    change k < (buildResult s).length * s.r at hk
    change (s.publishTable (buildResult s)).limb _ = limbOf _ ((buildResult s).getD _ 0) _
    generalize buildResult s = table at hk ⊢
    rw [State.publishTable, (Touches_drawLimbs _ _ _).limb_kept, limb_writeEntries table s _ k hk]
    intro x hx
    obtain rfl := List.mem_singleton.1 hx
    by_contra hscr
    exact hfree (.inl ⟨_, List.mem_cons_self, _, Bool.eq_true_of_not_eq_false hscr, hout⟩)

theorem resultsOf_length (i : Instr) (s : State) :
    (resultsOf s i).length = if i = .build then 64 else 1 := by
  cases i with
  | build => exact buildTable_length _ _ _ _ _
  | _ => rfl

/-- The output interval has room for the results, r limbs each (R84, R110). -/
theorem span_of_out_buffer {i : Instr} {s : State} :
    ∀ b ∈ buffers i s, b.name = .out → b.span = s.outSpan ((resultsOf s i).length * s.r) := by
  rw [resultsOf_length]
  cases i <;> simp [buffers]

/-! ### Machines that hold the same operands -/

/-- The intervals of LMEM that a command reads (R84, R111): those of its `in` and `inout` buffers. -/
def readSpans (i : Instr) (s : State) : List Interval :=
  ((buffers i s).filter fun b => b.role ≠ .output ∧ b.role ≠ .scratch).map Buffer.span

theorem mem_readSpans {i : Instr} {s : State} {x : Interval} :
    x ∈ readSpans i s ↔ ∃ b ∈ buffers i s, b.role ≠ .output ∧ b.role ≠ .scratch ∧ b.span = x := by
  simp [readSpans, and_assoc]

/-- Every command but INV1 reads N. -/
theorem nSpan_mem_readSpans {i : Instr} (hi : i ≠ .inv1) (s : State) : s.nSpan ∈ readSpans i s := by
  cases i with
  | inv1 => exact absurd rfl hi
  | _ => simp [readSpans, buffers]

/-- Two machines with the same parameters and cfg registers that hold the same limbs wherever command `i`
reads (R111). -/
structure SameInputs (i : Instr) (s u : State) : Prop where
  params : u.params = s.params
  cfg : u.cfg = s.cfg
  limbs : ∀ x ∈ readSpans i s, ∀ a, x.has a = true → u.limb a = s.limb a

namespace SameInputs

section
variable {i : Instr} {s u : State} (h : SameInputs i s u)
include h

theorem limbBits_eq : u.limbBits = s.limbBits := by rw [State.limbBits, h.params, State.limbBits]

theorem r_eq : u.r = s.r := by rw [State.r, h.cfg, State.r]

theorem nq_eq : u.nq = s.nq := by rw [State.nq, h.cfg, State.nq]

theorem expLen_eq : u.expLen = s.expLen := by rw [State.expLen, h.cfg, State.expLen]

theorem blocks_eq : u.blocks = s.blocks := by rw [State.blocks, h.expLen_eq, State.blocks]

/-- Both machines read the same integer from an interval that the command reads (R9). -/
theorem memRead_eq {x : Interval} (hx : x ∈ readSpans i s) :
    u.memRead x.base x.len = s.memRead x.base x.len := by
  rw [memRead_eq_sum, memRead_eq_sum, h.limbBits_eq]
  refine Finset.sum_congr rfl fun j hj => ?_
  have hhas : x.has (x.base + j) = true :=
    (x.has_iff _).2 ⟨Nat.le_add_right _ _, Nat.add_lt_add_left (Finset.mem_range.1 hj) _⟩
  rw [h.limbs x hx _ hhas]

theorem nVal_eq (hi : i ≠ .inv1) : u.nVal = s.nVal := by
  rw [State.nVal, h.cfg, h.r_eq]
  exact h.memRead_eq (nSpan_mem_readSpans hi s)

theorem aVal_eq (ha : s.aSpan ∈ readSpans i s) : u.aVal = s.aVal := by
  rw [State.aVal, h.cfg, h.r_eq]
  exact h.memRead_eq ha

theorem bVal_eq (hb : s.bSpan ∈ readSpans i s) : u.bVal = s.bVal := by
  rw [State.bVal, h.cfg, h.r_eq]
  exact h.memRead_eq hb

theorem accVal_eq (ho : s.outSpan s.r ∈ readSpans i s) : u.accVal = s.accVal := by
  rw [State.accVal, h.cfg, h.r_eq]
  exact h.memRead_eq ho

theorem buildResult_eq (hi : i ≠ .inv1) (ha : s.aSpan ∈ readSpans i s) :
    buildResult u = buildResult s := by
  rw [buildResult, h.limbBits_eq, h.nVal_eq hi, h.nq_eq, h.r_eq, h.aVal_eq ha, buildResult]

/-- The bits of the exponent below L lie in the limbs of its buffer, and the others are 0 (R202). -/
theorem ebit_eq (he : s.expSpan ∈ readSpans i s) (p : Nat) : u.ebit p = s.ebit p := by
  rw [State.ebit, State.ebit, h.expLen_eq, h.cfg, h.limbBits_eq]
  split
  case isTrue => rfl
  case isFalse hp =>
    have hbits : 0 < s.limbBits := Nat.zero_lt_of_lt (limbBits_ge s)
    have hlimb : p / s.limbBits < s.expLimbs := by
      rw [State.expLimbs, ceilDiv, Nat.lt_iff_add_one_le, ← Nat.add_div_right p hbits]
      exact Nat.div_le_div_right (by omega)
    have hhas : s.expSpan.has (s.cfg.addrExp.toNat + p / s.limbBits) = true :=
      (s.expSpan.has_iff _).2 ⟨Nat.le_add_right _ _, Nat.add_lt_add_left hlimb _⟩
    rw [h.limbs _ he _ hhas]

end

end SameInputs

/-- The windows of the exponent are made of its bits alone (R202). -/
theorem windowsBelow_congr {s u : State} (h : ∀ p, u.ebit p = s.ebit p) (k : Nat) :
    u.windowsBelow k = s.windowsBelow k := by
  have hbits : ∀ n p, u.ebits p n = s.ebits p n := by
    intro n
    induction n with
    | zero => exact fun p => rfl
    | succ n ih => exact fun p => by rw [State.ebits, State.ebits, h, ih]
  induction k with
  | zero => rfl
  | succ k ih => rw [State.windowsBelow, State.windowsBelow, State.window, State.window, hbits, ih]

/-- The results a command owes are a function of its registers and of the limbs it reads (R111). -/
theorem SameInputs.resultsOf_eq {i : Instr} {s u : State} (h : SameInputs i s u) :
    resultsOf u i = resultsOf s i := by
  cases i with
  | inv1 => simp only [resultsOf, State.invArg, h.cfg, h.limbBits_eq]
  | redc =>
    have ht : u.memRead s.cfg.addrT.toNat (2 * s.r) = s.memRead s.cfg.addrT.toNat (2 * s.r) :=
      h.memRead_eq (x := s.tSpan) (by simp [readSpans, buffers])
    simp only [resultsOf, redcResult, h.cfg, h.limbBits_eq, h.r_eq, h.nq_eq, ht,
      h.nVal_eq (by decide)]
  | mul =>
    have ha := h.aVal_eq (by simp [readSpans, buffers])
    have hb := h.bVal_eq (by simp [readSpans, buffers])
    simp only [resultsOf, mulResult, h.limbBits_eq, h.r_eq, h.nq_eq, h.nVal_eq (by decide), ha, hb]
  | sqr =>
    have ha := h.aVal_eq (by simp [readSpans, buffers])
    simp only [resultsOf, sqrResult, h.limbBits_eq, h.r_eq, h.nq_eq, h.nVal_eq (by decide), ha]
  | build => exact h.buildResult_eq (by decide) (by simp [readSpans, buffers])
  | modpow =>
    have htable := h.buildResult_eq (by decide) (by simp [readSpans, buffers])
    have hacc := h.accVal_eq (by simp [readSpans, buffers])
    have hwindows := windowsBelow_congr (h.ebit_eq (by simp [readSpans, buffers]))
    simp only [resultsOf, modpowResult, h.limbBits_eq, h.r_eq, h.nq_eq, h.nVal_eq (by decide),
      h.blocks_eq, htable, hacc, hwindows]

/-! ### Completion -/

/-- The completion of a running command that has passed its checks (R108). -/
theorem exec_completes {i : Instr} {s : State} (hbusy : s.busy = true)
    (hc : checkOperands i s = .none) : exec i s = .next (effectOf i s).endCommand := by
  rw [exec_busy hbusy, completeWith_checked _ (rangeViolation_of_checked hc)]

theorem limb_endCommand (s : State) (a : Nat) : s.endCommand.limb a = s.limb a :=
  (Touches_endCommand (Touches_refl [] s)).limb_kept (by simp)

/-- Settles O50: both machines owe the same results, INV_Y is the result of INV1, and the limbs of an output
interval are those of the results. -/
theorem resultsDependOnlyOnInputs : Obligations.ResultsDependOnlyOnInputs := by
  intro i s u hs hu hp hcfg hc hin
  have h : SameInputs i s u :=
    { params := hp.symm
      cfg := hcfg.symm
      limbs := fun x hx => by
        obtain ⟨b, hb, hout, hscr, rfl⟩ := mem_readSpans.1 hx
        exact hin b hb hout hscr }
  have hcu : checkOperands i u = .none := (checkOperands_congr h.params h.cfg i).trans hc
  refine ⟨_, _, exec_completes hs hc, exec_completes hu hcu, ?_, fun b hb hname a ha => ?_⟩
  · rintro rfl
    exact congrArg (fun l => BitVec.ofNat 64 (l.headD 0)) h.resultsOf_eq
  · have hi : i ≠ .inv1 := by
      rintro rfl
      cases hb
    rw [span_of_out_buffer b hb hname, Interval.has_iff] at ha
    obtain ⟨k, rfl⟩ := Nat.exists_eq_add_of_le ha.1
    have hk : k < (resultsOf s i).length * s.r := Nat.lt_of_add_lt_add_left ha.2
    have hout := limb_effectOf_out hi hcu (k := k) (by rwa [h.resultsOf_eq, h.r_eq])
    rw [h.cfg, h.limbBits_eq, h.resultsOf_eq, h.r_eq, ← limb_effectOf_out hi hc hk] at hout
    rw [limb_endCommand, limb_endCommand]
    exact hout

end Sys2Proof.Machine
end

section
/-! PROOFS. The limb operations of the datapath (41_datapath.md R120): each pair is the exact value split at
2 ^ W, and a subtraction either fits or wraps once. -/

namespace Sys2Proof.Machine

/-! ### The pairs of MulLL, AddC and MulAddC -/

/-- A value below c * 2 ^ W is exactly its two halves, the high one below c. -/
theorem divMod_exact {w v c : Nat} (h : v < c * 2 ^ w) :
    v / 2 ^ w * 2 ^ w + v % 2 ^ w = v ∧ v / 2 ^ w < c ∧ v % 2 ^ w < 2 ^ w :=
  ⟨Nat.div_add_mod' v _, (Nat.div_lt_iff_lt_mul (Nat.two_pow_pos w)).2 h,
    Nat.mod_lt _ (Nat.two_pow_pos w)⟩

/-- A product of two limbs with two more limbs added fits two limbs: the largest such sum is
(B - 1)^2 + 2 (B - 1) = B^2 - 1. -/
theorem mul_add_add_lt {B x y z cy : Nat} (hx : x < B) (hy : y < B) (hz : z < B) (hcy : cy < B) :
    x * y + z + cy < B * B := by
  obtain ⟨b, rfl⟩ := Nat.exists_eq_add_of_lt hx
  have hxy : x * y ≤ (x + b) * (x + b) := Nat.mul_le_mul (by omega) (by omega)
  have hsq : (x + b + 1) * (x + b + 1) = (x + b) * (x + b) + 2 * (x + b) + 1 := by ring
  omega

theorem mulAddC_exact {w x y z cy : Nat} (hx : x < 2 ^ w) (hy : y < 2 ^ w) (hz : z < 2 ^ w)
    (hcy : cy < 2 ^ w) :
    (mulAddC w x y z cy).1 * 2 ^ w + (mulAddC w x y z cy).2 = x * y + z + cy ∧
      (mulAddC w x y z cy).1 < 2 ^ w ∧ (mulAddC w x y z cy).2 < 2 ^ w :=
  divMod_exact (mul_add_add_lt hx hy hz hcy)

/-- MulLL is MulAddC with nothing to add. -/
theorem mulLL_exact {w x y : Nat} (hx : x < 2 ^ w) (hy : y < 2 ^ w) :
    (mulLL w x y).1 * 2 ^ w + (mulLL w x y).2 = x * y ∧
      (mulLL w x y).1 < 2 ^ w ∧ (mulLL w x y).2 < 2 ^ w :=
  mulAddC_exact hx hy (Nat.two_pow_pos w) (Nat.two_pow_pos w)

theorem addC_exact {w x y b : Nat} (hx : x < 2 ^ w) (hy : y < 2 ^ w) (hb : b ≤ 1) :
    (addC w x y b).1 * 2 ^ w + (addC w x y b).2 = x + y + b ∧
      (addC w x y b).1 ≤ 1 ∧ (addC w x y b).2 < 2 ^ w := by
  obtain ⟨hsum, hco, hs⟩ := divMod_exact (w := w) (v := x + y + b) (c := 2) (by omega)
  exact ⟨hsum, Nat.le_of_lt_succ hco, hs⟩

/-! ### SubB -/

/-- Where the difference is not negative, reducing it does nothing. -/
theorem subMod_of_le {x y m : Nat} (h : y ≤ x) (hx : x < y + m) : subMod x y m = x - y := by
  rw [subMod, Int.emod_eq_of_lt (by omega) (by omega)]
  omega

/-- Where the difference is negative, reducing it adds the modulus once. -/
theorem subMod_of_lt {x y m : Nat} (h : x < y) (hy : y ≤ x + m) : subMod x y m = x + m - y := by
  rw [subMod, ← Int.add_emod_right, Int.emod_eq_of_lt (by omega) (by omega)]
  omega

theorem subB_of_le {w x y b : Nat} (h : y + b ≤ x) (hx : x < 2 ^ w) :
    subB w x y b = (0, x - (y + b)) := by
  rw [subB, if_neg (Nat.not_lt.2 h), subMod_of_le h (by omega)]

theorem subB_of_lt {w x y b : Nat} (h : x < y + b) (hy : y + b ≤ 2 ^ w) :
    subB w x y b = (1, x + 2 ^ w - (y + b)) := by
  rw [subB, if_pos h, subMod_of_lt h (by omega)]

theorem subB_borrow_iff (w x y b : Nat) : (subB w x y b).1 = 1 ↔ x < y + b := by
  simp [subB]

theorem subB_exact {w x y b : Nat} (hx : x < 2 ^ w) (hy : y < 2 ^ w) (hb : b ≤ 1) :
    (subB w x y b).2 + y + b = x + (subB w x y b).1 * 2 ^ w ∧
      (subB w x y b).1 ≤ 1 ∧ (subB w x y b).2 < 2 ^ w := by
  rcases Nat.lt_or_ge x (y + b) with h | h
  · rw [subB_of_lt h (by omega)]
    dsimp only
    omega
  · rw [subB_of_le h hx]
    dsimp only
    omega

/-- Settles O29, row by row of the table of R120. -/
theorem limbOperationsAreExact : Obligations.LimbOperationsAreExact := by
  intro w x y z cy b hx hy hz hcy hb
  obtain ⟨hdiff, hbo, hd⟩ := subB_exact hx hy hb
  exact ⟨mulLL_exact hx hy, rfl, addC_exact hx hy hb, mulAddC_exact hx hy hz hcy,
    hdiff, hbo, hd, subB_borrow_iff w x y b⟩

end Sys2Proof.Machine
end

section
/-! PROOFS. REDC (43_redc.md): the sweep is exact and clears the lower half, so that Redc is one conditional
subtraction from (T + M*N) / R (R152, R154); and the completion of the command (R150, R155). -/

namespace Sys2Proof.Machine

/-! ### The carry of the sweep (R154) -/

/-- The value that carry and working area hold together: c * R2 + T (R152). -/
def sweepTotal (w r : Nat) (tc : Nat × Bool) : Nat := tc.1 + if tc.2 then 2 ^ (2 * r * w) else 0

/-- The digit `m` of iteration i on T (R151). -/
def sweepDigit (w nq i t : Nat) : Nat := limbOf w t i * nq % 2 ^ w

theorem sweepDigit_lt (w nq i t : Nat) : sweepDigit w nq i t < 2 ^ w :=
  Nat.mod_lt _ (Nat.two_pow_pos w)

/-- Where the whole value is below 2B, at most one of the sticky carry and the new carry is 1, so their OR
loses nothing. -/
theorem sticky_carry_exact {a B : Nat} {c : Bool} (h : a + (if c then B else 0) < 2 * B) :
    (a % B + if c || a / B != 0 then B else 0) = a + if c then B else 0 := by
  rcases Nat.lt_or_ge a B with hlt | hge
  · rw [Nat.mod_eq_of_lt hlt, Nat.div_eq_of_lt hlt]
    cases c <;> rfl
  · cases c with
    | true =>
      rw [if_pos rfl] at h
      omega
    | false =>
      rw [if_neg Bool.false_ne_true] at h
      have hquot : a / B = 1 := Nat.div_eq_of_lt_le (by omega) (by omega)
      have hrem : a % B = a - B := by rw [Nat.mod_eq_sub_mod hge, Nat.mod_eq_of_lt (by omega)]
      rw [hquot, hrem]
      exact Nat.sub_add_cancel hge

/-- Iteration i adds m * N * 2^(i*W), where the sum stays below 2 * R2. -/
theorem sweepTotal_redcStep {w n nq r i : Nat} {tc : Nat × Bool}
    (h : sweepTotal w r tc + sweepDigit w nq i tc.1 * n * 2 ^ (i * w) < 2 * 2 ^ (2 * r * w)) :
    sweepTotal w r (redcStep w n nq r i tc) =
      sweepTotal w r tc + sweepDigit w nq i tc.1 * n * 2 ^ (i * w) := by
  unfold sweepTotal at h ⊢
  rw [Nat.add_right_comm] at h ⊢
  exact sticky_carry_exact h

theorem two_pow_double (r w : Nat) : 2 ^ (2 * r * w) = 2 ^ (r * w) * 2 ^ (r * w) := by
  rw [← pow_add]
  congr 1
  ring

/-- A digit above k limbs makes k + 1 limbs. -/
theorem add_digit_lt {w k m d : Nat} (hm : m < 2 ^ (k * w)) (hd : d < 2 ^ w) :
    m + d * 2 ^ (k * w) < 2 ^ ((k + 1) * w) := by
  calc m + d * 2 ^ (k * w) < (d + 1) * 2 ^ (k * w) := by rw [Nat.succ_mul]; omega
    _ ≤ 2 ^ w * 2 ^ (k * w) := Nat.mul_le_mul_right _ hd
    _ = 2 ^ ((k + 1) * w) := by rw [← pow_add, Nat.succ_mul, Nat.add_comm]

/-- After k iterations carry and working area hold T + M*N for an M of k limbs, whatever nquote0 is: the
digits make up M, and T + M*N < R2 + R*R never reaches a second carry (R154). -/
theorem redcSweep_exact (w nq : Nat) {n r t : Nat} (hn : n < 2 ^ (r * w)) (ht : t < 2 ^ (2 * r * w)) :
    ∀ {k : Nat}, k ≤ r → ∃ m < 2 ^ (k * w), sweepTotal w r (redcSweep w n nq r t k) = t + m * n := by
  intro k
  induction k with
  | zero => exact fun _ => ⟨0, by simp, by simp [sweepTotal, redcSweep]⟩
  | succ k ih =>
    intro hk
    obtain ⟨m, hm, htotal⟩ := ih (Nat.le_of_succ_le hk)
    rw [redcSweep]
    generalize redcSweep w n nq r t k = tc at htotal ⊢
    have hlimbs := add_digit_lt hm (sweepDigit_lt w nq k tc.1)
    have hsum : sweepTotal w r tc + sweepDigit w nq k tc.1 * n * 2 ^ (k * w) =
        t + (m + sweepDigit w nq k tc.1 * 2 ^ (k * w)) * n := by
      rw [htotal]
      ring
    have hbound : (m + sweepDigit w nq k tc.1 * 2 ^ (k * w)) * n < 2 ^ (2 * r * w) := by
      rw [two_pow_double]
      have hall : 2 ^ ((k + 1) * w) ≤ 2 ^ (r * w) :=
        Nat.pow_le_pow_right two_pos (Nat.mul_le_mul_right w hk)
      exact Nat.mul_lt_mul'' (hlimbs.trans_le hall) hn
    exact ⟨_, hlimbs, by rw [sweepTotal_redcStep (by omega), hsum]⟩

/-! ### The lower half of the working area (R152) -/

/-- The digit clears its limb: q + m*N is a multiple of 2^W when N * nq = -1 modulo 2^W. -/
theorem dvd_add_digit_mul {b n nq : Nat} (hnq : b ∣ n * nq + 1) (q : Nat) :
    b ∣ q + q % b * nq % b * n := by
  have hdigit : q + q % b * nq % b * n ≡ q * (n * nq + 1) [MOD b] := by
    calc q + q % b * nq % b * n
        ≡ q + q * nq * n [MOD b] :=
          (((Nat.mod_modEq _ _).trans ((Nat.mod_modEq q b).mul_right nq)).mul_right n).add_left q
      _ = q * (n * nq + 1) := by ring
  exact (hdigit.dvd_iff dvd_rfl).2 (hnq.mul_left q)

/-- With nquote0 right, the k lowest limbs are 0 after k iterations. -/
theorem redcSweep_clears {w n nq : Nat} (hnq : 2 ^ w ∣ n * nq + 1) (r t : Nat) :
    ∀ {k : Nat}, k ≤ r → 2 ^ (k * w) ∣ (redcSweep w n nq r t k).1 := by
  intro k
  induction k with
  | zero => simp
  | succ k ih =>
    intro hk
    obtain ⟨q, hq⟩ := ih (Nat.le_of_succ_le hk)
    have hlimb : limbOf w (redcSweep w n nq r t k).1 k = q % 2 ^ w := by
      rw [hq, limbOf, Nat.mul_div_cancel_left _ (Nat.two_pow_pos _)]
    have hpow : 2 ^ ((k + 1) * w) = 2 ^ (k * w) * 2 ^ w := by rw [Nat.succ_mul, pow_add]
    have hfit : 2 ^ ((k + 1) * w) ∣ 2 ^ (2 * r * w) :=
      pow_dvd_pow 2 (Nat.mul_le_mul_right w (by omega))
    rw [redcSweep, redcStep, Nat.dvd_mod_iff hfit, hlimb, hq, hpow, Nat.mul_comm _ (2 ^ (k * w)),
      ← Nat.mul_add]
    exact Nat.mul_dvd_mul_left _ (dvd_add_digit_mul hnq q)

/-- A T below N*R is below R2 (R152, R153). -/
theorem lt_sq_of_lt_mul {w n r t : Nat} (hn : n < 2 ^ (r * w)) (ht : t < n * 2 ^ (r * w)) :
    t < 2 ^ (2 * r * w) :=
  ht.trans_le (two_pow_double r w ▸ Nat.mul_le_mul_right _ hn.le)

/-! ### The conditional subtraction (R152, R153) -/

/-- Redc subtracts N once from V = c*R + U where V is not below N. A set carry means V ≥ R > N, and then the
subtraction wraps to V - N. -/
theorem redc_eq_of_sweep {w n nq r t : Nat} (hn : n < 2 ^ (r * w)) {v : Nat} (hv : v < 2 ^ (r * w) + n)
    (htotal : sweepTotal w r (redcSweep w n nq r t r) = v * 2 ^ (r * w)) :
    redc w t n nq r = if n ≤ v then v - n else v := by
  rw [redc]
  generalize redcSweep w n nq r t r = tc at htotal ⊢
  obtain ⟨u, c⟩ := tc
  rw [sweepTotal, two_pow_double] at htotal
  generalize 2 ^ (r * w) = R at *
  have hR : 0 < R := by omega
  cases c with
  | true =>
    have hu : u = (v - R) * R := by
      rw [Nat.sub_mul, ← htotal]
      exact (Nat.add_sub_cancel ..).symm
    have hle : R ≤ v := Nat.le_of_mul_le_mul_right (htotal ▸ Nat.le_add_left (R * R) u) hR
    rw [Bool.true_or, if_pos rfl, hu, Nat.mul_div_cancel _ hR, subMod_of_lt (by omega) (by omega),
      if_pos (by omega)]
    omega
  | false =>
    have hu : u = v * R := htotal
    rw [hu, Nat.mul_div_cancel _ hR]
    simp only [Bool.false_or, decide_eq_true_eq]
    split
    case isTrue hle => exact subMod_of_le hle (by omega)
    case isFalse => rfl

/-- V = (T + M*N) / R with T below B*R and M at most R is below B + N (R152, R153). -/
theorem quotient_lt_add {v t m n b R : Nat} (hm : m ≤ R) (ht : t < b * R) (h : v * R = t + m * n) :
    v < b + n := by
  refine Nat.lt_of_mul_lt_mul_right (a := R) ?_
  calc v * R = t + m * n := h
    _ < b * R + R * n := Nat.add_lt_add_of_lt_of_le ht (Nat.mul_le_mul_right n hm)
    _ = (b + n) * R := by ring

/-- The exact sum T + M*N is a multiple V * R, and Redc is V less at most one N (the sketch of R152): the low
half is 0, and a set carry stands for R2 = R * R. -/
theorem redc_spec {w n nq r t : Nat} (hnq : (n * nq + 1) % 2 ^ w = 0) (hn : n < 2 ^ (r * w))
    (ht : t < 2 ^ (2 * r * w)) :
    ∃ m v, m < 2 ^ (r * w) ∧ v * 2 ^ (r * w) = t + m * n ∧
      redc w t n nq r = if n ≤ v then v - n else v := by
  obtain ⟨m, hm, htotal⟩ := redcSweep_exact w nq hn ht le_rfl
  have hclear : 2 ^ (r * w) ∣ sweepTotal w r (redcSweep w n nq r t r) := by
    refine (redcSweep_clears (Nat.dvd_of_mod_eq_zero hnq) r t le_rfl).add ?_
    split
    · exact pow_dvd_pow 2 (Nat.mul_le_mul_right w (by omega))
    · exact dvd_zero _
  obtain ⟨v, hv⟩ := hclear
  rw [Nat.mul_comm] at hv
  have hexact : v * 2 ^ (r * w) = t + m * n := hv.symm.trans htotal
  have hbound : v < 2 ^ (r * w) + n :=
    quotient_lt_add hm.le (two_pow_double r w ▸ ht) hexact
  exact ⟨m, v, hm, hexact, redc_eq_of_sweep hn hbound hv⟩

/-- Redc of any T below R2 is congruent to T * R^-1 modulo N (R152, R153). -/
theorem redc_mul_modEq {w n nq r t : Nat} (hnq : (n * nq + 1) % 2 ^ w = 0) (hn : n < 2 ^ (r * w))
    (ht : t < 2 ^ (2 * r * w)) : redc w t n nq r * 2 ^ (r * w) ≡ t [MOD n] := by
  obtain ⟨m, v, -, hexact, hredc⟩ := redc_spec hnq hn ht
  have hsub : (if n ≤ v then v - n else v) ≡ v [MOD n] := by
    split
    case isTrue h => exact (Nat.sub_modulus_modEq_iff h).2 rfl
    case isFalse => rfl
  calc redc w t n nq r * 2 ^ (r * w) ≡ v * 2 ^ (r * w) [MOD n] := hredc ▸ hsub.mul_right _
    _ = t + m * n := hexact
    _ ≡ t [MOD n] := Nat.add_mul_modulus_modEq_iff.2 rfl

/-- For T < N*R the one subtraction is enough: V < 2N (R152). -/
theorem redc_lt_modulus {w n nq r t : Nat} (hnq : (n * nq + 1) % 2 ^ w = 0) (hn : n < 2 ^ (r * w))
    (ht : t < n * 2 ^ (r * w)) : redc w t n nq r < n := by
  obtain ⟨m, v, hm, hexact, hredc⟩ := redc_spec hnq hn (lt_sq_of_lt_mul hn ht)
  have hv : v < n + n := quotient_lt_add hm.le ht hexact
  rw [hredc]
  split <;> omega

/-- A modulus with an nquote0 is odd (R152): N * nq is one less than an even number. -/
theorem odd_of_nquote0 {w n nq : Nat} (hw : 0 < w) (hnq : (n * nq + 1) % 2 ^ w = 0) : n % 2 = 1 := by
  have heven : 2 ∣ n * nq + 1 :=
    (dvd_pow_self 2 hw.ne').trans (Nat.dvd_of_mod_eq_zero hnq)
  by_contra hn
  have hmul : 2 ∣ n * nq := (Nat.dvd_of_mod_eq_zero (by omega)).mul_right nq
  omega

/-- Settles O15: the three parts of R152. -/
theorem redcReducesBelowNR : Obligations.RedcReducesBelowNR := fun _ _ _ _ _ hw hnq hn ht =>
  ⟨odd_of_nquote0 hw hnq, redc_lt_modulus hnq hn ht, redc_mul_modEq hnq hn (lt_sq_of_lt_mul hn ht)⟩

/-! ### The completion of REDC (R150, R155) -/

/-- After a draw and then a write, the drawn limbs outside the written ones still hold the draw (R9, R155). -/
theorem drawnIn_draw_write (s : State) (a n o m v : Nat) :
    drawnIn { base := a, len := n } { base := o, len := m } s ((s.drawLimbs a n).memWrite o m v) := by
  intro b hdrawn hout
  refine ⟨s.draws, le_rfl, ?_⟩
  rw [(Touches_memWrite (s.drawLimbs a n) o m v).kept b (by simpa using hout),
    byteAt_drawLimbs_has s a n b hdrawn]

/-- REDC's output reads as Redc of the operands before it (R150). -/
theorem memRead_redcEffect (s : State) :
    (redcEffect s).memRead s.cfg.addrOut.toNat s.r = redcResult s := by
  refine memRead_draw_write s _ _ _ _ _ (redc_lt _ _ _ _ _ ?_)
  exact memRead_lt s _ (2 * s.r)

/-- Settles O14: the output is written after t is drawn, so it reads as Redc of the operands at acceptance
even where it coincides with the upper half of t, and the rest of t stays drawn. -/
theorem redcCompletes : Obligations.RedcCompletes := by
  intro s hbusy hc
  refine ⟨_, exec_completes hbusy hc, ?_, ?_, ?_, ?_, ?_⟩
  · exact (memRead_endCommand _ _ _).trans (memRead_redcEffect s)
  · exact drawnIn_draw_write s _ _ _ _ (redcResult s)
  · exact (Touches_endCommand (Touches_effectOf .redc s)).kept
  · exact effectOf_invY (by decide) s
  · exact endCommand_completedFrom .redc s

end Sys2Proof.Machine
end

section
/-! PROOFS. MODPOW (46_modpow.md): the exponent's bits and windows are those of E mod 2^L (R202), and a MODPOW
without exponent bits only draws its scratch (R204). -/

namespace Sys2Proof.Machine

/-! ### Rounding up (R7) -/

theorem ceilDiv_zero {b : Nat} (hb : 0 < b) : ceilDiv 0 b = 0 := by
  rw [ceilDiv, Nat.zero_add]
  exact Nat.div_eq_of_lt (Nat.sub_lt hb Nat.one_pos)

theorem div_lt_ceilDiv {a b n : Nat} (hb : 0 < b) (h : a < n) : a / b < ceilDiv n b := by
  rw [ceilDiv, Nat.lt_iff_add_one_le, ← Nat.add_div_right a hb]
  exact Nat.div_le_div_right (by omega)

theorem le_mul_ceilDiv {b : Nat} (hb : 0 < b) (n : Nat) : n ≤ b * ceilDiv n b := by
  by_contra hlt
  have hself := div_lt_ceilDiv hb (Nat.lt_of_not_le hlt)
  rw [Nat.mul_div_cancel_left _ hb] at hself
  exact hself.false

/-! ### The exponent (R202) -/

theorem limbBits_pos (s : State) : 0 < s.limbBits := Nat.zero_lt_of_lt (limbBits_ge s)

/-- `E mod 2^L`, with E the integer held by the exponent limbs (R202). -/
def State.expUsed (s : State) : Nat :=
  s.memRead s.cfg.addrExp.toNat s.expLimbs % 2 ^ s.expLen

/-- A bit below L lies in one of the ceil(L/W) exponent limbs. -/
theorem bit_limb_lt_expLimbs {s : State} {p : Nat} (h : p < s.expLen) :
    p / s.limbBits < s.expLimbs := div_lt_ceilDiv (limbBits_pos s) h

theorem ebit_beyond {s : State} {p : Nat} (h : s.expLen ≤ p) : s.ebit p = 0 := by
  rw [State.ebit, if_pos h]

theorem ebit_below {s : State} {p : Nat} (h : p < s.expLen) :
    s.ebit p = s.limb (s.cfg.addrExp.toNat + p / s.limbBits) / 2 ^ (p % s.limbBits) % 2 := by
  rw [State.ebit, if_neg (Nat.not_le.2 h), Nat.toNat_testBit]

/-- Bit p of a sequence of limbs is bit p mod W of its limb p / W (R8). -/
theorem testBit_memRead (s : State) (a : Nat) {n p : Nat} (h : p / s.limbBits < n) :
    (s.memRead a n).testBit p = (s.limb (a + p / s.limbBits)).testBit (p % s.limbBits) := by
  have hbit : p % s.limbBits < s.limbBits := Nat.mod_lt p (limbBits_pos s)
  rw [← limbOf_memRead s a h, limbOf, Nat.testBit_mod_two_pow, Nat.testBit_div_two_pow,
    Nat.mod_add_div', decide_eq_true hbit, Bool.true_and]

/-- The bits the engine reads are those of E mod 2^L, at every position. -/
theorem ebit_eq_bit_expUsed (s : State) (p : Nat) : s.ebit p = s.expUsed / 2 ^ p % 2 := by
  rw [← Nat.toNat_testBit, State.expUsed, Nat.testBit_mod_two_pow]
  rcases Nat.lt_or_ge p s.expLen with hlt | hge
  · rw [testBit_memRead s _ (bit_limb_lt_expLimbs hlt), State.ebit,
      if_neg (Nat.not_le.2 hlt), decide_eq_true hlt, Bool.true_and]
  · rw [ebit_beyond hge, decide_eq_false (Nat.not_lt.2 hge), Bool.false_and, Bool.toNat_false]

/-! ### The windows (R202) -/

theorem ebits_eq_sum (s : State) (p k : Nat) :
    s.ebits p k = ∑ q ∈ Finset.range k, s.ebit (p + q) * 2 ^ q := by
  induction k generalizing p with
  | zero => rfl
  | succ k ih =>
    have hshift : ∀ q, s.ebit (p + (q + 1)) * 2 ^ (q + 1) = 2 * (s.ebit (p + 1 + q) * 2 ^ q) := by
      intro q
      rw [show p + (q + 1) = p + 1 + q by ring]
      ring
    rw [State.ebits, ih, Finset.sum_range_succ', Finset.sum_congr rfl (fun q _ => hshift q),
      ← Finset.mul_sum]
    simp [Nat.add_comm]

/-- k bits from bit p up are those of E mod 2^L. -/
theorem ebits_eq_expUsed (s : State) (p k : Nat) : s.ebits p k = s.expUsed / 2 ^ p % 2 ^ k := by
  induction k generalizing p with
  | zero => rw [State.ebits, pow_zero, Nat.mod_one]
  | succ k ih =>
    rw [State.ebits, ebit_eq_bit_expUsed, ih, pow_succ, ← Nat.div_div_eq_div_mul, ← Nat.mod_mul,
      ← pow_succ']

/-- Window(j) is digit j of E mod 2^L in base 2^6. -/
theorem window_eq_digit (s : State) (j : Nat) :
    s.window j = s.expUsed / 2 ^ (6 * j) % 2 ^ 6 :=
  ebits_eq_expUsed s (6 * j) 6

/-- The lowest k windows hold the lowest 6k bits of E mod 2^L. -/
theorem sum_windows (s : State) (k : Nat) :
    ∑ j ∈ Finset.range k, s.window j * 2 ^ (6 * j) = s.expUsed % 2 ^ (6 * k) := by
  induction k with
  | zero => rw [Finset.sum_range_zero, Nat.mul_zero, pow_zero, Nat.mod_one]
  | succ k ih =>
    rw [Finset.sum_range_succ, ih, window_eq_digit, Nat.mul_succ, pow_add, Nat.mod_mul,
      Nat.mul_comm (2 ^ (6 * k))]

/-- The blocks cover all L bits (R201). -/
theorem expUsed_lt_blocks (s : State) : s.expUsed < 2 ^ (6 * s.blocks) :=
  (Nat.mod_lt _ (Nat.two_pow_pos _)).trans_le
    (Nat.pow_le_pow_right Nat.two_pos (le_mul_ceilDiv (by decide) s.expLen))

/-- Settles O28: the windows are the base-64 digits of E mod 2^L, and the blocks are enough for all of it. -/
theorem windowsHoldExponent : Obligations.WindowsHoldExponent := fun s =>
  ⟨fun _ => ebit_beyond, fun _ hp => ⟨bit_limb_lt_expLimbs hp, ebit_below hp⟩,
    fun j => ebits_eq_sum s (6 * j) 6,
    (sum_windows s s.blocks).trans (Nat.mod_eq_of_lt (expUsed_lt_blocks s))⟩

/-! ### No exponent bits (R204) -/

theorem Interval.outside_of_empty {x : Interval} (lmemLimbs : Nat) (h : x.len = 0) :
    x.outside lmemLimbs = false := by
  simp [Interval.outside, h]

theorem Interval.overlaps_comm (x y : Interval) : x.overlaps y = y.overlaps x := by
  rw [Bool.eq_iff_iff, Interval.overlaps_iff_shares, Interval.overlaps_iff_shares]
  exact exists_congr fun a => and_comm

/-- The checks keep the accumulator and the scratch of MODPOW apart (R105). -/
theorem modpow_out_outside_scratch {s : State} (hc : checkOperands .modpow s = .none) :
    s.cfg.addrOut.toNat + s.r ≤ s.cfg.addrScr.toNat ∨
      s.cfg.addrScr.toNat + 68 * s.r ≤ s.cfg.addrOut.toNat := by
  have hr : 0 < s.r := r_pos_of_checked (by decide) hc
  have hfree : (s.scrSpan (68 * s.r)).overlaps (s.outSpan s.r) = false := by
    have halias := aliasViolation_of_checked hc
    simp only [aliasViolation, Bool.or_eq_false_iff] at halias
    tauto
  have hdisj := disjoint_of_not_overlaps hfree
  simp only [State.scrSpan, State.outSpan] at hdisj
  omega

section
variable {s : State} (hbits : s.cfg.expBits = 0#32)
include hbits

theorem expLen_of_noBits : s.expLen = 0 := by rw [State.expLen, hbits, BitVec.toNat_zero]

theorem blocks_of_noBits : s.blocks = 0 := by
  rw [State.blocks, expLen_of_noBits hbits, ceilDiv_zero (by decide)]

theorem expLimbs_of_noBits : s.expLimbs = 0 := by
  rw [State.expLimbs, expLen_of_noBits hbits, ceilDiv_zero (limbBits_pos s)]

/-- Without blocks the accumulator passes through. -/
theorem modpowResult_of_noBits : modpowResult s = s.accVal := by
  rw [modpowResult, blocks_of_noBits hbits, State.windowsBelow, powBlocks]

/-- An empty exponent buffer is in range at any address. -/
theorem rangeViolation_modpow_of_noBits : rangeViolation .modpow s =
    [s.outSpan s.r, s.aSpan, s.nSpan, s.scrSpan (68 * s.r)].any (·.outside s.lmemLimbs) := by
  have hexp : s.expSpan.outside s.lmemLimbs = false :=
    Interval.outside_of_empty _ (expLimbs_of_noBits hbits)
  simp [rangeViolation, buffers, hexp]

/-- An empty exponent buffer overlaps nothing at any address. -/
theorem aliasViolation_modpow_of_noBits : aliasViolation .modpow s =
    ([s.outSpan s.r, s.aSpan, s.nSpan].any (s.scrSpan (68 * s.r)).overlaps ||
      [s.aSpan, s.nSpan].any (s.outSpan s.r).overlaps) := by
  have hexp : ∀ x : Interval, x.overlaps s.expSpan = false := fun x =>
    (x.overlaps_comm _).trans (Interval.overlaps_of_empty x (expLimbs_of_noBits hbits))
  simp [aliasViolation, hexp, Bool.or_assoc]

/-- ADDR_EXP is not checked (R104, R204): neither condition depends on it. -/
theorem checkOperands_modpow_addrExp (a : BitVec 32) :
    checkOperands .modpow { s with cfg := { s.cfg with addrExp := a } } =
      checkOperands .modpow s := by
  have hbits' : ({ s with cfg := { s.cfg with addrExp := a } } : State).cfg.expBits = 0#32 := hbits
  rw [checkOperands, rangeViolation_modpow_of_noBits hbits', aliasViolation_modpow_of_noBits hbits',
    checkOperands, rangeViolation_modpow_of_noBits hbits, aliasViolation_modpow_of_noBits hbits]
  rfl

/-- The accumulator lies outside the scratch, so FINISH rewrites it with the value it still holds: on LMEM the
effect is the draw of the scratch alone. -/
theorem byteAt_modpowEffect_of_noBits (hc : checkOperands .modpow s = .none) (b : Nat) :
    (modpowEffect s).byteAt b = (s.drawLimbs s.cfg.addrScr.toNat (68 * s.r)).byteAt b := by
  have hacc : s.accVal =
      (s.drawLimbs s.cfg.addrScr.toNat (68 * s.r)).memRead s.cfg.addrOut.toNat s.r :=
    (memRead_drawLimbs_outside s _ _ _ _ (modpow_out_outside_scratch hc)).symm
  rw [modpowEffect, modpowResult_of_noBits hbits, State.publishPower, hacc, byteAt_memWrite_own]

end

/-- Settles O26: the completion changes LMEM as the draw of the scratch does, and the checks do not depend on
ADDR_EXP. -/
theorem modpowOfNoBitsKeepsAccumulator : Obligations.ModpowOfNoBitsKeepsAccumulator := by
  refine ⟨fun s hbusy hc hbits => ?_, fun s a hbits => checkOperands_modpow_addrExp hbits a⟩
  refine ⟨_, exec_completes hbusy hc, ?_, ?_, blocks_of_noBits hbits, expLimbs_of_noBits hbits, ?_⟩
  · intro b hb
    exact (byteAt_modpowEffect_of_noBits hbits hc b).trans ((Touches_drawLimbs s _ _).kept b hb)
  · exact drawnIn_draw_write s _ _ _ _ (modpowResult s)
  · calc (effectOf .modpow s).endCommand.memRead s.cfg.addrOut.toNat s.r
        = (modpowEffect s).memRead s.cfg.addrOut.toNat s.r := memRead_endCommand _ _ _
      _ = (s.drawLimbs s.cfg.addrScr.toNat (68 * s.r)).memRead s.cfg.addrOut.toNat s.r :=
          memRead_congr rfl fun b _ _ => byteAt_modpowEffect_of_noBits hbits hc b
      _ = s.memRead s.cfg.addrOut.toNat s.r :=
          memRead_drawLimbs_outside s _ _ _ _ (modpow_out_outside_scratch hc)

end Sys2Proof.Machine
end

section
/-! PROOFS. The multi-limb operations of the datapath (41_datapath.md R122 to R127) and the limb form of Redc
(43_redc.md R151): each computes on the values of its limbs what the integer form says. -/

namespace Sys2Proof.Machine

/-! ### Products (R122, R123) -/

/-- FullMul is exact: the product of two r-limb values fits 2r limbs. -/
theorem valOf_fullMul {w r : Nat} {a b : List Nat} (ha : valOf w a < 2 ^ (r * w))
    (hb : valOf w b < 2 ^ (r * w)) : valOf w (fullMul w r a b) = valOf w a * valOf w b := by
  rw [fullMul, valOf_limbsOf, Nat.mod_eq_of_lt]
  rw [two_pow_double]
  exact Nat.mul_lt_mul'' ha hb

theorem square_eq_fullMul (w r : Nat) (a : List Nat) : square w r a = fullMul w r a a := rfl

/-- Settles O30: the product fits the limbs it is stored in. -/
theorem productsAreExact : Obligations.ProductsAreExact := by
  rintro w r a b rfl hb ha hbw
  exact ⟨limbsOf_length .., limbsOf_lt w (2 * a.length) _, valOf_fullMul (valOf_lt ha) (hb ▸ valOf_lt hbw),
    square_eq_fullMul ..⟩

/-! ### SubN (R124) -/

/-- One more limb multiplies the range of a sequence by 2^W (R8). -/
theorem two_pow_cons (w x : Nat) (l : List Nat) :
    2 ^ ((x :: l).length * w) = 2 ^ w * 2 ^ (l.length * w) := by
  rw [← pow_add, List.length_cons, Nat.succ_mul, Nat.add_comm]

/-- The borrow chain is exact up to its final borrow. -/
theorem valOf_subChain {w : Nat} {x y : List Nat} (hlen : x.length = y.length)
    (hx : ∀ d ∈ x, d < 2 ^ w) (hy : ∀ d ∈ y, d < 2 ^ w) {b : Nat} (hb : b ≤ 1) :
    ∃ bo ≤ 1, valOf w (subChain w x y b) + valOf w y + b = valOf w x + bo * 2 ^ (x.length * w) := by
  induction x generalizing y b with
  | nil =>
    obtain rfl := List.length_eq_zero_iff.1 hlen.symm
    exact ⟨b, hb, by simp [subChain]⟩
  | cons u x ih =>
    cases y with
    | nil => cases hlen
    | cons v y =>
      obtain ⟨hu, hx⟩ := List.forall_mem_cons.1 hx
      obtain ⟨hv, hy⟩ := List.forall_mem_cons.1 hy
      obtain ⟨hlimb, hborrow, -⟩ := subB_exact hu hv hb
      obtain ⟨bo, hbo, hrest⟩ := ih (Nat.succ.inj hlen) hx hy hborrow
      refine ⟨bo, hbo, ?_⟩
      rw [subChain, two_pow_cons]
      simp only [valOf_cons]
      linear_combination hlimb + 2 ^ w * hrest

/-- SubN is subtraction modulo R (R124). -/
theorem valOf_subN {w r : Nat} {x y : List Nat} (hxl : x.length = r) (hyl : y.length = r)
    (hx : ∀ d ∈ x, d < 2 ^ w) (hy : ∀ d ∈ y, d < 2 ^ w) :
    valOf w (subN w x y) =
      if valOf w y ≤ valOf w x then valOf w x - valOf w y
      else valOf w x + 2 ^ (r * w) - valOf w y := by
  obtain ⟨hlen, hlt⟩ := subChain_ok w x y 0 (hxl.trans hyl.symm)
  obtain ⟨bo, hbo, hval⟩ := valOf_subChain (hxl.trans hyl.symm) hx hy (Nat.zero_le 1)
  have hdiff := valOf_lt hlt
  have hxv := valOf_lt hx
  have hyv := valOf_lt hy
  rw [hlen] at hdiff
  rw [hxl] at hdiff hval hxv
  rw [hyl] at hyv
  rw [subN]
  obtain rfl | rfl := Nat.le_one_iff_eq_zero_or_eq_one.1 hbo <;> split <;> omega

/-- The integer operation that REDC_FIX names (R151). -/
theorem valOf_subN_eq_subMod {w r : Nat} {x y : List Nat} (hxl : x.length = r) (hyl : y.length = r)
    (hx : ∀ d ∈ x, d < 2 ^ w) (hy : ∀ d ∈ y, d < 2 ^ w) :
    valOf w (subN w x y) = subMod (valOf w x) (valOf w y) (2 ^ (r * w)) := by
  have hxv := valOf_lt hx
  have hyv := valOf_lt hy
  rw [hxl] at hxv
  rw [hyl] at hyv
  rw [valOf_subN hxl hyl hx hy]
  split
  case isTrue h => exact (subMod_of_le h (by omega)).symm
  case isFalse h => exact (subMod_of_lt (by omega) (by omega)).symm

/-- Settles O31: with the final borrow discarded, the difference wraps once or not at all. -/
theorem subNWrapsModuloR : Obligations.SubNWrapsModuloR := by
  intro w r x y hxl hyl hx hy
  obtain ⟨hlen, hlt⟩ := subChain_ok w x y 0 (hxl.trans hyl.symm)
  rw [valOf_subN hxl hyl hx hy]
  exact ⟨hlen.trans hxl, hlt, fun h => if_pos h, fun h => if_neg (Nat.not_le.2 h)⟩

/-! ### AddMulShift (R127) -/

/-- The first loop adds m * N, carry included, to the limbs it has covered. -/
theorem valOf_addMulRow (w m : Nat) {t n : List Nat} (hlen : n.length ≤ t.length) (cy : Nat) :
    (addMulRow w m t n cy).1.length = n.length ∧
      valOf w (addMulRow w m t n cy).1 + 2 ^ (n.length * w) *
          (valOf w (addMulRow w m t n cy).2.1 + (addMulRow w m t n cy).2.2) =
        valOf w t + m * valOf w n + cy := by
  induction n generalizing t cy with
  | nil => cases t <;> simp [addMulRow]
  | cons y n ih =>
    cases t with
    | nil => cases hlen
    | cons x t =>
      have hlimb := Nat.mod_add_div (m * y + x + cy) (2 ^ w)
      obtain ⟨hl, hrest⟩ := ih (Nat.le_of_succ_le_succ hlen) (mulAddC w m y x cy).1
      rw [addMulRow]
      refine ⟨congrArg Nat.succ hl, ?_⟩
      rw [two_pow_cons]
      simp only [valOf_cons, mulAddC] at hrest ⊢
      linear_combination hlimb + 2 ^ w * hrest

/-- The second loop is exact where the carry that leaves it is 0 or 1. -/
theorem valOf_carryChain {w : Nat} {t : List Nat} {cy : Nat}
    (h : valOf w t + cy < 2 * 2 ^ (t.length * w)) :
    valOf w (carryChain w t cy).1 + (carryChain w t cy).2 * 2 ^ (t.length * w) = valOf w t + cy := by
  induction t generalizing cy with
  | nil =>
    simp only [valOf_nil, List.length_nil, Nat.zero_mul, pow_zero] at h
    rw [carryChain]
    split <;> simp <;> omega
  | cons x t ih =>
    rw [two_pow_cons, valOf_cons] at h
    rw [two_pow_cons]
    have hlimb := Nat.mod_add_div (x + cy) (2 ^ w)
    have hcarry : valOf w t + (addC w x cy 0).1 < 2 * 2 ^ (t.length * w) := by
      refine Nat.lt_of_mul_lt_mul_left (a := 2 ^ w) ?_
      have : 2 ^ w * (valOf w t + (x + cy) / 2 ^ w) ≤ x + 2 ^ w * valOf w t + cy := by
        rw [Nat.mul_add]
        omega
      exact this.trans_lt (h.trans_eq (by ring))
    have hrest := ih hcarry
    simp only [carryChain, valOf_cons, addC, Nat.add_zero] at hrest ⊢
    linear_combination hlimb + 2 ^ w * hrest

/-- T + m * N * 2^(i*W) is below 2 * R2, so one carry leaves the working area (R127). -/
theorem shifted_sum_lt {w r i m v n : Nat} (hi : i < r) (hm : m < 2 ^ w) (hv : v < 2 ^ (2 * r * w))
    (hn : n < 2 ^ (r * w)) : v + m * n * 2 ^ (i * w) < 2 * 2 ^ (2 * r * w) := by
  have hdigit : m * 2 ^ (i * w) ≤ 2 ^ (r * w) :=
    calc m * 2 ^ (i * w) ≤ 2 ^ w * 2 ^ (i * w) := Nat.mul_le_mul_right _ hm.le
      _ = 2 ^ ((i + 1) * w) := by rw [← pow_add, Nat.succ_mul, Nat.add_comm]
      _ ≤ 2 ^ (r * w) := Nat.pow_le_pow_right two_pos (Nat.mul_le_mul_right w hi)
  have hprod : m * n * 2 ^ (i * w) ≤ 2 ^ (2 * r * w) :=
    calc m * n * 2 ^ (i * w) = m * 2 ^ (i * w) * n := by ring
      _ ≤ 2 ^ (r * w) * 2 ^ (r * w) := Nat.mul_le_mul hdigit hn.le
      _ = 2 ^ (2 * r * w) := (two_pow_double r w).symm
  omega

section
variable {w r i m : Nat} {t n : List Nat} (htl : t.length = 2 * r) (hnl : n.length = r) (hi : i < r)
  (hm : m < 2 ^ w) (ht : ∀ x ∈ t, x < 2 ^ w) (hn : ∀ x ∈ n, x < 2 ^ w)
include htl hnl hi hm ht hn

/-- Working area and carry out together hold the sum: the limbs below i, those the first loop covers, and
those above. -/
theorem valOf_addMulShift :
    valOf w (addMulShift w t i m n).2 + (addMulShift w t i m n).1 * 2 ^ (2 * r * w) =
      valOf w t + m * valOf w n * 2 ^ (i * w) := by
  have hsum := shifted_sum_lt hi hm (htl ▸ valOf_lt ht) (hnl ▸ valOf_lt hn)
  have hlow : valOf w t = valOf w (t.take i) + 2 ^ (i * w) * valOf w (t.drop i) := by
    conv_lhs => rw [← List.take_append_drop i t, valOf_append, List.length_take_of_le (by omega)]
  obtain ⟨hrl, hrow⟩ := valOf_addMulRow w m (t := t.drop i) (n := n)
    (by rw [List.length_drop]; omega) 0
  obtain ⟨hlens, -, -⟩ := addMulRow_ok w m (t.drop i) n 0 fun x hx => ht x (List.mem_of_mem_drop hx)
  rw [addMulShift]
  generalize addMulRow w m (t.drop i) n 0 = row at hrl hrow hlens ⊢
  rw [List.length_drop] at hlens
  have hpow : 2 ^ (2 * r * w) = 2 ^ (i * w) * (2 ^ (r * w) * 2 ^ (row.2.1.length * w)) := by
    rw [← pow_add, ← pow_add, ← Nat.add_mul, ← Nat.add_mul]
    congr 2
    omega
  rw [hnl] at hrow
  have htop : valOf w row.2.1 + row.2.2 < 2 * 2 ^ (row.2.1.length * w) := by
    refine Nat.lt_of_mul_lt_mul_left (a := 2 ^ (i * w) * 2 ^ (r * w)) ?_
    calc 2 ^ (i * w) * 2 ^ (r * w) * (valOf w row.2.1 + row.2.2)
        ≤ 2 ^ (i * w) * (valOf w row.1 + 2 ^ (r * w) * (valOf w row.2.1 + row.2.2)) := by
          rw [Nat.mul_assoc]
          exact Nat.mul_le_mul_left _ (Nat.le_add_left ..)
      _ ≤ valOf w t + m * valOf w n * 2 ^ (i * w) := by
          rw [hrow, hlow, Nat.add_zero, Nat.mul_add, Nat.mul_comm (m * _)]
          omega
      _ < 2 * 2 ^ (2 * r * w) := hsum
      _ = 2 ^ (i * w) * 2 ^ (r * w) * (2 * 2 ^ (row.2.1.length * w)) := by rw [hpow]; ring
  have hchain := valOf_carryChain htop
  dsimp only
  rw [valOf_append, valOf_append, List.length_append, List.length_take_of_le (by omega), hrl, hnl,
    hpow, hlow, Nat.add_mul i, pow_add]
  linear_combination 2 ^ (i * w) * hrow + 2 ^ (i * w) * 2 ^ (r * w) * hchain

/-- AddMulShift gives S mod R2 and S div R2 (R127). -/
theorem addMulShift_eq :
    valOf w (addMulShift w t i m n).2 =
        (valOf w t + m * valOf w n * 2 ^ (i * w)) % 2 ^ (2 * r * w) ∧
      (addMulShift w t i m n).1 =
        (valOf w t + m * valOf w n * 2 ^ (i * w)) / 2 ^ (2 * r * w) := by
  obtain ⟨hlen, hlt⟩ := addMulShift_ok w i m t n ht
  have hlow := valOf_lt hlt
  rw [hlen, htl] at hlow
  have hpos := Nat.two_pow_pos (2 * r * w)
  rw [← valOf_addMulShift htl hnl hi hm ht hn, Nat.add_mul_mod_self_right, Nat.mod_eq_of_lt hlow,
    Nat.add_mul_div_right _ _ hpos, Nat.div_eq_of_lt hlow, Nat.zero_add]
  exact ⟨rfl, rfl⟩

end

/-- Settles O32: the sum is split at R2, and stays below 2 * R2. -/
theorem addMulShiftIsExact : Obligations.AddMulShiftIsExact := by
  intro w r i m t n htl hnl hi hm ht hn
  obtain ⟨hlen, hlt⟩ := addMulShift_ok w i m t n ht
  obtain ⟨hval, hcarry⟩ := addMulShift_eq htl hnl hi hm ht hn
  refine ⟨hlen.trans htl, hlt, hval, hcarry, ?_⟩
  rw [hcarry]
  exact Nat.le_of_lt_succ ((Nat.div_lt_iff_lt_mul (Nat.two_pow_pos _)).2
    (shifted_sum_lt hi hm (htl ▸ valOf_lt ht) (hnl ▸ valOf_lt hn)))

/-! ### Redc on limbs (R151) -/

/-- Dropping k limbs divides the value by 2^(k*W) (R8). -/
theorem valOf_drop {w k : Nat} {l : List Nat} (h : ∀ x ∈ l, x < 2 ^ w) (hk : k ≤ l.length) :
    valOf w (l.drop k) = valOf w l / 2 ^ (k * w) := by
  have hlow := valOf_lt (w := w) (l := l.take k) fun x hx => h x (List.mem_of_mem_take hx)
  rw [List.length_take_of_le hk] at hlow
  conv_rhs => rw [← List.take_append_drop k l, valOf_append, List.length_take_of_le hk]
  rw [Nat.add_mul_div_left _ _ (Nat.two_pow_pos _), Nat.div_eq_of_lt hlow, Nat.zero_add]

/-- Both arms of REDC_FIX give r limbs (R151). -/
theorem redcFixLimbs_length {w r : Nat} {n t : List Nat} (hnl : n.length = r)
    (htl : t.length = 2 * r) (c : Bool) : (redcFixLimbs w r n (t, c)).length = r := by
  have hupper : (t.drop r).length = r := by rw [List.length_drop]; omega
  simp only [redcFixLimbs]
  split
  · exact (subChain_ok w _ n 0 (hupper.trans hnl.symm)).1.trans hupper
  · exact hupper

section
variable {w r : Nat} {n t : List Nat} (hnl : n.length = r) (htl : t.length = 2 * r)
  (hn : ∀ x ∈ n, x < 2 ^ w) (ht : ∀ x ∈ t, x < 2 ^ w)
include hnl htl hn ht

/-- Digit by digit the limb sweep holds the value and the carry of the integer sweep. -/
theorem redcLimbSweep_eq (nq : Nat) {k : Nat} (hk : k ≤ r) :
    (valOf w (redcLimbSweep w nq n t k).1, (redcLimbSweep w nq n t k).2) =
      redcSweep w (valOf w n) nq r (valOf w t) k := by
  induction k with
  | zero => rfl
  | succ k ih =>
    obtain ⟨hlen, hlt⟩ := redcLimbSweep_ok w nq n t k ht
    rw [redcSweep, ← ih (Nat.le_of_succ_le hk), redcLimbSweep]
    generalize redcLimbSweep w nq n t k = tc at hlen hlt ⊢
    have hm : redcDigit w nq k tc.1 < 2 ^ w := Nat.mod_lt _ (Nat.two_pow_pos w)
    obtain ⟨hval, hcarry⟩ := addMulShift_eq (hlen.trans htl) hnl hk hm hlt hn
    have hdigit : limbOf w (valOf w tc.1) k * nq % 2 ^ w = redcDigit w nq k tc.1 := by
      rw [limbOf_valOf hlt, redcDigit, mulLo]
    simp only [redcDigitStep, redcStep, hval, hcarry, hdigit]

/-- REDC_FIX is the conditional subtraction of the integer form (R151). -/
theorem valOf_redcFixLimbs (c : Bool) :
    valOf w (redcFixLimbs w r n (t, c)) =
      if c || decide (valOf w n ≤ valOf w t / 2 ^ (r * w)) then
        subMod (valOf w t / 2 ^ (r * w)) (valOf w n) (2 ^ (r * w))
      else valOf w t / 2 ^ (r * w) := by
  have hupper : (t.drop r).length = r := by rw [List.length_drop]; omega
  have hcmp : (cmpLimbs w (t.drop r) n != Ordering.lt) =
      decide (valOf w n ≤ valOf w (t.drop r)) := by
    rw [Bool.eq_iff_iff, bne_iff_ne, decide_eq_true_eq, cmpLimbs, compare_ge_iff_ge]
  rw [← valOf_drop ht (by omega), ← valOf_subN_eq_subMod hupper hnl
    (fun x hx => ht x (List.mem_of_mem_drop hx)) hn]
  simp only [redcFixLimbs, hcmp, copyLimbs]
  split <;> rfl

/-- Redc on limbs is Redc on their values (R151). -/
theorem valOf_redcLimbs (nq : Nat) :
    valOf w (redcLimbs w nq r n t) = redc w (valOf w t) (valOf w n) nq r := by
  obtain ⟨hlen, hlt⟩ := redcLimbSweep_ok w nq n t r ht
  rw [redcLimbs, valOf_redcFixLimbs hnl (hlen.trans htl) hn hlt, redc,
    ← redcLimbSweep_eq hnl htl hn ht nq le_rfl]

end

/-- Settles O33: the sweeps agree digit by digit, and REDC_FIX is the conditional subtraction. -/
theorem limbRedcEqualsIntegerRedc : Obligations.LimbRedcEqualsIntegerRedc := by
  intro w nq r n t hnl htl hn ht
  obtain ⟨hlen, -⟩ := redcLimbSweep_ok w nq n t r ht
  exact ⟨redcFixLimbs_length hnl (hlen.trans htl) _, valOf_redcLimbs hnl htl hn ht nq⟩

end Sys2Proof.Machine
end

section
/-! PROOFS. What the commands that publish in LMEM leave there (43_redc.md to 46_modpow.md): the results they
owe, the scratch drawn, every other byte kept; and what those results are in the Montgomery domain (R173,
R192, R203). -/

namespace Sys2Proof.Machine

/-! ### Redc without an ordering assumption (R153, R154) -/

/-- Settles O16: the bound and the congruence each hold below R2. -/
theorem redcStaysCongruent : Obligations.RedcStaysCongruent := fun w n nq r t _ hnq hn ht =>
  ⟨redc_lt w t n nq r ht, redc_mul_modEq hnq hn ht⟩

/-- Settles O17: the sweep's total is exact. -/
theorem redcSweepIsExact : Obligations.RedcSweepIsExact := by
  intro w n nq r t k hk hn ht
  obtain ⟨m, hm, htotal⟩ := redcSweep_exact w nq hn ht hk
  exact ⟨m, hm, redcSweep_lt w n nq r t k ht, htotal⟩

/-! ### The results in the output interval (R108, R110) -/

theorem nVal_lt (s : State) : s.nVal < 2 ^ (s.r * s.limbBits) := memRead_lt s _ _

theorem aVal_lt (s : State) : s.aVal < 2 ^ (s.r * s.limbBits) := memRead_lt s _ _

/-- A result that is published in LMEM fits r limbs. -/
theorem resultsOf_lt {i : Instr} {s : State} (hi : i ≠ .inv1) (hc : checkOperands i s = .none) :
    ∀ x ∈ resultsOf s i, x < 2 ^ (s.r * s.limbBits) := by
  have htable : ∀ x ∈ buildResult s, x < 2 ^ (s.r * s.limbBits) :=
    buildTable_lt _ _ _ _ _ (Nat.mul_pos (r_pos_of_checked hi hc) (limbBits_pos s)) (aVal_lt s)
  cases i with
  | inv1 => exact absurd rfl hi
  | redc => exact List.forall_mem_singleton.2 (redc_lt _ _ _ _ _ (memRead_lt s _ _))
  | mul => exact List.forall_mem_singleton.2 (montMul_lt _ _ _ _ _ _ (aVal_lt s) (memRead_lt s _ _))
  | sqr => exact List.forall_mem_singleton.2 (montMul_lt _ _ _ _ _ _ (aVal_lt s) (aVal_lt s))
  | build => exact htable
  | modpow => exact List.forall_mem_singleton.2 (powBlocks_lt _ _ _ _ _ htable _ _ (memRead_lt s _ _))

/-- The checks keep the table of BUILD and its scratch apart (R105). -/
theorem build_out_outside_scratch {s : State} (hc : checkOperands .build s = .none) :
    s.cfg.addrOut.toNat + 64 * s.r ≤ s.cfg.addrScr.toNat ∨
      s.cfg.addrScr.toNat + 4 * s.r ≤ s.cfg.addrOut.toNat := by
  have hr : 0 < s.r := r_pos_of_checked (by decide) hc
  have hfree : (s.scrSpan (4 * s.r)).overlaps (s.outSpan (64 * s.r)) = false := by
    have halias := aliasViolation_of_checked hc
    simp only [aliasViolation, Bool.or_eq_false_iff] at halias
    tauto
  have hdisj := disjoint_of_not_overlaps hfree
  simp only [State.scrSpan, State.outSpan] at hdisj
  omega

/-- Result k is read back from the r limbs at ADDR_OUT + k*r (R110, R194). -/
theorem memRead_effectOf_out {i : Instr} {s : State} (hi : i ≠ .inv1) (hc : checkOperands i s = .none)
    {k : Nat} (hk : k < (resultsOf s i).length) :
    (effectOf i s).memRead (s.cfg.addrOut.toNat + k * s.r) s.r = (resultsOf s i).getD k 0 := by
  have hlt := resultsOf_lt hi hc
  cases i with
  | inv1 => exact absurd rfl hi
  | redc => exact memRead_writeEntries _ (s.drawLimbs s.cfg.addrT.toNat (2 * s.r)) _ k hk hlt
  | mul | sqr => exact memRead_writeEntries _ (s.drawLimbs s.cfg.addrScr.toNat (4 * s.r)) _ k hk hlt
  | modpow => exact memRead_writeEntries _ (s.drawLimbs s.cfg.addrScr.toNat (68 * s.r)) _ k hk hlt
  | build =>
    have hlen : (buildResult s).length = 64 := buildTable_length _ _ _ _ _
    have hk64 : (k + 1) * s.r ≤ 64 * s.r := Nat.mul_le_mul_right _ (hlen ▸ hk)
    have hapart := build_out_outside_scratch hc
    change k < (buildResult s).length at hk
    change ∀ x ∈ buildResult s, _ at hlt
    change (s.publishTable (buildResult s)).memRead _ _ = (buildResult s).getD k 0
    generalize buildResult s = table at hk hlt ⊢
    rw [Nat.succ_mul] at hk64
    rw [State.publishTable, memRead_drawLimbs_outside _ _ _ _ _ (by omega)]
    exact memRead_writeEntries table s _ k hk hlt

/-- What the completion leaves in the output interval. -/
theorem memRead_completed_out {i : Instr} {s : State} (hi : i ≠ .inv1) (hc : checkOperands i s = .none)
    {k : Nat} (hk : k < (resultsOf s i).length) :
    (effectOf i s).endCommand.memRead (s.cfg.addrOut.toNat + k * s.r) s.r =
      (resultsOf s i).getD k 0 :=
  (memRead_endCommand _ _ _).trans (memRead_effectOf_out hi hc hk)

/-- A command with one result leaves it in the r limbs at ADDR_OUT. -/
theorem memRead_completed_single {i : Instr} {s : State} (hi : i ≠ .inv1)
    (hc : checkOperands i s = .none) {v : Nat} (hv : resultsOf s i = [v]) :
    (effectOf i s).endCommand.memRead s.cfg.addrOut.toNat s.r = v := by
  have hout := memRead_completed_out hi hc (k := 0) (by rw [hv]; exact Nat.one_pos)
  rwa [Nat.zero_mul, Nat.add_zero, hv, List.getD_cons_zero] at hout

/-! ### The completions of MUL, SQR, BUILD and MODPOW -/

/-- INV_Y outlives every command but INV1 (R36, R108). -/
theorem invY_completed {i : Instr} (hi : i ≠ .inv1) (s : State) :
    (effectOf i s).endCommand.invY = s.invY :=
  (endCommand_invY _).trans (effectOf_invY hi s)

/-- What is drawn before a command ends is drawn after (R108). -/
theorem drawnIn_endCommand {x kept : Interval} {s t : State} (h : drawnIn x kept s t) :
    drawnIn x kept s t.endCommand := h

/-- Settles O18: the output is written after the scratch is drawn. -/
theorem mulCompletes : Obligations.MulCompletes := fun s hbusy hc =>
  ⟨_, exec_completes hbusy hc, memRead_completed_single (by decide) hc rfl,
    drawnIn_endCommand (drawnIn_draw_write s _ _ _ _ (mulResult s)), (Touches_endCommand (Touches_effectOf .mul s)).kept,
    invY_completed (by decide) s, endCommand_completedFrom .mul s⟩

/-- Settles O19: the output is written after the scratch is drawn. -/
theorem sqrCompletes : Obligations.SqrCompletes := fun s hbusy hc =>
  ⟨_, exec_completes hbusy hc, memRead_completed_single (by decide) hc rfl,
    drawnIn_endCommand (drawnIn_draw_write s _ _ _ _ (sqrResult s)), (Touches_endCommand (Touches_effectOf .sqr s)).kept,
    invY_completed (by decide) s, endCommand_completedFrom .sqr s⟩

/-- Settles O25: the accumulator is written after the scratch is drawn. -/
theorem modpowCompletes : Obligations.ModpowCompletes := fun s hbusy hc =>
  ⟨_, exec_completes hbusy hc, memRead_completed_single (by decide) hc rfl,
    drawnIn_endCommand (drawnIn_draw_write s _ _ _ _ (modpowResult s)),
    (Touches_endCommand (Touches_effectOf .modpow s)).kept, invY_completed (by decide) s,
    endCommand_completedFrom .modpow s⟩

/-- A MUL whose two factors are one buffer passes the checks of SQR, whose buffers are among its own. -/
theorem checkOperands_sqr_of_mul {s : State} (hc : checkOperands .mul s = .none) :
    checkOperands .sqr s = .none := by
  have hr : s.r ≠ 0 := (r_pos_of_checked (by decide) hc).ne'
  have hrange := rangeViolation_of_checked hc
  have halias := aliasViolation_of_checked hc
  have hrange' : rangeViolation .sqr s = false := by
    simp only [rangeViolation, buffers, List.any_cons, List.any_nil, Bool.or_eq_false_iff] at hrange ⊢
    tauto
  have halias' : aliasViolation .sqr s = false := by
    simp only [aliasViolation, Bool.or_eq_false_iff] at halias ⊢
    tauto
  rw [checkOperands_of_pos (by decide) hr, hrange', halias']
  rfl

/-- Settles O20: both publish Redc(A * A). -/
theorem sqrIsMulBySelf : Obligations.SqrIsMulBySelf := by
  intro s hbusy hc hab
  have hsqr := checkOperands_sqr_of_mul hc
  have hresult : mulResult s = sqrResult s := by rw [mulResult, State.bVal, hab]; rfl
  refine ⟨_, _, exec_completes hbusy hc, exec_completes hbusy hsqr, ?_⟩
  rw [memRead_completed_single (v := sqrResult s) (by decide) hsqr rfl,
    memRead_completed_single (v := mulResult s) (by decide) hc rfl, hresult]

/-- The scratch of BUILD is drawn last (R190). -/
theorem drawnIn_publishTable (s : State) (table : List Nat) (kept : Interval) :
    drawnIn (s.scrSpan (4 * s.r)) kept s (s.publishTable table) := by
  intro b hscr _
  refine ⟨s.draws, le_rfl, ?_⟩
  have hdraws : (s.writeEntries s.cfg.addrOut.toNat table).draws = s.draws := by
    rw [writeEntries_eq]
  have hbytes : (s.writeEntries s.cfg.addrOut.toNat table).limbBytes = s.limbBytes := by
    rw [writeEntries_eq]
    rfl
  rw [State.publishTable, byteAt_drawLimbs_has _ _ _ b (by rwa [hbytes]), hdraws]

theorem effectOf_build (s : State) : effectOf .build s = s.publishTable (buildResult s) := rfl

theorem resultsOf_build (s : State) : resultsOf s .build = buildResult s := rfl

/-- Entry e of the table that the completion of BUILD leaves. -/
theorem memRead_build_entry {s : State} (hc : checkOperands .build s = .none) {e : Nat} (he : e < 64) :
    (effectOf .build s).endCommand.memRead (s.cfg.addrOut.toNat + e * s.r) s.r =
      (buildResult s).getD e 0 := by
  have hk : e < (resultsOf s .build).length := by
    rw [resultsOf_length]
    exact he
  rw [memRead_completed_out (by decide) hc hk, resultsOf_build]

/-- Settles O23: the entries are read back one by one, and the scratch is drawn after they are written. -/
theorem buildCompletes : Obligations.BuildCompletes := by
  intro s hbusy hc
  have hentry (e : Nat) (he : e < 64) := memRead_build_entry hc he
  have hzero := hentry 0 (by decide)
  have hone := hentry 1 (by decide)
  rw [Nat.zero_mul, Nat.add_zero, buildResult, buildTable, List.getD_cons_zero] at hzero
  rw [Nat.one_mul, buildResult, buildTable, List.getD_cons_succ, tableFrom,
    List.getD_cons_zero] at hone
  have hnext : ∀ e, 2 ≤ e → e < 64 →
      (effectOf .build s).endCommand.memRead (s.cfg.addrOut.toNat + e * s.r) s.r =
        montMul s.limbBits s.nVal s.nq s.r s.aVal
          ((effectOf .build s).endCommand.memRead (s.cfg.addrOut.toNat + (e - 1) * s.r) s.r) := by
    intro e h2 h64
    obtain ⟨d, rfl⟩ : ∃ d, e = d + 1 := ⟨e - 1, by omega⟩
    rw [Nat.add_sub_cancel, hentry _ h64, hentry d (by omega), buildResult,
      buildTable_getD_succ _ _ _ _ _ _ (by omega) h64]
  have hdrawn : drawnIn (s.scrSpan (4 * s.r)) (s.outSpan (64 * s.r)) s (effectOf .build s) := by
    rw [effectOf_build]
    exact drawnIn_publishTable s _ _
  exact ⟨_, exec_completes hbusy hc, hzero, hone, hnext, drawnIn_endCommand hdrawn,
    (Touches_endCommand (Touches_effectOf .build s)).kept, invY_completed (by decide) s,
    endCommand_completedFrom .build s⟩

/-! ### The Montgomery domain (R170, R173) -/

/-- Mont(x) = x * R mod N, with R of r limbs (R170). -/
def mont (w r n x : Nat) : Nat := x * 2 ^ (r * w) % n

/-- Mont(x) depends on x modulo N alone. -/
theorem mont_mod (w r n x : Nat) : mont w r n (x % n) = mont w r n x := Nat.mod_mul_mod ..

theorem mont_lt {w r n : Nat} (hn : 0 < n) (x : Nat) : mont w r n x < n := Nat.mod_lt _ hn

/-- Factors below N have a product below N*R. -/
theorem mul_lt_modulus_mul {w r n a b : Nat} (hn : n < 2 ^ (r * w)) (ha : a < n) (hb : b < n) :
    a * b < n * 2 ^ (r * w) := Nat.mul_lt_mul'' ha (hb.trans hn)

section
variable {w n nq r : Nat} (hw : 0 < w) (hnq : (n * nq + 1) % 2 ^ w = 0) (hn : n < 2 ^ (r * w))
include hw hnq

/-- A modulus with an nquote0 is positive and prime to R, since it is odd (R152). -/
theorem modulus_pos : 0 < n := by
  have := odd_of_nquote0 hw hnq
  omega

theorem modulus_coprime_pow : Nat.Coprime n (2 ^ (r * w)) :=
  (Nat.coprime_two_right.2 (Nat.odd_iff.2 (odd_of_nquote0 hw hnq))).pow_right _

include hn

/-- MontMul of Mont(x) and Mont(y) is Mont(x*y) (R173): both are below N, and N is prime to R, so it is enough
that their products with R are congruent. -/
theorem montMul_mont (x y : Nat) :
    montMul w n nq r (mont w r n x) (mont w r n y) = mont w r n (x * y) := by
  have hpos := modulus_pos hw hnq
  have hprod := mul_lt_modulus_mul hn (mont_lt hpos x : mont w r n x < n)
    (mont_lt hpos y : mont w r n y < n)
  have hmul : montMul w n nq r (mont w r n x) (mont w r n y) * 2 ^ (r * w) ≡
      mont w r n (x * y) * 2 ^ (r * w) [MOD n] :=
    calc montMul w n nq r (mont w r n x) (mont w r n y) * 2 ^ (r * w)
        ≡ mont w r n x * mont w r n y [MOD n] := redc_mul_modEq hnq hn (lt_sq_of_lt_mul hn hprod)
      _ ≡ x * 2 ^ (r * w) * (y * 2 ^ (r * w)) [MOD n] :=
          (Nat.mod_modEq _ _).mul (Nat.mod_modEq _ _)
      _ = x * y * 2 ^ (r * w) * 2 ^ (r * w) := by ring
      _ ≡ mont w r n (x * y) * 2 ^ (r * w) [MOD n] := (Nat.mod_modEq _ _).symm.mul_right _
  exact (Nat.ModEq.cancel_right_of_coprime (modulus_coprime_pow hw hnq) hmul).eq_of_lt_of_lt
    (redc_lt_modulus hnq hn hprod) (mont_lt hpos _)

/-- k squarings of Mont(z) give Mont(z^(2^k)) (R201). -/
theorem squarings_mont (k z : Nat) :
    squarings w n nq r k (mont w r n z) = mont w r n (z ^ 2 ^ k) := by
  induction k generalizing z with
  | zero => rw [squarings, pow_zero, pow_one]
  | succ k ih =>
    have hsq : montSqr w n nq r (mont w r n z) = mont w r n (z ^ 2) := by
      rw [pow_two]
      exact montMul_mont hw hnq hn z z
    rw [squarings, hsq, ih, ← pow_mul, ← pow_succ']

/-- The table law (R192). -/
theorem buildTable_mont (x : Nat) {e : Nat} (h1 : 1 ≤ e) (h64 : e < 64) :
    (buildTable w n nq r (mont w r n x)).getD e 0 = mont w r n (x ^ e) := by
  induction e, h1 using Nat.le_induction with
  | base => rw [buildTable, List.getD_cons_succ, tableFrom, List.getD_cons_zero, pow_one]
  | succ e h1 ih =>
    rw [buildTable_getD_succ _ _ _ _ _ _ h1 h64, ih (by omega), montMul_mont hw hnq hn, pow_succ']

/-- One block of MODPOW with the table of Mont(x) (R201): six squarings, then x^win. -/
theorem powBlock_mont (x z : Nat) {win : Nat} (hwin : win < 64) :
    powBlock w n nq r (buildTable w n nq r (mont w r n x)) win (mont w r n z) =
      mont w r n (z ^ 2 ^ 6 * x ^ win) := by
  simp only [powBlock]
  rw [squarings_mont hw hnq hn]
  split
  case isTrue h => rw [h, pow_zero, Nat.mul_one]
  case isFalse h => rw [buildTable_mont hw hnq hn x (by omega) hwin, montMul_mont hw hnq hn]

end

/-- The windows are 6-bit values (R202). -/
theorem window_lt (s : State) (j : Nat) : s.window j < 64 := by
  rw [window_eq_digit]
  exact Nat.mod_lt _ (by decide)

/-- The blocks below k raise the accumulator to 2^(6k) and multiply in x to the power that the windows below k
hold (R203). -/
theorem powBlocks_mont {w n nq r : Nat} (hw : 0 < w) (hnq : (n * nq + 1) % 2 ^ w = 0)
    (hn : n < 2 ^ (r * w)) (s : State) (x z k : Nat) :
    powBlocks w n nq r (buildTable w n nq r (mont w r n x)) (s.windowsBelow k) (mont w r n z) =
      mont w r n (z ^ 2 ^ (6 * k) * x ^ ∑ j ∈ Finset.range k, s.window j * 2 ^ (6 * j)) := by
  induction k generalizing z with
  | zero => simp [State.windowsBelow, powBlocks]
  | succ k ih =>
    rw [State.windowsBelow, powBlocks, powBlock_mont hw hnq hn x z (window_lt s k), ih,
      Finset.sum_range_succ]
    congr 1
    ring

/-- Settles O21: the product of the operands is below N*R, so Redc gives the reduced value. -/
theorem mulIsMontgomeryProduct : Obligations.MulIsMontgomeryProduct := by
  intro s hbusy hc hnq ha hb
  have hn := nVal_lt s
  have hprod := mul_lt_modulus_mul hn ha hb
  have hout := memRead_completed_single (v := mulResult s) (by decide) hc rfl
  refine ⟨_, exec_completes hbusy hc, ?_, ?_, fun x y hx hy => ?_⟩ <;> rw [hout, mulResult]
  · exact redc_lt_modulus hnq hn hprod
  · exact redc_mul_modEq hnq hn (lt_sq_of_lt_mul hn hprod)
  · rw [hx, hy]
    exact (montMul_mont (limbBits_pos s) hnq hn x y).trans (mont_mod ..).symm

/-- Settles O22: a square is the product of Mont(x) with itself. -/
theorem sqrIsMontgomerySquare : Obligations.SqrIsMontgomerySquare := by
  intro s x hbusy hc hnq ha
  refine ⟨_, exec_completes hbusy hc, ?_⟩
  rw [memRead_completed_single (v := sqrResult s) (by decide) hc rfl, sqrResult, ha, pow_two]
  exact (montMul_mont (limbBits_pos s) hnq (nVal_lt s) x x).trans (mont_mod ..).symm

/-- Settles O24: the entries published are those of the table of Mont(x). -/
theorem tableHoldsMontgomeryPowers : Obligations.TableHoldsMontgomeryPowers := by
  intro s x hbusy hc hnq ha
  refine ⟨_, exec_completes hbusy hc, fun e h1 h64 => ?_⟩
  rw [memRead_build_entry hc h64, buildResult, ha]
  exact (buildTable_mont (limbBits_pos s) hnq (nVal_lt s) x h1 h64).trans (mont_mod ..).symm

/-- Settles O27: the windows of all blocks hold E mod 2^L. -/
theorem modpowComputesPower : Obligations.ModpowComputesPower := by
  intro s x z hbusy hc hnq ha hz
  obtain ⟨-, -, -, hexp⟩ := windowsHoldExponent s
  refine ⟨_, exec_completes hbusy hc, ?_⟩
  rw [memRead_completed_single (v := modpowResult s) (by decide) hc rfl, modpowResult, buildResult, ha,
    hz, ← hexp]
  exact (powBlocks_mont (limbBits_pos s) hnq (nVal_lt s) s x z s.blocks).trans (mont_mod ..).symm

end Sys2Proof.Machine
end

section
/-! PROOFS. INV1 (42_inverse.md): Inv1 settles one bit of the inverse per pass (R141, R142), and of the negated
low word it gives nquote0 (R144). -/

namespace Sys2Proof.Machine

/-! ### The passes of Inv1 (R141) -/

/-- A pass adds bit b where bit b of x * y is 1: y has no bit there yet. -/
theorem inv1Bit_eq {w x y b : Nat} (hy : y < 2 ^ b) (hb : b < w) :
    inv1Bit w x y b = if x * y / 2 ^ b % 2 = 1 then y + 2 ^ b else y := by
  have hor : y ||| 1 <<< b = y + 2 ^ b := by
    rw [Nat.one_shiftLeft, Nat.or_comm, Nat.add_comm]
    simpa using (Nat.two_pow_add_eq_or_of_lt hy 1).symm
  have hbit : (mulLo w x y).testBit b = decide (x * y / 2 ^ b % 2 = 1) := by
    rw [mulLo, Nat.testBit_mod_two_pow, decide_eq_true hb, Bool.true_and,
      Nat.testBit_eq_decide_div_mod_eq]
  simp only [inv1Bit, hbit, hor, decide_eq_true_eq]

/-- One pass doubles the modulus of the inverse: for odd x, adding 2^b to y flips bit b of x * y. -/
theorem inv1Bit_inverts {w x y b : Nat} (hx : x % 2 = 1) (hb : b < w) (hpos : 0 < b) (hy : y < 2 ^ b)
    (hinv : x * y % 2 ^ b = 1) : x * inv1Bit w x y b % 2 ^ (b + 1) = 1 := by
  have hone : 1 < 2 ^ b := Nat.one_lt_two_pow hpos.ne'
  have hsplit := Nat.mod_add_div (x * y) (2 ^ b)
  rw [hinv] at hsplit
  rw [inv1Bit_eq hy hb, pow_succ]
  generalize x * y / 2 ^ b = q at hsplit ⊢
  split
  case isTrue hq =>
    obtain ⟨d, hd⟩ : 2 ∣ q + x := by omega
    have hprod : x * (y + 2 ^ b) = 1 + 2 ^ b * 2 * d := by
      rw [Nat.mul_add, ← hsplit, Nat.mul_assoc (2 ^ b), ← hd]
      ring
    rw [hprod, Nat.add_mul_mod_self_left, Nat.mod_eq_of_lt (by omega)]
  case isFalse hq =>
    obtain ⟨d, rfl⟩ : 2 ∣ q := by omega
    rw [← hsplit, ← Nat.mul_assoc, Nat.add_mul_mod_self_left, Nat.mod_eq_of_lt (by omega)]

/-- After the passes up to bit k, y is the inverse modulo 2^(k+1) (R142). -/
theorem inv1Upto_inverts {w x : Nat} (hx : x % 2 = 1) {k : Nat} (hk : k < w) :
    inv1Upto w x k < 2 ^ (k + 1) ∧ x * inv1Upto w x k % 2 ^ (k + 1) = 1 := by
  induction k with
  | zero => exact ⟨Nat.one_lt_two, by rw [inv1Upto, Nat.mul_one]; exact hx⟩
  | succ k ih =>
    obtain ⟨hlt, hinv⟩ := ih (by omega)
    have hbit := inv1Bit_eq (x := x) hlt hk
    refine ⟨?_, inv1Bit_inverts hx hk (Nat.succ_pos k) hlt hinv⟩
    rw [inv1Upto, hbit, pow_succ 2 (k + 1)]
    split <;> omega

/-- Inv1 of an odd word is its inverse modulo 2^W (R142). -/
theorem inv1_inverts {w x : Nat} (hw : 0 < w) (hx : x % 2 = 1) :
    inv1 w x < 2 ^ w ∧ x * inv1 w x % 2 ^ w = 1 := by
  have h := inv1Upto_inverts (w := w) hx (k := w - 1) (by omega)
  rwa [Nat.sub_add_cancel hw] at h

/-- An inverse modulo 2^W is the only one below 2^W. -/
theorem inverse_unique {w x y z : Nat} (hy : y < 2 ^ w) (hz : z < 2 ^ w) (hxy : x * y % 2 ^ w = 1)
    (hxz : x * z % 2 ^ w = 1) : y = z := by
  have h : y ≡ z [MOD 2 ^ w] :=
    calc y ≡ y * (x * z) [MOD 2 ^ w] := by
          conv_lhs => rw [← Nat.mul_one y, ← hxz]
          exact (Nat.mod_modEq _ _).mul_left y
      _ = z * (x * y) := by ring
      _ ≡ z [MOD 2 ^ w] := by
          conv_rhs => rw [← Nat.mul_one z, ← hxy]
          exact (Nat.mod_modEq _ _).symm.mul_left z
  exact h.eq_of_lt_of_lt hy hz

/-! ### The command (R141) -/

theorem limbBits_le (s : State) : s.limbBits ≤ 64 := by
  rw [State.limbBits]
  cases s.params.width <;> decide

/-- A W-bit value fits the 64 bits that hold it (log entry 12). -/
theorem toNat_ofNat_limb {s : State} {v : Nat} (h : v < 2 ^ s.limbBits) :
    (BitVec.ofNat 64 v).toNat = v := by
  rw [BitVec.toNat_ofNat,
    Nat.mod_eq_of_lt (h.trans_le (Nat.pow_le_pow_right two_pos (limbBits_le s)))]

/-- Settles O11: INV1 has no buffers, so its completion is never out of range. -/
theorem inv1Completes : Obligations.Inv1Completes := fun _ hbusy => exec_completes hbusy rfl

/-- Settles O12: the completion leaves Inv1 of INV_X. -/
theorem inv1InvertsOddWords : Obligations.Inv1InvertsOddWords := by
  intro s hbusy hx
  obtain ⟨hlt, hinv⟩ := inv1_inverts (limbBits_pos s) hx
  refine ⟨_, inv1Completes s hbusy, ?_⟩
  dsimp only
  rw [toNat_ofNat_limb hlt]
  exact ⟨hlt, hinv, fun y hy hxy => inverse_unique hy hlt hxy hinv⟩

/-- The negated low word of an odd modulus is odd, and adding it to the modulus gives 0 modulo 2^W. -/
theorem neg_low_word {w n : Nat} (hw : 0 < w) (hn : n % 2 = 1) :
    (2 ^ w - n % 2 ^ w) % 2 ^ w % 2 = 1 ∧ 2 ^ w ∣ n + (2 ^ w - n % 2 ^ w) % 2 ^ w := by
  have heven : 2 ∣ 2 ^ w := dvd_pow_self 2 hw.ne'
  have hlow : n % 2 ^ w % 2 = 1 := by rw [Nat.mod_mod_of_dvd _ heven, hn]
  have hlt := Nat.mod_lt n (Nat.two_pow_pos w)
  have hsplit := Nat.mod_add_div n (2 ^ w)
  rw [Nat.mod_eq_of_lt (by omega : 2 ^ w - n % 2 ^ w < 2 ^ w)]
  refine ⟨by omega, n / 2 ^ w + 1, ?_⟩
  rw [Nat.mul_succ]
  omega

/-- With x = -n modulo 2^W, the inverse y of x has n * y = -1 (R144). -/
theorem mul_inv1_neg {w n : Nat} (hw : 0 < w) (hn : n % 2 = 1) :
    (n * inv1 w ((2 ^ w - n % 2 ^ w) % 2 ^ w) + 1) % 2 ^ w = 0 := by
  obtain ⟨hodd, hneg⟩ := neg_low_word hw hn
  obtain ⟨-, hinv⟩ := inv1_inverts hw hodd
  generalize (2 ^ w - n % 2 ^ w) % 2 ^ w = x at *
  rw [← hinv, Nat.add_mod_mod, ← Nat.add_mul]
  exact Nat.mod_eq_zero_of_dvd (hneg.mul_right _)

/-- Settles O13: the negated low word is odd, and its inverse is negated in turn. -/
theorem inv1GivesNquote0 : Obligations.Inv1GivesNquote0 := fun _ _ => mul_inv1_neg

end Sys2Proof.Machine
end

section
/-! PROOFS. What the steps of a command are (40_command_control.md): the CMD write (R100, R106), the controller
moves (R42), the completion (R108), and the two in a row; and STATUS as a word (R26). -/

namespace Sys2Proof.Machine

/-! ### STATUS (R26) -/

theorem statusWord_toNat (s : State) :
    s.statusWord.toNat = s.busy.toNat + 2 * s.status.done.toNat + 4 * s.status.overrun.toNat +
      8 * s.status.hostviol.toNat + 16 * s.status.err.code := by
  rw [← regValue_status_toNat, State.regValue, BitVec.toNat_setWidth, Nat.mod_eq_of_lt]
  exact s.statusWord.isLt.trans (by decide)

/-- A bit of a word is the flag that its digit there holds. -/
theorem getLsbD_of_digit {w : Word32} {k : Nat} {b : Bool} (h : w.toNat / 2 ^ k % 2 = b.toNat) :
    w.getLsbD k = b := by
  rw [BitVec.getLsbD, Nat.testBit_eq_decide_div_mod_eq, h]
  cases b <;> rfl

/-- Settles O43: each flag is one binary digit of the word, and the code is what is left above them. -/
theorem statusWordFields : Obligations.StatusWordFields := by
  intro s
  have hword := statusWord_toNat s
  have hbusy := s.busy.toNat_le
  have hdone := s.status.done.toNat_le
  have hover := s.status.overrun.toNat_le
  have hviol := s.status.hostviol.toNat_le
  exact ⟨getLsbD_of_digit (by omega), getLsbD_of_digit (by omega), getLsbD_of_digit (by omega),
    getLsbD_of_digit (by omega), by omega, s.status.err.code_le⟩

/-! ### The words of the opcode map (R81) -/

/-- Settles O1: the six words are those the encoder gives, and the others fail one of the decoder's checks. -/
theorem specWordsDecode : Obligations.SpecWordsDecode := by
  have hok (w : Word32) (i : Instr) (h : w = encode i) : decode w = .ok i :=
    (decode_eq_ok_iff_encode w i).2 h
  exact ⟨hok _ .inv1 rfl, hok _ .redc rfl, hok _ .mul rfl, hok _ .sqr rfl, hok _ .build rfl,
    hok _ .modpow rfl, rfl, rfl, rfl, rfl⟩

/-- A command's word survives the 64-bit data of the register port (R30, R88). -/
theorem decode_encode_slot (i : Instr) : decode (((encode i).setWidth 64).setWidth 32) = .ok i := by
  rw [decode_eq_ok_iff_encode]
  cases i <;> rfl

/-! ### Acceptance (R106) -/

/-- Where a command starts depends on its operands alone. -/
theorem accept_eq (i : Instr) (s : State) :
    s.beginCommand.accept i = { s with
      engine := some { op := i, pos := s.firstPosition i }
      status := { s.status with done := false, err := .none } } := by
  have hsame : SameOperands s s.beginCommand := ⟨rfl, rfl, rfl, rfl⟩
  rw [State.accept, firstPosition_same hsame]
  rfl

theorem exec_accepted {i : Instr} {s : State} (hidle : s.busy = false)
    (hc : checkOperands i s = .none) : exec i s = .next (s.beginCommand.accept i) := by
  rw [exec_idle hidle]
  obtain ⟨-, hissue⟩ | ⟨hfail, -⟩ := issue_cases s i
  · rw [hissue]
  · exact absurd hc hfail

/-- Settles O3: the phase is that of the first position, command by command. -/
theorem checkedCommandIsAccepted : Obligations.CheckedCommandIsAccepted := by
  intro i s hidle hc
  refine ⟨_, exec_accepted hidle hc, rfl, accept_eq i s, ?_⟩
  cases i <;> rfl

/-! ### The steps of the engine (R42, R108, R109) -/

theorem completeEngine_running {s : State} {e : Engine} (h : s.engine = some e) :
    s.completeEngine = exec e.op s := by
  rw [State.completeEngine, h]

theorem completeEngine_idle {s : State} (h : s.engine = none) : s.completeEngine = .next s := by
  rw [State.completeEngine, h]

/-- Before FINISH a step on `.advance` is one controller move. -/
theorem step_advance {s : State} {e : Engine} {rest : List Event} (hb : s.bus = .advance :: rest)
    (he : s.engine = some e) (hp : e.pos.phase ≠ .finish) :
    step s = .next { s with bus := rest, engine := some (s.moveEngine e) } := by
  rw [step_event hb]
  obtain ⟨hn, -⟩ | ⟨f, hf, -, hfin⟩ | ⟨f, hf, hmove, -⟩ := advanceEngine_cases { s with bus := rest }
  · cases he.symm.trans hn
  · cases he.symm.trans hf
    exact absurd hfin hp
  · cases he.symm.trans hf
    have hsame : SameOperands s { s with bus := rest } := ⟨rfl, rfl, rfl, rfl⟩
    rw [State.serve, hmove, moveEngine_same hsame]

/-- At FINISH it is the completion. -/
theorem step_advance_finish {s : State} {e : Engine} {rest : List Event}
    (hb : s.bus = .advance :: rest) (he : s.engine = some e) (hp : e.pos.phase = .finish) :
    step s = exec e.op { s with bus := rest } := by
  rw [step_event hb]
  obtain ⟨hn, -⟩ | ⟨f, hf, hexec, -⟩ | ⟨f, hf, -, hfin⟩ := advanceEngine_cases { s with bus := rest }
  · cases he.symm.trans hn
  · cases he.symm.trans hf
    exact hexec
  · cases he.symm.trans hf
    exact absurd hp hfin

theorem step_complete {s : State} {e : Engine} {rest : List Event} (hb : s.bus = .complete :: rest)
    (he : s.engine = some e) : step s = exec e.op { s with bus := rest } :=
  (step_event hb).trans (completeEngine_running he)

theorem step_quiet_running {s : State} {e : Engine} (hb : s.bus = []) (he : s.engine = some e) :
    step s = exec e.op s := (step_quiet hb).trans (completeEngine_running he)

/-- An engine event on an idle engine is only taken from the schedule (R246, log entry 25). -/
theorem step_engineEvent_idle {s : State} {rest : List Event} (he : s.engine = none)
    (hb : s.bus = .advance :: rest ∨ s.bus = .complete :: rest) :
    step s = .next { s with bus := rest } := by
  obtain hb | hb := hb <;> rw [step_event hb]
  · rw [State.serve, State.advanceEngine]
    dsimp only
    rw [he]
  · exact completeEngine_idle he

/-- The step of the CMD write of a command word to an idle engine (R100). -/
theorem step_command {s : State} {v : Slot} {rest : List Event} {i : Instr}
    (hb : s.bus = .regWrite (Reg.offset .cmd) v :: rest) (hidle : s.busy = false)
    (hw : decode (v.setWidth 32) = .ok i) : step s = exec i { s with bus := rest } :=
  (step_cmdWrite hb).trans (cmdWrite_decoded (s := { s with bus := rest }) hidle hw)

/-- Settles O8, a lemma for each event. -/
theorem stepRunsDecodedCommand : Obligations.StepRunsDecodedCommand :=
  ⟨fun _ _ _ => step_cmdWrite, fun _ _ _ _ => step_command, fun _ _ _ => step_complete,
    fun _ _ => step_quiet_running,
    fun _ _ _ hb he => ⟨step_advance hb he, step_advance_finish hb he⟩,
    fun _ he => ⟨fun hb => (step_quiet hb).trans (completeEngine_idle he),
      fun _ => step_engineEvent_idle he⟩⟩

theorem decode_of_decodeTableWord {w : Nat} {i : Instr} (h : decodeTableWord 32 w = some i) :
    decode (BitVec.ofNat 32 (w % 2 ^ 32)) = .ok i := by
  rw [decodeTableWord] at h
  split at h
  · rename_i j hj
    rw [hj, Option.some.inj h]
  · cases h

/-- Settles O9: the word at the head of the schedule is a CMD write to an idle engine. -/
theorem fetchWordIsRun : Obligations.FetchWordIsRun := by
  intro s w i h
  have hword : (BitVec.ofNat 64 (w % 2 ^ 32)).setWidth 32 = BitVec.ofNat 32 (w % 2 ^ 32) :=
    BitVec.eq_of_toNat_eq (by simp)
  exact step_command (s := s.withFetchWord 32 w) rfl rfl
    (by rw [hword]; exact decode_of_decodeTableWord h)

/-- Settles O58: the one transaction is the CMD write of the command's word. -/
theorem mnemonicIssuesCommand : Obligations.MnemonicIssuesCommand := fun _ i _ hidle hb =>
  ⟨rfl, step_command hb hidle (decode_encode_slot i)⟩

/-! ### A command from its CMD write to its completion (R69, R100, R108) -/

/-- The completion of INV1 leaves its result in INV_Y and no limb changed (R141). -/
theorem inv1_completed (s : State) :
    (effectOf .inv1 s).endCommand.invY.toNat = (resultsOf s .inv1).getD 0 0 ∧
      (effectOf .inv1 s).endCommand.lmem = s.lmem := by
  have hlt : inv1 s.limbBits s.invArg < 2 ^ s.limbBits :=
    inv1Upto_lt _ _ _ (Nat.sub_lt (limbBits_pos s) Nat.one_pos)
  exact ⟨toNat_ofNat_limb hlt, rfl⟩

/-- A command completed on the operands of `s` leaves there the results owed in `s` (R108, R110). -/
theorem completed_results {i : Instr} {s v : State} (h : SameOperands s v)
    (hc : checkOperands i s = .none) :
    (i = .inv1 → (effectOf i v).endCommand.invY.toNat = (resultsOf s i).getD 0 0 ∧
      (effectOf i v).endCommand.lmem = s.lmem) ∧
    (i ≠ .inv1 → (effectOf i v).endCommand.invY = v.invY ∧ ∀ k, k < (resultsOf s i).length →
      (effectOf i v).endCommand.memRead (s.cfg.addrOut.toNat + k * s.r) s.r =
        (resultsOf s i).getD k 0) := by
  have hcv : checkOperands i v = .none := (checkOperands_congr h.params h.cfg i).trans hc
  rw [← resultsOf_same h, ← h.lmem, ← h.cfg, ← r_same h]
  refine ⟨?_, fun hi => ⟨invY_completed hi v, fun k => memRead_completed_out hi hcv⟩⟩
  rintro rfl
  exact inv1_completed v

/-- Settles O10: acceptance changes no operand, so the completion publishes the results owed before it. -/
theorem issueThenComplete : Obligations.IssueThenComplete := by
  intro i s rest hb hidle hc
  have haccept := (step_command hb hidle (decode_encode_slot i)).trans
    (exec_accepted (s := { s with bus := .complete :: rest }) hidle
      ((checkOperands_congr (s := s) rfl rfl i).trans hc))
  rw [accept_eq] at haccept
  have hsame (e : Option Engine) (st : Status) (b : List Event) :
      SameOperands s { s with engine := e, status := st, bus := b } := ⟨rfl, rfl, rfl, rfl⟩
  have hexec (e : Engine) (st : Status) :=
    exec_completes (s := { s with engine := some e, status := st, bus := rest }) rfl
      ((checkOperands_congr (s := s) rfl rfl i).trans hc)
  obtain ⟨hinv1, hother⟩ := completed_results (hsame _ _ _) hc
  obtain ⟨-, -, -, hbus, -, -, -, hdone⟩ := endCommand_completedFrom i _
  exact ⟨_, _, haccept, rfl, rfl, rfl, rfl, resultsOf_same (hsame _ _ _) i,
    (step_complete rfl rfl).trans (hexec _ _), hexec _ _, rfl, hbus, hdone, hinv1, hother⟩

end Sys2Proof.Machine
end

section
/-! PROOFS. What every step keeps (10_state.md, 20_memory.md section 2): the parameters, INV_Y and the operands
of a running command, the invariant, and the controller's track; and what follows of runs (R109, R223). -/

namespace Sys2Proof.Machine

/-! ### What a step leaves alone -/

@[simp] theorem drawSpans_params (l : List Interval) (s : State) :
    (s.drawSpans l).params = s.params := (Touches_drawSpans l s).params

@[simp] theorem assertRst_params (s : State) : s.assertRst.params = s.params := by
  unfold State.assertRst
  split
  · rfl
  · exact drawSpans_params _ s

/-- Settles O51: no case of a step writes the parameters. -/
theorem parametersNeverChange : Obligations.ParametersNeverChange := by
  intro s t h
  cases step_cases h with
  | complete e => exact (effectOf_keeps e.op _).1
  | rst => exact assertRst_params _
  | _ => rfl

/-- An event at the head of the schedule, as the step sees it. -/
theorem bus_of_head {s : State} {ev : Event} (h : s.bus.head? = some ev) : ∃ rest, s.bus = ev :: rest :=
  List.head?_eq_some_iff.1 h

/-- Settles O47: of the cases of a step only a completion and the resets write INV_Y, and only INV1's completion
does. -/
theorem onlyInv1WritesInvY : Obligations.OnlyInv1WritesInvY := by
  intro s t h hne
  cases step_cases h with
  | complete e he =>
    by_cases hop : e.op = .inv1
    · refine .inl ⟨e, he, hop, rfl, ?_⟩
      rw [hop]
      rfl
    · exact absurd (invY_completed hop _) hne
  | rst hev =>
    obtain ⟨rest, hb⟩ := bus_of_head hev
    exact .inr ⟨rest, .inl hb⟩
  | powerOn hev =>
    obtain ⟨rest, hb⟩ := bus_of_head hev
    exact .inr ⟨rest, .inr hb⟩
  | _ => exact absurd rfl hne

/-- A step from a running command to a running command is a host access to flags or a controller move. -/
theorem step_busy_cases {s t : State} {e f : Engine} (h : step s = .next t) (he : s.engine = some e)
    (hf : t.engine = some f) :
    SameOperands s t ∧ t.invY = s.invY ∧ (f = e ∨ f = s.moveEngine e) := by
  have hsame : SameOperands s { s with bus := s.bus.tail } := ⟨rfl, rfl, rfl, rfl⟩
  cases step_cases h with
  | flags => exact ⟨⟨rfl, rfl, rfl, rfl⟩, rfl, .inl (Option.some.inj (hf.symm.trans he))⟩
  | move g hg =>
    obtain rfl := Option.some.inj (he.symm.trans hg)
    refine ⟨⟨rfl, rfl, rfl, rfl⟩, rfl, .inr ?_⟩
    rw [← moveEngine_same hsame]
    exact (Option.some.inj hf).symm
  | cfg hn | store hn | storeBytes hn | accept hn | reject hn => cases he.symm.trans hn
  | complete | powerOn => cases hf
  | rst => cases (assertRst_engine _).symm.trans hf

/-- Settles O48: a controller move keeps the opcode (R40). -/
theorem runningCommandKeepsItsOperands : Obligations.RunningCommandKeepsItsOperands := by
  intro s t h hs ht
  obtain ⟨e, he⟩ := (busy_iff s).1 hs
  obtain ⟨f, hf⟩ := (busy_iff t).1 ht
  obtain ⟨hsame, hinvY, hengine⟩ := step_busy_cases h he hf
  refine ⟨hsame.cfg, hsame.lmem, hsame.powerDraw, hinvY, ?_⟩
  rw [he, hf]
  obtain rfl | rfl := hengine <;> rfl

/-- A step from an idle engine to a running command accepts it in its first position (R106). -/
theorem step_accepts {s t : State} {f : Engine} (h : step s = .next t) (hs : s.engine = none)
    (hf : t.engine = some f) :
    SameOperands s t ∧ f = { op := f.op, pos := s.firstPosition f.op } := by
  have hsame : SameOperands s (State.beginCommand { s with bus := s.bus.tail }) :=
    ⟨rfl, rfl, rfl, rfl⟩
  cases step_cases h with
  | accept _ i =>
    obtain rfl := Option.some.inj hf
    exact ⟨⟨rfl, rfl, rfl, rfl⟩, by rw [firstPosition_same hsame]⟩
  | complete e he => cases hs.symm.trans he
  | move e he => cases hs.symm.trans he
  | powerOn => cases hf
  | rst => cases (assertRst_engine _).symm.trans hf
  | _ => cases hs.symm.trans hf

/-- Settles O38: a running command moved on or stayed, and its operands did not change; a new one is in its first
position. -/
theorem stepKeepsControllerTrack : Obligations.StepKeepsControllerTrack := by
  intro s t hs h f hf
  cases he : s.engine with
  | none =>
    obtain ⟨hsame, hfirst⟩ := step_accepts h he hf
    exact ⟨0, by rw [State.moveEngines, firstPosition_same hsame]; exact hfirst⟩
  | some e =>
    obtain ⟨hsame, -, hengine⟩ := step_busy_cases h he hf
    obtain ⟨k, hk⟩ := hs e he
    have hop : f.op = e.op := by obtain rfl | rfl := hengine <;> rfl
    rw [hop]
    simp only [moveEngines_same hsame, firstPosition_same hsame]
    obtain rfl | rfl := hengine
    · exact ⟨k, hk⟩
    · exact ⟨k + 1, by rw [moveEngines_succ, ← hk]⟩

/-! ### The ranges of the controller's values (R40) -/

theorem enterRedc_ok {s : State} {i : Instr} {t : List Nat} (hi : i = .redc ∨ i = .mul ∨ i = .sqr)
    (hr : 0 < s.r) (hlen : t.length = 2 * s.r) (ht : ∀ x ∈ t, x < 2 ^ s.limbBits) :
    Position.okFor s i (s.enterRedc t) :=
  ⟨hi, hr, hlen, ht, Nat.mod_lt _ (Nat.two_pow_pos _)⟩

theorem enterBlock_ok {s : State} {entries : List Nat} {acc k : Nat} (hk : k ≤ s.blocks)
    (hlen : entries.length = 64) (hentries : ∀ x ∈ entries, x < 2 ^ (s.r * s.limbBits))
    (hacc : acc < 2 ^ (s.r * s.limbBits)) : Position.okFor s .modpow (s.enterBlock entries acc k) := by
  cases k with
  | zero => exact ⟨rfl, List.forall_mem_singleton.2 hacc⟩
  | succ j => exact ⟨rfl, hk, by decide, hlen, hentries, hacc⟩

/-- The two literal entries of the table fit r limbs (R193). -/
theorem first_entries_lt {s : State} (hr : 0 < s.r) :
    ∀ x ∈ [1, s.aVal], x < 2 ^ (s.r * s.limbBits) :=
  List.forall_mem_cons.2 ⟨Nat.one_lt_two_pow (Nat.mul_pos hr (limbBits_pos s)).ne',
    List.forall_mem_singleton.2 (aVal_lt s)⟩

/-- The first position of a command that passes its checks is in range. -/
theorem firstPosition_ok {s : State} {i : Instr} (hc : checkOperands i s = .none) :
    Position.okFor s i (s.firstPosition i) := by
  have hbits := limbBits_ge s
  cases i with
  | inv1 => exact ⟨rfl, le_rfl, by omega, Nat.one_lt_two_pow (by omega)⟩
  | redc =>
    exact enterRedc_ok (.inl rfl) (r_pos_of_checked (by decide) hc) (limbs_length s _ _) (limbs_lt s _ _)
  | mul => exact .inl rfl
  | sqr => exact .inr rfl
  | build => exact ⟨.inl rfl, le_rfl, by decide, rfl, first_entries_lt (r_pos_of_checked (by decide) hc)⟩
  | modpow => exact ⟨.inr rfl, le_rfl, by decide, rfl, first_entries_lt (r_pos_of_checked (by decide) hc)⟩

/-- A move keeps the position in range, position by position. -/
theorem movePosition_ok {s : State} {i : Instr} {p : Position} (hc : checkOperands i s = .none)
    (h : Position.okFor s i p) : Position.okFor s i (s.movePosition i p) := by
  cases p with
  | inv y b =>
    obtain ⟨rfl, hlow, hhigh, hy⟩ := h
    have hy' := inv1Bit_lt s.limbBits s.invArg y b hhigh hy
    simp only [State.movePosition]
    split
    · exact ⟨rfl, by omega, by assumption, hy'⟩
    · exact ⟨rfl, List.forall_mem_singleton.2 (by simpa using hy')⟩
  | prod =>
    have hr : 0 < s.r := r_pos_of_checked (by rintro rfl; simp [Position.okFor] at h) hc
    simp only [State.movePosition]
    refine enterRedc_ok (.inr h) hr ?_ ?_ <;> split
    · exact limbsOf_length ..
    · exact limbsOf_length ..
    · exact limbsOf_lt _ _ _
    · exact limbsOf_lt _ _ _
  | redcRed t d c m =>
    obtain ⟨hi, -, hlen, ht, -⟩ := h
    obtain ⟨hlen', ht'⟩ := addMulShift_ok s.limbBits d m t s.nLimbs ht
    simp only [State.movePosition]
    split
    · exact ⟨hi, by assumption, hlen'.trans hlen, ht', Nat.mod_lt _ (Nat.two_pow_pos _)⟩
    · exact ⟨hi, hlen'.trans hlen, ht'⟩
  | redcFix t c =>
    obtain ⟨hi, hlen, ht⟩ := h
    have hlt := redcFixLimbs_lt s.limbBits s.r s.nLimbs t c (limbs_length ..) hlen ht
    obtain rfl | rfl | rfl := hi <;> exact ⟨rfl, List.forall_mem_singleton.2 hlt⟩
  | tbl entries ti =>
    obtain ⟨hi, hlow, hhigh, hlen, hentries⟩ := h
    have hlen' (v : Nat) : (entries ++ [v]).length = ti + 1 := by simp [hlen]
    have hentries' (y : Nat) : ∀ x ∈ entries ++ [s.engineMul s.aVal y], x < 2 ^ (s.r * s.limbBits) :=
      List.forall_mem_append.2 ⟨hentries, List.forall_mem_singleton.2 (engineMul_lt s _ _)⟩
    simp only [State.movePosition, Config.tableEntries]
    split
    · exact ⟨hi, by omega, by assumption, hlen' _, hentries' _⟩
    · have hti : ti + 1 = 64 := by omega
      obtain rfl | rfl := hi
      · exact ⟨(hlen' _).trans hti, hentries' _⟩
      · exact enterBlock_ok le_rfl ((hlen' _).trans hti) (hentries' _) (memRead_lt s _ _)
  | winSq entries acc j q win =>
    obtain ⟨rfl, hj, hq, hlen, hentries, -⟩ := h
    simp only [State.movePosition]
    split
    · exact ⟨rfl, hj, by assumption, hlen, hentries, engineSqr_lt s _⟩
    · split
      · exact enterBlock_ok hj.le hlen hentries (engineSqr_lt s _)
      · exact ⟨rfl, hj, by assumption, hlen, hentries, engineSqr_lt s _⟩
  | winMul entries acc j win =>
    obtain ⟨rfl, hj, -, hlen, hentries, -⟩ := h
    exact enterBlock_ok hj.le hlen hentries (engineMul_lt s _ _)
  | finish results => exact h

/-! ### The invariant -/

theorem powerOn_inv (p : Params) : (State.powerOn p).Inv :=
  ⟨⟨powerOn_lmem_wf p, by simp [State.powerOn]⟩,
    ⟨Nat.two_pow_pos _, Nat.two_pow_pos _, Nat.two_pow_pos _⟩, by simp [State.engineOk, State.powerOn]⟩

/-- Settles O35: the memory is empty, the registers are 0, and no command runs. -/
theorem powerOnIsGood : Obligations.PowerOnIsGood :=
  ⟨fun p => ⟨powerOn_inv p, fun _ he => by cases he⟩, powerOn_inv _⟩

/-- A write of a cfg register stores low bits of its width (R30). -/
theorem cfg_set_regsOk {c : CfgRegs} {w : LimbWidth} (r : Reg) (v : Slot)
    (hnq : c.nquote0.toNat < 2 ^ w.bits) (hx : c.invX.toNat < 2 ^ w.bits) :
    (c.set w r v).nquote0.toNat < 2 ^ w.bits ∧ (c.set w r v).invX.toNat < 2 ^ w.bits := by
  have hnarrow : (narrowTo w v).toNat < 2 ^ w.bits := by
    rw [narrowTo_toNat]
    exact Nat.mod_lt _ (Nat.two_pow_pos _)
  cases r with
  | nquote0 => exact ⟨hnarrow, hx⟩
  | invX => exact ⟨hnq, hnarrow⟩
  | _ => exact ⟨hnq, hx⟩

/-- A write inside LMEM keeps LMEM canonical and inside its limbs (R37). -/
theorem lmemOk_writeBytes {s : State} (h : s.lmemOk) {a : Nat} {bs : List Byte}
    (ha : a + bs.length ≤ s.lmemBytes) :
    Memory.wf (Memory.writeBytes s.lmem a bs) ∧
      ∀ c ∈ Memory.writeBytes s.lmem a bs, c.1 < s.lmemLimbs * s.limbBytes := by
  obtain ⟨hwf, hin⟩ := h
  refine ⟨writeBytes_wf hwf a bs, fun c hc => ?_⟩
  obtain hold | ⟨-, hnew⟩ := mem_writeBytes hc
  · exact hin c hold
  · exact hnew.trans_le ha

/-- So does a completion, whose written intervals lie in LMEM (R66, R104). -/
theorem lmemOk_effectOf {s : State} {i : Instr} (h : s.lmemOk) (hr : rangeViolation i s = false) :
    (effectOf i s).endCommand.lmemOk := by
  have htouch := Touches_endCommand (Touches_effectOf i s)
  generalize (effectOf i s).endCommand = t at htouch ⊢
  obtain ⟨hwf, hin⟩ := h
  refine ⟨htouch.wf hwf, fun c hc => ?_⟩
  rw [State.lmemLimbs, State.limbBytes, htouch.params]
  obtain hold | ⟨x, hx, hlow, hhigh⟩ := htouch.cells c hc
  · exact hin c hold
  · obtain hempty | hend := writtenSpans_in_lmem hr x hx
    · rw [hempty, Nat.add_zero] at hhigh
      omega
    · exact hhigh.trans_le (Nat.mul_le_mul_right _ hend)

/-- And RST, which draws those intervals clipped to LMEM (R252). -/
theorem lmemOk_assertRst {s : State} (h : s.lmemOk) : s.assertRst.lmemOk := by
  obtain ⟨hwf, hin⟩ := h
  unfold State.assertRst
  split
  case h_1 => exact ⟨hwf, hin⟩
  case h_2 e _ =>
    refine ⟨(Touches_drawSpans (writtenSpans e.op s) s).wf hwf, fun c hc => ?_⟩
    rw [State.lmemLimbs, State.limbBytes, resetRegisters_params, drawSpans_params]
    exact drawSpans_in_lmem _ s hin c hc

/-- INV_Y is a W-bit value after every completion (R36). -/
theorem invY_effectOf_lt {s : State} (h : s.regsOk) (i : Instr) :
    (effectOf i s).endCommand.invY.toNat < 2 ^ s.limbBits := by
  obtain ⟨-, -, hy⟩ := h
  by_cases hi : i = .inv1
  · subst hi
    have hlt : inv1 s.limbBits s.invArg < 2 ^ s.limbBits :=
      inv1Upto_lt _ _ _ (Nat.sub_lt (limbBits_pos s) Nat.one_pos)
    exact (toNat_ofNat_limb hlt).trans_lt hlt
  · rwa [invY_completed hi]

theorem engineOk_of_idle {s : State} (h : s.engine = none) : s.engineOk := fun _ he => by
  cases h.symm.trans he

/-- The invariant on the engine carries over to a state with the same operands whose STATUS still shows a running
command. -/
theorem engineOk_congr {s t : State} (h : s.engineOk) (hp : t.params = s.params) (hc : t.cfg = s.cfg)
    (he : t.engine = s.engine) (hd : t.status.done = true → s.status.done = true)
    (herr : t.status.err = s.status.err) : t.engineOk := by
  intro e hte
  obtain ⟨hchecked, hdone, hnone, hpos⟩ := h e (he ▸ hte)
  refine ⟨(checkOperands_congr hp hc _).trans hchecked, ?_, herr.trans hnone,
    (okFor_congr hp hc _ _).2 hpos⟩
  rw [← Bool.not_eq_true]
  exact fun ht => absurd (hd ht) (by simp [hdone])

theorem resetRegisters_regsOk (s : State) : s.resetRegisters.regsOk :=
  ⟨Nat.two_pow_pos _, Nat.two_pow_pos _, Nat.two_pow_pos _⟩

theorem StepOf_keeps_inv {ev : Option Event} {u t : State} (hu : u.Inv) (h : StepOf ev u t) :
    t.Inv := by
  obtain ⟨hmem, hregs, hengine⟩ := hu
  cases h with
  | flags ie st rd hd he => exact ⟨hmem, hregs, engineOk_congr hengine rfl rfl rfl hd he⟩
  | cfg hn r v =>
    obtain ⟨hnq, hx, hy⟩ := hregs
    obtain ⟨hnq', hx'⟩ := cfg_set_regsOk r v hnq hx
    exact ⟨hmem, ⟨hnq', hx', hy⟩, engineOk_of_idle hn⟩
  | store hn a ha v =>
    refine ⟨lmemOk_writeBytes hmem ?_, hregs, engineOk_of_idle hn⟩
    rw [bytesOfLimbs_length, limbsOf_length, Nat.one_mul, ← Nat.succ_mul]
    exact Nat.mul_le_mul_right _ ha
  | storeBytes hn a bs ha => exact ⟨lmemOk_writeBytes hmem ha, hregs, engineOk_of_idle hn⟩
  | accept hn i hc =>
    refine ⟨hmem, hregs, fun e he => ?_⟩
    obtain rfl := Option.some.inj he
    exact ⟨hc, rfl, rfl, firstPosition_ok (s := u.beginCommand) hc⟩
  | reject hn => exact ⟨hmem, hregs, engineOk_of_idle hn⟩
  | complete e he hr =>
    have hlt := invY_effectOf_lt hregs e.op
    have hmem' := lmemOk_effectOf hmem hr
    obtain ⟨hp, -, hc, -⟩ := endCommand_completedFrom e.op u
    obtain ⟨hnq, hx, -⟩ := hregs
    refine ⟨hmem', ?_, engineOk_of_idle rfl⟩
    rw [State.regsOk, State.limbBits, hp, hc]
    exact ⟨hnq, hx, hlt⟩
  | move e he =>
    obtain ⟨hc, hd, herr, hpos⟩ := hengine e he
    refine ⟨hmem, hregs, fun f hf => ?_⟩
    obtain rfl := Option.some.inj hf
    exact ⟨hc, hd, herr, (okFor_congr rfl rfl _ _).2 (movePosition_ok hc hpos)⟩
  | rst =>
    refine ⟨lmemOk_assertRst hmem, ?_, engineOk_of_idle (assertRst_engine u)⟩
    obtain ⟨v, hv⟩ := assertRst_resets u
    rw [hv]
    exact resetRegisters_regsOk v
  | powerOn => exact ⟨⟨List.Pairwise.nil, by simp⟩, resetRegisters_regsOk u, engineOk_of_idle rfl⟩

/-- Settles O37: what each case of a step writes stays in its range. -/
theorem stepKeepsInvariant : Obligations.StepKeepsInvariant := fun s _ hs h =>
  StepOf_keeps_inv (u := { s with bus := s.bus.tail }) hs (step_cases h)

/-! ### A good state never stops (R223) -/

/-- The completion of a running command in a good state (R108). -/
theorem exec_running {s : State} {e : Engine} (h : s.engineOk) (he : s.engine = some e) :
    exec e.op s = .next (effectOf e.op s).endCommand :=
  exec_completes ((busy_iff s).2 ⟨e, he⟩) (h e he).1

theorem completeEngine_answers {s : State} (h : s.engineOk) : ∃ t, s.completeEngine = .next t := by
  cases he : s.engine with
  | none => exact ⟨s, completeEngine_idle he⟩
  | some e => exact ⟨_, (completeEngine_running he).trans (exec_running h he)⟩

theorem advanceEngine_answers {s : State} (h : s.engineOk) : ∃ t, s.advanceEngine = .next t := by
  obtain ⟨-, hadv⟩ | ⟨e, he, hadv, -⟩ | ⟨e, -, hadv, -⟩ := advanceEngine_cases s
  · exact ⟨_, hadv⟩
  · exact ⟨_, hadv.trans (exec_running h he)⟩
  · exact ⟨_, hadv⟩

theorem portWrite_answers (s : State) (o : Nat) (v : Slot) : ∃ t, s.portWrite o v = .next t := by
  unfold State.portWrite
  split
  case isFalse => exact ⟨_, rfl⟩
  case isTrue =>
    cases hb : s.busy with
    | true => exact ⟨_, cmdWrite_busy hb _⟩
    | false =>
      obtain ⟨i, h⟩ | ⟨code, -, h⟩ := cmdWrite_idle_cases hb (v.setWidth 32)
      · exact ⟨_, h⟩
      · exact ⟨_, h⟩

theorem serve_answers {s : State} (h : s.engineOk) (ev : Event) : ∃ t, s.serve ev = .next t := by
  cases ev with
  | regWrite o v => exact portWrite_answers s o v
  | regWriteBack o =>
    obtain ⟨-, hback⟩ | ⟨v, -, hback⟩ := writeBack_cases s o
    · exact ⟨_, hback⟩
    · obtain ⟨t, ht⟩ := portWrite_answers s o v
      exact ⟨t, hback.trans ht⟩
  | advance => exact advanceEngine_answers h
  | complete => exact completeEngine_answers h
  | _ => exact ⟨_, rfl⟩

/-- Settles O39: only a completion can stop, and its command has passed the range check. -/
theorem goodStatesNeverStop : Obligations.GoodStatesNeverStop := by
  intro s hs
  obtain ⟨-, -, hengine⟩ := hs
  cases hb : s.bus with
  | nil =>
    rw [step_quiet hb]
    exact completeEngine_answers hengine
  | cons ev rest =>
    rw [step_event hb]
    exact serve_answers (s := { s with bus := rest }) hengine ev

/-! ### Completion (R109) -/

/-- Only the resets and its own completion end a command (R251). -/
theorem step_ends {s t : State} {e : Engine} (h : step s = .next t) (he : s.engine = some e)
    (ht : t.engine = none) :
    (∃ rest, s.bus = .rst :: rest ∨ s.bus = .powerOn :: rest) ∨
      exec e.op { s with bus := s.bus.tail } = .next t := by
  cases step_cases h with
  | flags => cases he.symm.trans ht
  | move => cases ht
  | cfg hn | store hn | storeBytes hn | accept hn | reject hn => cases he.symm.trans hn
  | complete f hf hr =>
    obtain rfl := Option.some.inj (he.symm.trans hf)
    exact .inr ((exec_busy (s := { s with bus := s.bus.tail }) ((busy_iff s).2 ⟨e, he⟩) _).trans
      (completeWith_checked _ hr))
  | rst hev =>
    obtain ⟨rest, hb⟩ := bus_of_head hev
    exact .inl ⟨rest, .inl hb⟩
  | powerOn hev =>
    obtain ⟨rest, hb⟩ := bus_of_head hev
    exact .inl ⟨rest, .inr hb⟩

/-- A quiet host lets the running command complete, or leaves an idle engine as it is. -/
theorem step_quiet_idles {s t : State} (h : step s = .next t) (hs : s.engineOk) (hb : s.bus = []) :
    t.engine = none := by
  rw [step_quiet hb] at h
  cases he : s.engine with
  | none =>
    rw [completeEngine_idle he] at h
    obtain rfl := Host.Outcome.next.inj h
    exact he
  | some e =>
    rw [completeEngine_running he, exec_running hs he] at h
    obtain rfl := Host.Outcome.next.inj h
    rfl

/-- Without a reset on the schedule some step is the completion of the running command, on its operands of now
(R109). By induction on the schedule: each step either completes the command or leaves it running. -/
theorem running_completes {bus : List Event} : ∀ {s : State} {e : Engine}, s.Inv → s.bus = bus →
    s.engine = some e → (∀ ev ∈ bus, ev ≠ .rst ∧ ev ≠ .powerOn) →
    ∃ k u t, k ≤ bus.length ∧ Host.Core.run Sys2Proof.core k s = .next u ∧ SameOperands s u ∧
      (∃ f, u.engine = some f ∧ f.op = e.op) ∧ step u = .next t ∧
      exec e.op { u with bus := u.bus.tail } = .next t := by
  induction bus with
  | nil =>
    intro s e hs hb he _
    obtain ⟨t, ht⟩ := goodStatesNeverStop s hs
    obtain ⟨-, -, hengine⟩ := id hs
    obtain ⟨rest, hreset⟩ | hexec := step_ends ht he (step_quiet_idles ht hengine hb)
    · simp [hb] at hreset
    · exact ⟨0, s, t, le_rfl, rfl, ⟨rfl, rfl, rfl, rfl⟩, ⟨e, he, rfl⟩, ht, hexec⟩
  | cons ev bus ih =>
    intro s e hs hb he hno
    obtain ⟨t, ht⟩ := goodStatesNeverStop s hs
    cases hf : t.engine with
    | none =>
      obtain ⟨rest, hreset⟩ | hexec := step_ends ht he hf
      · obtain ⟨hrst, hpower⟩ := hno ev List.mem_cons_self
        simp [hb, hrst, hpower] at hreset
      · exact ⟨0, s, t, Nat.zero_le _, rfl, ⟨rfl, rfl, rfl, rfl⟩, ⟨e, he, rfl⟩, ht, hexec⟩
    | some f =>
      obtain ⟨hsame, -, hmoved⟩ := step_busy_cases ht he hf
      have hop : f.op = e.op := by obtain rfl | rfl := hmoved <;> rfl
      have hbt : t.bus = bus := by rw [step_bus ht, hb, List.tail_cons]
      obtain ⟨k, u, v, hk, hrun, hsame', hu, hstep, hexec⟩ := ih (stepKeepsInvariant s t hs ht) hbt hf
        fun ev hev => hno ev (List.mem_cons_of_mem _ hev)
      rw [hop] at hu hexec
      exact ⟨k + 1, u, v, Nat.succ_le_succ hk, (run_succ ht k).trans hrun,
        ⟨hsame'.params.trans hsame.params, hsame'.cfg.trans hsame.cfg, hsame'.lmem.trans hsame.lmem,
          hsame'.powerDraw.trans hsame.powerDraw⟩, hu, hstep, hexec⟩

/-- A good machine serves its whole schedule and stays good. -/
theorem run_serves_schedule {bus : List Event} : ∀ {s : State}, s.Inv → s.bus = bus →
    ∃ t, Host.Core.run Sys2Proof.core bus.length s = .next t ∧ t.Inv ∧ t.bus = [] := by
  induction bus with
  | nil => exact fun hs hb => ⟨_, rfl, hs, hb⟩
  | cons ev bus ih =>
    intro s hs hb
    obtain ⟨t, ht⟩ := goodStatesNeverStop s hs
    obtain ⟨u, hrun, hu⟩ := ih (stepKeepsInvariant s t hs ht) (by rw [step_bus ht, hb, List.tail_cons])
    exact ⟨u, (run_succ ht _).trans hrun, hu⟩

/-- Settles O40: the completion comes on the schedule or one step after it. -/
theorem everyCommandCompletes : Obligations.EveryCommandCompletes := by
  refine ⟨fun s e hs he hno => ?_, fun s hs => ?_⟩
  · obtain ⟨k, u, t, hk, hrun, hsame, ⟨f, hf, hop⟩, hstep, hexec⟩ := running_completes hs rfl he hno
    have hdone := hexec
    rw [exec_busy (s := { u with bus := u.bus.tail }) ((busy_iff u).2 ⟨f, hf⟩),
      completeWith_next] at hdone
    obtain ⟨-, rfl⟩ := hdone
    exact ⟨k, u, _, hk, hrun, by rw [hf, Option.map_some, hop], hsame.cfg, resultsOf_same hsame e.op,
      hstep, hexec, rfl, rfl⟩
  · obtain ⟨t, hrun, ht, hb⟩ := run_serves_schedule hs rfl
    obtain ⟨u, hu⟩ := goodStatesNeverStop t ht
    obtain ⟨-, -, hengine⟩ := ht
    exact ⟨u, (run_add hrun 1).trans (run_succ hu 0), by rw [step_bus hu, hb, List.tail_nil],
      (idle_iff u).2 (step_quiet_idles hu hengine hb)⟩

/-! ### What the host cannot see (R40, R63) -/

/-- The state with another running command, LMEM and draws. -/
def State.withHidden (s : State) (f : Engine) (m : Memory) (d1 d2 : Nat) : State :=
  { s with engine := some f, lmem := m, powerDraw := d1, draws := d2 }

section
variable {s : State} (hbusy : s.busy = true) (f : Engine) (m : Memory) (d1 d2 : Nat)
include hbusy

/-- BUSY is the one thing that registers show of the hidden state. -/
theorem regValue_withHidden (r : Reg) : (s.withHidden f m d1 d2).regValue r = s.regValue r := by
  cases r with
  | status =>
    rw [regValue_status, regValue_status, hbusy]
    rfl
  | _ => rfl

theorem portValue_withHidden (o : Nat) : (s.withHidden f m d1 d2).portValue o = s.portValue o := by
  unfold State.portValue
  cases Reg.atOffset o with
  | none => rfl
  | some r => exact regValue_withHidden hbusy f m d1 d2 r

theorem regRead_withHidden (o : Nat) :
    (s.withHidden f m d1 d2).regRead o = (s.regRead o).withHidden f m d1 d2 := by
  rw [State.regRead, portValue_withHidden hbusy]
  rfl

theorem regWrite_withHidden (o : Nat) (v : Slot) :
    (s.withHidden f m d1 d2).regWrite o v = (s.regWrite o v).withHidden f m d1 d2 := by
  unfold State.regWrite
  cases Reg.atOffset o with
  | none => rfl
  | some r =>
    dsimp only
    cases r.access with
    | cfg =>
      dsimp only
      rw [writeCfg_busy hbusy, writeCfg_busy (s := s.withHidden f m d1 d2) rfl]
      rfl
    | _ => rfl

theorem portWrite_withHidden (o : Nat) (v : Slot) :
    ∃ t, s.portWrite o v = .next t ∧
      (s.withHidden f m d1 d2).portWrite o v = .next (t.withHidden f m d1 d2) := by
  unfold State.portWrite
  split
  · exact ⟨_, cmdWrite_busy hbusy _, cmdWrite_busy rfl _⟩
  · exact ⟨_, rfl, congrArg _ (regWrite_withHidden hbusy f m d1 d2 o v)⟩

/-- A host access to a busy engine does the same whatever is hidden: it is refused, or it uses registers
alone. -/
theorem serve_withHidden {ev : Event} (hadv : ev ≠ .advance) (hcompl : ev ≠ .complete)
    (hrst : ev ≠ .rst) (hpower : ev ≠ .powerOn) :
    ∃ t, s.serve ev = .next t ∧
      (s.withHidden f m d1 d2).serve ev = .next (t.withHidden f m d1 d2) := by
  have hhidden : (s.withHidden f m d1 d2).busy = true := rfl
  cases ev with
  | regWrite o v => exact portWrite_withHidden hbusy f m d1 d2 o v
  | regRead o => exact ⟨_, rfl, congrArg _ (regRead_withHidden hbusy f m d1 d2 o)⟩
  | lmemWrite a v =>
    refine ⟨s.setHostviol, ?_, ?_⟩ <;> rw [State.serve, State.lmemWrite]
    · rw [if_pos hbusy]
    · rw [if_pos hhidden]
      rfl
  | lmemRead a =>
    refine ⟨{ s.setHostviol with readData := some 0#64 }, ?_, ?_⟩ <;> rw [State.serve, State.lmemRead]
    · rw [if_pos hbusy]
    · rw [if_pos hhidden]
      rfl
  | windowLoad k a =>
    refine ⟨{ s.setHostviol with readData := some 0#64 }, ?_, ?_⟩ <;>
      rw [State.serve, State.windowLoad]
    · rw [if_pos hbusy]
    · rw [if_pos hhidden]
      rfl
  | windowStore k a v =>
    refine ⟨s.setHostviol, ?_, ?_⟩ <;> rw [State.serve, State.windowStore]
    · rw [if_pos hbusy]
    · rw [if_pos hhidden]
      rfl
  | pollStatus =>
    have hpoll : (s.withHidden f m d1 d2).pollStatus = s.pollStatus.withHidden f m d1 d2 := by
      rw [State.pollStatus, State.pollStatus, regRead_withHidden hbusy]
      exact (apply_ite (fun u : State => u.withHidden f m d1 d2) _ _ _).symm
    exact ⟨_, rfl, congrArg Host.Outcome.next hpoll⟩
  | regWriteBack o =>
    unfold State.serve State.writeBack
    cases hread : s.readData with
    | none => exact ⟨s, rfl, by rw [show (s.withHidden f m d1 d2).readData = none from hread]⟩
    | some v =>
      rw [show (s.withHidden f m d1 d2).readData = some v from hread]
      exact portWrite_withHidden hbusy f m d1 d2 o v
  | advance => exact absurd rfl hadv
  | complete => exact absurd rfl hcompl
  | rst => exact absurd rfl hrst
  | powerOn => exact absurd rfl hpower

end

/-- Settles O49: the step is the access on the state without its event, and that access is blind. -/
theorem hiddenStateIsUnobservable : Obligations.HiddenStateIsUnobservable := by
  intro s e f m d1 d2 ev rest he hb hadv hcompl hrst hpower
  obtain ⟨t, hserve, hhidden⟩ := serve_withHidden (s := { s with bus := rest })
    ((busy_iff _).2 ⟨e, he⟩) f m d1 d2 hadv hcompl hrst hpower
  exact ⟨t, (step_event hb).trans hserve, (step_event (s := s.withHidden f m d1 d2) hb).trans hhidden⟩

end Sys2Proof.Machine
end

section
/-! PROOFS. The controller of a running command (10_state.md R42, 70_reset_and_hazards.md R265): its path from
the first position of each command to FINISH, with the number of moves and the results at its end. -/

namespace Sys2Proof.Machine

/-! ### Paths of the controller -/

/-- `k` moves of the controller for command `i` lead from one position to another, none of them a move from
FINISH (R42). -/
inductive MovesTo (s : State) (i : Instr) : Nat → Position → Position → Prop where
  | stay (p : Position) : MovesTo s i 0 p p
  | move {k : Nat} {p q : Position} (hp : p.phase ≠ .finish)
      (h : MovesTo s i k (s.movePosition i p) q) : MovesTo s i (k + 1) p q

namespace MovesTo

variable {s : State} {i : Instr} {k m : Nat} {p q r : Position}

theorem cons (hp : p.phase ≠ .finish) (hq : s.movePosition i p = q) (h : MovesTo s i k q r) :
    MovesTo s i (k + 1) p r :=
  .move hp (hq ▸ h)

theorem one (hp : p.phase ≠ .finish) (hq : s.movePosition i p = q) : MovesTo s i 1 p q :=
  .cons hp hq (.stay q)

theorem trans (h : MovesTo s i k p q) (h' : MovesTo s i m q r) : MovesTo s i (k + m) p r := by
  induction h with
  | stay => rwa [Nat.zero_add]
  | move hp _ ih => exact Nat.succ_add _ m ▸ .move hp (ih h')

/-- A path is what as many moves of the engine make of its start. -/
theorem moveEngines_eq (h : MovesTo s i k p q) :
    s.moveEngines k { op := i, pos := p } = { op := i, pos := q } := by
  induction h with
  | stay => rfl
  | move _ _ ih => exact ih

/-- A path meets FINISH at its end at the earliest. -/
theorem not_finish_before (h : MovesTo s i k p q) {j : Nat} (hj : j < k) :
    (s.moveEngines j { op := i, pos := p }).pos.phase ≠ .finish := by
  induction h generalizing j with
  | stay => cases hj
  | move hp _ ih =>
    cases j with
    | zero => exact hp
    | succ j => exact ih (Nat.lt_of_succ_lt_succ hj)

end MovesTo

/-! ### INV1 -/

/-- From bit b on, the passes left end in Inv1(x) (R141). -/
theorem inv1_path (s : State) {j b : Nat} (hb : b + 1 + (j + 1) = s.limbBits) :
    MovesTo s .inv1 (j + 1) (.inv (inv1Upto s.limbBits s.invArg b) (b + 1))
      (.finish [inv1 s.limbBits s.invArg]) := by
  induction j generalizing b with
  | zero =>
    refine .one Phase.noConfusion ?_
    rw [State.movePosition, inv1, show s.limbBits - 1 = b + 1 by omega]
    exact if_neg (by omega)
  | succ j ih =>
    refine .move (Phase.noConfusion) ?_
    rw [State.movePosition, if_pos (by omega)]
    exact ih (b := b + 1) (by omega)

/-! ### REDC, MUL and SQR -/

section
variable (s : State) (i : Instr)

/-- The digit steps from digit k on (R151). -/
theorem redc_sweep_path (t : List Nat) {j k : Nat} (hk : k + (j + 1) = s.r) :
    MovesTo s i (j + 1)
      (.redcRed (redcLimbSweep s.limbBits s.nq s.nLimbs t k).1 k
        (redcLimbSweep s.limbBits s.nq s.nLimbs t k).2
        (redcDigit s.limbBits s.nq k (redcLimbSweep s.limbBits s.nq s.nLimbs t k).1))
      (.redcFix (redcLimbSweep s.limbBits s.nq s.nLimbs t s.r).1
        (redcLimbSweep s.limbBits s.nq s.nLimbs t s.r).2) := by
  induction j generalizing k with
  | zero =>
    refine .one Phase.noConfusion ?_
    rw [State.movePosition, ← hk]
    exact if_neg (by omega)
  | succ j ih =>
    refine .move Phase.noConfusion ?_
    rw [State.movePosition, if_pos (by omega)]
    exact ih (k := k + 1) (by omega)

/-- REDC from its first digit to FINISH: r digit steps and the final step, with Redc of the working area. -/
theorem redc_path {t : List Nat} (hr : 0 < s.r) (hlen : t.length = 2 * s.r)
    (ht : ∀ x ∈ t, x < 2 ^ s.limbBits) :
    MovesTo s i (s.r + 1) (s.enterRedc t)
      (.finish [redc s.limbBits (valOf s.limbBits t) s.nVal s.nq s.r]) := by
  obtain ⟨j, hj⟩ := Nat.exists_eq_add_of_le' hr
  have hsweep := redc_sweep_path s i t (j := j) (k := 0) (by omega)
  rw [← hj] at hsweep
  refine hsweep.trans (.one Phase.noConfusion ?_)
  have hval := valOf_redcLimbs (limbs_length ..) hlen (limbs_lt s s.cfg.addrN.toNat s.r) ht s.nq
  exact congrArg (fun v => Position.finish [v]) hval

/-- The product of MUL and SQR comes before (R171, R172). -/
theorem product_path (hi : i = .mul ∨ i = .sqr) (hr : 0 < s.r) :
    MovesTo s i (1 + (s.r + 1)) .prod (.finish (resultsOf s i)) := by
  have hbits (a : Nat) : valOf s.limbBits (s.limbs a s.r) < 2 ^ (s.r * s.limbBits) := memRead_lt s a s.r
  have hpath (b : Nat) := redc_path s i (t := fullMul s.limbBits s.r s.aLimbs (s.limbs b s.r)) hr
    (limbsOf_length ..) (limbsOf_lt _ _ _)
  simp only [State.aLimbs, valOf_fullMul (hbits _) (hbits _)] at hpath
  obtain rfl | rfl := hi
  · exact .trans (.one Phase.noConfusion rfl) (hpath s.cfg.addrB.toNat)
  · exact .trans (.one Phase.noConfusion rfl) (hpath s.cfg.addrA.toNat)

end

/-! ### BUILD and MODPOW -/

/-- A MontMul of the controller is MontMul on the values (R170). -/
theorem engineMul_eq {s : State} {x y : Nat} (hx : x < 2 ^ (s.r * s.limbBits))
    (hy : y < 2 ^ (s.r * s.limbBits)) :
    s.engineMul x y = montMul s.limbBits s.nVal s.nq s.r x y := by
  have hval {v : Nat} (hv : v < 2 ^ (s.r * s.limbBits)) :
      valOf s.limbBits (limbsOf s.limbBits s.r v) = v := by
    rw [valOf_limbsOf, Nat.mod_eq_of_lt hv]
  have hprod : valOf s.limbBits (fullMul s.limbBits s.r (limbsOf s.limbBits s.r x)
      (limbsOf s.limbBits s.r y)) = x * y := by
    rw [valOf_fullMul (by rwa [hval hx]) (by rwa [hval hy]), hval hx, hval hy]
  have hredc := valOf_redcLimbs (t := fullMul s.limbBits s.r (limbsOf s.limbBits s.r x)
    (limbsOf s.limbBits s.r y)) (limbs_length ..) (limbsOf_length ..)
    (limbs_lt s s.cfg.addrN.toNat s.r) (limbsOf_lt _ _ _) s.nq
  exact hredc.trans (congrArg (fun v => redc s.limbBits v s.nVal s.nq s.r) hprod)

/-- A MontSqr is the MontMul of a value with itself, on limbs and on integers (R123). -/
theorem engineSqr_eq {s : State} {x : Nat} (hx : x < 2 ^ (s.r * s.limbBits)) :
    s.engineSqr x = montSqr s.limbBits s.nVal s.nq s.r x := engineMul_eq hx hx

/-- What the controller's table is: 64 entries of r limbs, each from the third on MontMul of A and the one before
(R191). -/
structure IsTable (s : State) (table : List Nat) : Prop where
  length : table.length = 64
  lt : ∀ x ∈ table, x < 2 ^ (s.r * s.limbBits)
  first : table.take 2 = [1, s.aVal]
  next : ∀ e, 1 ≤ e → e + 1 < 64 →
    table.getD (e + 1) 0 = montMul s.limbBits s.nVal s.nq s.r s.aVal (table.getD e 0)

theorem buildResult_isTable {s : State} (hr : 0 < s.r) : IsTable s (buildResult s) where
  length := buildTable_length ..
  lt := buildTable_lt _ _ _ _ _ (Nat.mul_pos hr (limbBits_pos s)) (aVal_lt s)
  first := rfl
  next _ := buildTable_getD_succ _ _ _ _ _ _

section
variable {s : State} {i : Instr} {table : List Nat} (h : IsTable s table)
include h

theorem IsTable.getD_lt (e : Nat) : table.getD e 0 < 2 ^ (s.r * s.limbBits) :=
  Machine.getD_lt table _ (Nat.two_pow_pos _) h.lt e

/-- One entry more of the table. -/
theorem IsTable.take_succ {ti : Nat} (hlow : 2 ≤ ti) (hhigh : ti < 64) :
    table.take ti ++ [s.engineMul s.aVal ((table.take ti).getD (ti - 1) 0)] = table.take (ti + 1) := by
  obtain ⟨e, rfl⟩ := Nat.exists_eq_add_of_le' (Nat.le_of_succ_le hlow)
  have hlast : (table.take (e + 1)).getD e 0 = table.getD e 0 := by
    rw [List.getD_eq_getElem?_getD, List.getElem?_take_of_lt (Nat.lt_succ_self e),
      List.getD_eq_getElem?_getD]
  have hentry : table[e + 1]'(by rw [h.length]; exact hhigh) = table.getD (e + 1) 0 :=
    (List.getD_eq_getElem ..).symm
  rw [Nat.add_sub_cancel, hlast, engineMul_eq (aVal_lt s) (h.getD_lt e),
    ← h.next e (by omega) hhigh, ← hentry, List.take_append_getElem]

/-- The entries from ti to 63, one move each (R191). -/
theorem table_path {j ti : Nat} (hlow : 2 ≤ ti) (hj : ti + (j + 1) = 64) :
    MovesTo s i (j + 1) (.tbl (table.take ti) ti)
      (if i = .modpow then s.enterBlock table s.accVal s.blocks else .finish table) := by
  induction j generalizing ti with
  | zero =>
    have hall : table.take (ti + 1) = table := List.take_of_length_le (by rw [h.length]; omega)
    refine .one Phase.noConfusion ?_
    have hentry := h.take_succ hlow (by omega)
    rw [hall] at hentry
    rw [State.movePosition, if_neg (by simp only [Config.tableEntries]; omega),
      show s.memRead s.cfg.addrA.toNat s.r = s.aVal from rfl, hentry]
    rfl
  | succ j ih =>
    refine .move Phase.noConfusion ?_
    have hentry := h.take_succ hlow (by omega)
    rw [State.movePosition, if_pos (by simp only [Config.tableEntries]; omega),
      show s.memRead s.cfg.addrA.toNat s.r = s.aVal from rfl, hentry]
    exact ih (by omega) (by omega)

end

/-- The last of k + 1 squarings. -/
theorem squarings_succ (w n nq r k acc : Nat) :
    squarings w n nq r (k + 1) acc = montSqr w n nq r (squarings w n nq r k acc) := by
  induction k generalizing acc with
  | zero => rfl
  | succ k ih => exact ih _

section
variable (s : State) (table : List Nat)

/-- k squarings of a block, its last one not among them (R201). -/
theorem squarings_path (j : Nat) (win : BitVec 6) {k q acc : Nat} (hq : q + k < 6)
    (hacc : acc < 2 ^ (s.r * s.limbBits)) :
    MovesTo s .modpow k (.winSq table acc j q win)
      (.winSq table (squarings s.limbBits s.nVal s.nq s.r k acc) j (q + k) win) := by
  induction k generalizing q acc with
  | zero => exact .stay _
  | succ k ih =>
    have hsq := engineSqr_eq hacc
    have hrest := ih (q := q + 1) (by omega) (hsq ▸ engineSqr_lt s acc)
    refine .move Phase.noConfusion ?_
    rw [State.movePosition, if_pos (by simp only [Config.windowBits]; omega), hsq]
    rwa [Nat.add_assoc, Nat.add_comm 1] at hrest

/-- A window fits the 6 bits of R40's `w`. -/
theorem window_toNat (j : Nat) : (BitVec.ofNat 6 (s.window j)).toNat = s.window j := by
  rw [BitVec.toNat_ofNat, Nat.mod_eq_of_lt (window_lt s j)]

/-- One block: six squarings, and the multiply where its window is not 0 (R201, R205). -/
theorem block_path (hlt : ∀ e, table.getD e 0 < 2 ^ (s.r * s.limbBits)) (j : Nat) {acc : Nat}
    (hacc : acc < 2 ^ (s.r * s.limbBits)) :
    MovesTo s .modpow (6 + if s.window j = 0 then 0 else 1)
      (.winSq table acc j 0 (BitVec.ofNat 6 (s.window j)))
      (s.enterBlock table (powBlock s.limbBits s.nVal s.nq s.r table (s.window j) acc) j) := by
  have hfive := squarings_path s table j (BitVec.ofNat 6 (s.window j)) (k := 5) (q := 0) (by decide) hacc
  have hsixth : s.engineSqr (squarings s.limbBits s.nVal s.nq s.r 5 acc) =
      squarings s.limbBits s.nVal s.nq s.r 6 acc := by
    rw [engineSqr_eq (squarings_lt _ _ _ _ _ _ hacc), squarings_succ _ _ _ _ 5]
  have hzero : BitVec.ofNat 6 (s.window j) = 0#6 ↔ s.window j = 0 := by
    rw [BitVec.toNat_eq, window_toNat, BitVec.toNat_ofNat, Nat.zero_mod]
  have hlast : s.movePosition .modpow
      (.winSq table (squarings s.limbBits s.nVal s.nq s.r 5 acc) j 5 (BitVec.ofNat 6 (s.window j))) =
      if s.window j = 0 then s.enterBlock table (squarings s.limbBits s.nVal s.nq s.r 6 acc) j
      else .winMul table (squarings s.limbBits s.nVal s.nq s.r 6 acc) j
        (BitVec.ofNat 6 (s.window j)) := by
    rw [State.movePosition, if_neg (by decide), hsixth]
    exact if_congr hzero rfl rfl
  rw [powBlock]
  split
  case isTrue h =>
    rw [if_pos h] at hlast
    exact hfive.trans (.one Phase.noConfusion hlast)
  case isFalse h =>
    rw [if_neg h] at hlast
    refine hfive.trans (.cons Phase.noConfusion hlast (.one Phase.noConfusion ?_))
    rw [State.movePosition, window_toNat, engineMul_eq (squarings_lt _ _ _ _ _ _ hacc) (hlt _)]

/-- The multiplies of the blocks below k (R205). -/
def State.multipliesBelow (k : Nat) : Nat :=
  ((s.windowsBelow k).filter (fun w => decide (w ≠ 0))).length

theorem multipliesBelow_succ (k : Nat) :
    s.multipliesBelow (k + 1) = (if s.window k = 0 then 0 else 1) + s.multipliesBelow k := by
  rw [State.multipliesBelow, State.windowsBelow, List.filter_cons, State.multipliesBelow]
  by_cases h : s.window k = 0 <;> simp [h, Nat.add_comm]

/-- The blocks from k - 1 down to 0, to FINISH (R201, R205). -/
theorem blocks_path (hlt : ∀ x ∈ table, x < 2 ^ (s.r * s.limbBits)) (k : Nat) {acc : Nat}
    (hacc : acc < 2 ^ (s.r * s.limbBits)) :
    MovesTo s .modpow (6 * k + s.multipliesBelow k) (s.enterBlock table acc k)
      (.finish [powBlocks s.limbBits s.nVal s.nq s.r table (s.windowsBelow k) acc]) := by
  induction k generalizing acc with
  | zero => exact .stay _
  | succ k ih =>
    have hentry := getD_lt table _ (Nat.two_pow_pos _) hlt
    have hblock := powBlocks_lt _ s.nVal s.nq _ table hlt [s.window k] acc hacc
    rw [multipliesBelow_succ, show 6 * (k + 1) + ((if s.window k = 0 then 0 else 1) +
      s.multipliesBelow k) = (6 + if s.window k = 0 then 0 else 1) + (6 * k + s.multipliesBelow k) by
      ring]
    exact (block_path s table hentry k hacc).trans (ih hblock)

end

/-! ### From the first position of each command to FINISH -/

/-- Every command that passes its checks reaches FINISH after the moves that R265 counts, with the results it
owes. -/
theorem command_path {s : State} {i : Instr} (hc : checkOperands i s = .none) :
    MovesTo s i (s.moves i) (s.firstPosition i) (.finish (resultsOf s i)) := by
  cases i with
  | inv1 =>
    have hbits := limbBits_ge s
    obtain ⟨j, hj⟩ := Nat.exists_eq_add_of_le (show 2 ≤ s.limbBits by omega)
    have hpath := inv1_path s (j := j) (b := 0) (by omega)
    rwa [show j + 1 = s.limbBits - 1 by omega] at hpath
  | redc =>
    exact redc_path s .redc (r_pos_of_checked (by decide) hc) (limbs_length s _ _) (limbs_lt s _ _)
  | mul =>
    rw [State.moves, State.montMuls, Nat.add_assoc]
    exact product_path s .mul (.inl rfl) (r_pos_of_checked (by decide) hc)
  | sqr =>
    rw [State.moves, State.montSqrs, Nat.add_assoc]
    exact product_path s .sqr (.inr rfl) (r_pos_of_checked (by decide) hc)
  | build =>
    have htable := buildResult_isTable (r_pos_of_checked (by decide) hc)
    have hpath := table_path (i := .build) htable (j := 61) le_rfl rfl
    rw [htable.first, if_neg (by decide)] at hpath
    exact hpath
  | modpow =>
    have htable := buildResult_isTable (r_pos_of_checked (by decide) hc)
    have hpath := table_path (i := .modpow) htable (j := 61) le_rfl rfl
    rw [htable.first, if_pos rfl] at hpath
    have hmoves : s.moves .modpow = 62 + (6 * s.blocks + s.multipliesBelow s.blocks) := by
      rw [State.moves, State.montMuls, State.montSqrs, State.nonzeroWindows, State.multipliesBelow]
      ring
    rw [hmoves]
    exact hpath.trans (blocks_path s _ htable.lt s.blocks (memRead_lt s _ _))

/-- Steps on `.advance` are moves, as long as none of them leaves FINISH (R42). -/
theorem run_advance {k : Nat} {rest : List Event} : ∀ {s : State} {e : Engine}, s.engine = some e →
    s.bus = List.replicate k .advance ++ rest →
    (∀ j < k, (s.moveEngines j e).pos.phase ≠ .finish) →
    Host.Core.run Sys2Proof.core k s =
      .next { s with bus := rest, engine := some (s.moveEngines k e) } := by
  induction k with
  | zero =>
    rintro s e he rfl -
    rw [State.moveEngines, ← he]
    rfl
  | succ k ih =>
    intro s e he hb hpath
    have hstep := step_advance (rest := List.replicate k .advance ++ rest) hb he
      (hpath 0 (Nat.succ_pos k))
    have hsame : SameOperands s { s with
        bus := List.replicate k .advance ++ rest, engine := some (s.moveEngine e) } :=
      ⟨rfl, rfl, rfl, rfl⟩
    rw [run_succ hstep, ih rfl rfl, moveEngines_same hsame]
    · rfl
    · intro j hj
      rw [moveEngines_same hsame]
      exact hpath (j + 1) (Nat.succ_lt_succ hj)

/-- Settles O34: the path of each command, and the steps that walk it. -/
theorem controllerComputesResults : Obligations.ControllerComputesResults := by
  intro i s hc
  have hpath := command_path hc
  exact ⟨hpath.moveEngines_eq, fun k => hpath.not_finish_before, fun k rest hk he hb =>
    run_advance he hb fun j hj => hpath.not_finish_before (hj.trans_le hk)⟩

end Sys2Proof.Machine
end

section
/-! PROOFS. Reset (70_reset_and_hazards.md R250 to R252) and the operand buffers and scratch layout
(30_encoding.md R84, R85). -/

namespace Sys2Proof.Machine

/-! ### The registers after a reset (R250) -/

/-- After a reset the registers read as right after power-on. -/
theorem regValue_resetRegisters (s : State) (r : Reg) :
    s.resetRegisters.regValue r = (State.powerOn s.params).regValue r := by
  cases r <;> rfl

/-- The power-on step makes the same registers. -/
theorem regValue_powerCycle (s : State) (r : Reg) :
    s.powerCycle.regValue r = (State.powerOn s.params).regValue r := by
  cases r <;> rfl

theorem regValue_powerOn_zero (p : Params) {r : Reg} (hid : r ≠ .id) (hsize : r ≠ .lmemSize) :
    (State.powerOn p).regValue r = 0#64 := by
  cases r with
  | id => exact absurd rfl hid
  | lmemSize => exact absurd rfl hsize
  | _ => rfl

/-- Settles O36: the registers one by one, and LMEM, of which no byte is listed. -/
theorem powerOnValues : Obligations.PowerOnValues := by
  intro p
  refine ⟨regValue_id _, regValue_lmemSize _, fun r => regValue_powerOn_zero p, rfl, rfl, rfl, rfl,
    fun _ => rfl, ?_⟩
  rintro s rest rfl hb
  exact ⟨_, step_event hb, rfl, rfl, regValue_powerCycle _, rfl, rfl, rfl, rfl, Nat.lt_succ_self _,
    fun _ => rfl⟩

/-! ### RST (R251, R252) -/

theorem assertRst_idle {s : State} (h : s.engine = none) : s.assertRst = s.resetRegisters := by
  rw [State.assertRst, h]

theorem assertRst_running {s : State} {e : Engine} (h : s.engine = some e) :
    s.assertRst = (s.drawSpans (writtenSpans e.op s)).resetRegisters := by
  rw [State.assertRst, h]

theorem regValue_assertRst (s : State) (r : Reg) :
    s.assertRst.regValue r = (State.powerOn s.params).regValue r := by
  obtain ⟨u, hu⟩ := assertRst_resets s
  have hp : u.params = s.params := by rw [← resetRegisters_params, ← hu, assertRst_params]
  rw [hu, regValue_resetRegisters, hp]

/-- Resetting registers changes no byte. -/
theorem byteAt_resetRegisters (s : State) (a : Nat) : s.resetRegisters.byteAt a = s.byteAt a := rfl

/-- The limbs of a written interval that lies in LMEM end drawn (R252). -/
theorem drawnIn_drawSpans {s : State} {l : List Interval} {x : Interval} (hx : x ∈ l)
    (hin : x.base + x.len ≤ s.lmemLimbs) : drawnIn x { base := 0, len := 0 } s (s.drawSpans l) := by
  intro a ha _
  obtain ⟨-, hhigh⟩ := (x.has_iff _).1 ha
  exact byteAt_drawSpans_has l s x hx a (hhigh.trans_le hin) ha

/-- Settles O46: the reset of an idle engine and of a running one, and what else can end a command. -/
theorem warmReset : Obligations.WarmReset := by
  refine ⟨fun s rest hb => ⟨fun hidle => ?_, fun e he => ?_⟩, fun s t e he h ht => ?_⟩
  · have hreset := assertRst_idle (s := { s with bus := rest }) ((idle_iff s).1 hidle)
    refine ⟨_, (step_event hb).trans (congrArg Host.Outcome.next hreset),
      regValue_resetRegisters _, rfl, rfl, rfl, rfl⟩
  · have hreset := assertRst_running (s := { s with bus := rest }) he
    have htouch := Touches_drawSpans (writtenSpans e.op { s with bus := rest }) { s with bus := rest }
    refine ⟨_, step_event hb, regValue_assertRst _, assertRst_engine _, ?_, ?_, ?_, assertRst_bus _⟩ <;>
      rw [hreset]
    · exact fun x hx hin => drawnIn_drawSpans (s := { s with bus := rest }) hx hin
    · exact htouch.kept
    · intro hop
      rw [hop]
      rfl
  · obtain hreset | hexec := step_ends h he ((idle_iff t).1 ht)
    · exact .inl hreset
    · exact .inr ⟨_, hexec⟩

/-! ### The table of buffers (R84) -/

/-- Two machines that command `i` cannot tell apart: the same LMEM, and the same registers where R84 says that it
reads them. -/
structure SameRead (i : Instr) (s u : State) : Prop where
  params : u.params = s.params
  lmem : u.lmem = s.lmem
  powerDraw : u.powerDraw = s.powerDraw
  rLimbs : u.cfg.rLimbs = s.cfg.rLimbs
  nquote0 : u.cfg.nquote0 = s.cfg.nquote0
  addrOut : u.cfg.addrOut = s.cfg.addrOut
  addrN : u.cfg.addrN = s.cfg.addrN
  addrA : u.cfg.addrA = s.cfg.addrA
  addrScr : u.cfg.addrScr = s.cfg.addrScr
  addrB : i = .mul → u.cfg.addrB = s.cfg.addrB
  addrT : i = .redc → u.cfg.addrT = s.cfg.addrT
  addrExp : i = .modpow → u.cfg.addrExp = s.cfg.addrExp
  expBits : i = .modpow → u.cfg.expBits = s.cfg.expBits
  invX : i = .inv1 → u.cfg.invX = s.cfg.invX

namespace SameRead

theorem refl (i : Instr) (s : State) : SameRead i s s :=
  ⟨rfl, rfl, rfl, rfl, rfl, rfl, rfl, rfl, rfl, fun _ => rfl, fun _ => rfl, fun _ => rfl, fun _ => rfl,
    fun _ => rfl⟩

variable {i : Instr} {s u : State} (h : SameRead i s u)
include h

theorem limbBits_eq : u.limbBits = s.limbBits := by rw [State.limbBits, h.params, State.limbBits]

theorem lmemLimbs_eq : u.lmemLimbs = s.lmemLimbs := by
  rw [State.lmemLimbs, h.params, State.lmemLimbs]

theorem r_eq : u.r = s.r := by rw [State.r, h.rLimbs, State.r]

theorem nq_eq : u.nq = s.nq := by rw [State.nq, h.nquote0, State.nq]

theorem byteAt_eq (a : Nat) : u.byteAt a = s.byteAt a := by
  rw [State.byteAt, h.lmem, h.powerDraw, State.byteAt]

theorem memRead_eq (a n : Nat) : u.memRead a n = s.memRead a n :=
  memRead_congr h.params fun k _ _ => h.byteAt_eq k

theorem limb_eq (a : Nat) : u.limb a = s.limb a := by
  have hlimbs := limbs_congr (a := a) (n := 1) h.params fun k _ _ => h.byteAt_eq k
  exact (List.cons.inj hlimbs).1

theorem nVal_eq : u.nVal = s.nVal := by rw [State.nVal, h.memRead_eq, h.addrN, h.r_eq, State.nVal]

theorem aVal_eq : u.aVal = s.aVal := by rw [State.aVal, h.memRead_eq, h.addrA, h.r_eq, State.aVal]

theorem buildResult_eq : buildResult u = buildResult s := by
  rw [buildResult, h.limbBits_eq, h.nVal_eq, h.nq_eq, h.r_eq, h.aVal_eq, buildResult]

theorem expLen_eq (hi : i = .modpow) : u.expLen = s.expLen := by
  rw [State.expLen, h.expBits hi, State.expLen]

theorem ebit_eq (hi : i = .modpow) (p : Nat) : u.ebit p = s.ebit p := by
  rw [State.ebit, h.expLen_eq hi, h.addrExp hi, h.limbBits_eq, h.limb_eq, State.ebit]

theorem outSpan_eq (len : Nat) : u.outSpan len = s.outSpan len := by
  rw [State.outSpan, h.addrOut, State.outSpan]

theorem scrSpan_eq (len : Nat) : u.scrSpan len = s.scrSpan len := by
  rw [State.scrSpan, h.addrScr, State.scrSpan]

theorem nSpan_eq : u.nSpan = s.nSpan := by rw [State.nSpan, h.addrN, h.r_eq, State.nSpan]

theorem aSpan_eq : u.aSpan = s.aSpan := by rw [State.aSpan, h.addrA, h.r_eq, State.aSpan]

theorem bSpan_eq (hi : i = .mul) : u.bSpan = s.bSpan := by
  rw [State.bSpan, h.addrB hi, h.r_eq, State.bSpan]

theorem tSpan_eq (hi : i = .redc) : u.tSpan = s.tSpan := by
  rw [State.tSpan, h.addrT hi, h.r_eq, State.tSpan]

theorem expSpan_eq (hi : i = .modpow) : u.expSpan = s.expSpan := by
  rw [State.expSpan, State.expLimbs, h.addrExp hi, h.expLen_eq hi, h.limbBits_eq, State.expSpan,
    State.expLimbs]

/-- The rows of R84 read no other register. -/
theorem buffers_eq : buffers i u = buffers i s := by
  cases i with
  | inv1 => rfl
  | redc => simp only [buffers, h.outSpan_eq, h.nSpan_eq, h.tSpan_eq rfl, h.r_eq]
  | mul =>
    simp only [buffers, h.outSpan_eq, h.aSpan_eq, h.bSpan_eq rfl, h.nSpan_eq, h.scrSpan_eq, h.r_eq]
  | sqr | build => simp only [buffers, h.outSpan_eq, h.aSpan_eq, h.nSpan_eq, h.scrSpan_eq, h.r_eq]
  | modpow =>
    simp only [buffers, h.outSpan_eq, h.aSpan_eq, h.nSpan_eq, h.expSpan_eq rfl, h.scrSpan_eq, h.r_eq]

/-- Nor do those of R105. -/
theorem aliasViolation_eq : aliasViolation i u = aliasViolation i s := by
  cases i with
  | inv1 => rfl
  | redc =>
    simp only [aliasViolation, h.outSpan_eq, h.nSpan_eq, h.tSpan_eq rfl, h.r_eq, h.addrOut, h.addrT rfl]
  | mul =>
    simp only [aliasViolation, h.outSpan_eq, h.aSpan_eq, h.bSpan_eq rfl, h.nSpan_eq, h.scrSpan_eq,
      h.r_eq]
  | sqr | build =>
    simp only [aliasViolation, h.outSpan_eq, h.aSpan_eq, h.nSpan_eq, h.scrSpan_eq, h.r_eq]
  | modpow =>
    simp only [aliasViolation, h.outSpan_eq, h.aSpan_eq, h.nSpan_eq, h.expSpan_eq rfl, h.scrSpan_eq,
      h.r_eq]

theorem checkOperands_eq : checkOperands i u = checkOperands i s := by
  rw [checkOperands, rangeViolation, h.buffers_eq, h.lmemLimbs_eq, h.aliasViolation_eq, h.r_eq,
    checkOperands, rangeViolation]

/-- The results read no other register either (R110). -/
theorem resultsOf_eq : resultsOf u i = resultsOf s i := by
  cases i with
  | inv1 => rw [resultsOf, h.limbBits_eq, State.invArg, h.invX rfl, resultsOf, State.invArg]
  | redc =>
    rw [resultsOf, redcResult, h.limbBits_eq, h.memRead_eq, h.addrT rfl, h.r_eq, h.nVal_eq, h.nq_eq,
      resultsOf, redcResult]
  | mul =>
    have hb : u.bVal = s.bVal := by
      rw [State.bVal, h.memRead_eq, h.addrB rfl, h.r_eq, State.bVal]
    rw [resultsOf, mulResult, h.limbBits_eq, h.nVal_eq, h.nq_eq, h.r_eq, h.aVal_eq, hb, resultsOf,
      mulResult]
  | sqr =>
    rw [resultsOf, sqrResult, h.limbBits_eq, h.nVal_eq, h.nq_eq, h.r_eq, h.aVal_eq, resultsOf,
      sqrResult]
  | build => exact h.buildResult_eq
  | modpow =>
    have hacc : u.accVal = s.accVal := by
      rw [State.accVal, h.memRead_eq, h.addrOut, h.r_eq, State.accVal]
    have hblocks : u.blocks = s.blocks := by rw [State.blocks, h.expLen_eq rfl, State.blocks]
    rw [resultsOf, modpowResult, h.limbBits_eq, h.nVal_eq, h.nq_eq, h.r_eq, h.buildResult_eq,
      windowsBelow_congr (h.ebit_eq rfl), hblocks, hacc, resultsOf, modpowResult]

end SameRead

/-- Settles O55: the rows of the table, and the registers outside a command's rows. -/
theorem operandBuffersTable : Obligations.OperandBuffersTable := by
  refine ⟨?_, fun i s u v x hu => ?_⟩
  · rintro s r o n a b t c x rfl rfl rfl rfl rfl rfl rfl rfl
    exact ⟨rfl, rfl, rfl, rfl, rfl, rfl, rfl, rfl, rfl, rfl, rfl, rfl⟩
  · have hself : SameRead i s s := SameRead.refl i s
    have h : SameRead i s u := by
      obtain ⟨hi, rfl⟩ | ⟨hi, rfl⟩ | ⟨hi, rfl⟩ | ⟨hi, rfl⟩ | ⟨hi, rfl⟩ := hu
      · exact { hself with addrB := fun h => absurd h hi }
      · exact { hself with addrT := fun h => absurd h hi }
      · exact { hself with addrExp := fun h => absurd h hi }
      · exact { hself with expBits := fun h => absurd h hi }
      · exact { hself with invX := fun h => absurd h hi }
    exact ⟨h.checkOperands_eq, h.resultsOf_eq⟩

/-! ### The scratch layout (R85) -/

/-- Settles O56: membership is a pair of comparisons, and the entry that holds an address of the table is its
distance from ADDR_SCR divided by r. -/
theorem scratchRegionsTile : Obligations.ScratchRegionsTile := by
  intro s a
  have hentry (e : Nat) : (s.powEntry e).has a = true ↔
      s.cfg.addrScr.toNat + e * s.r ≤ a ∧ a < s.cfg.addrScr.toNat + (e + 1) * s.r := by
    rw [Interval.has_iff, Nat.succ_mul, ← Nat.add_assoc]
    rfl
  have hend {e f : Nat} (h : e < f) : (e + 1) * s.r ≤ f * s.r := Nat.mul_le_mul_right _ h
  simp only [hentry, ← Bool.not_eq_true, Interval.has_iff, State.scrSpan, State.scratchT,
    State.scratchMul, State.powScratchT, State.powScratchMul]
  refine ⟨by omega, by omega, ⟨fun h => ?_, ?_⟩, fun e f _ _ he hf => ?_, fun e h64 he => ?_,
    by omega⟩
  · by_cases htable : a < s.cfg.addrScr.toNat + 64 * s.r
    · have hr : 0 < s.r := by omega
      obtain ⟨d, hd⟩ := Nat.exists_eq_add_of_le h.1
      refine .inl ⟨d / s.r, Nat.div_lt_of_lt_mul (by rw [Nat.mul_comm]; omega), ?_⟩
      have hlow := Nat.div_mul_le_self d s.r
      have hhigh := Nat.lt_div_mul_add hr (a := d)
      rw [Nat.succ_mul]
      omega
    · omega
  · rintro (⟨e, h64, he⟩ | h | h)
    · have := hend h64
      omega
    · omega
    · omega
  · by_contra hne
    obtain hlt | hgt := Nat.lt_or_gt_of_ne hne
    · have := hend hlt
      omega
    · have := hend hgt
      omega
  · have := hend h64
    omega

end Sys2Proof.Machine
end

section
/-! PROOFS. The host's LMEM port and the byte window (20_memory.md R61 to R63), and the host statements and
pseudo-commands (30_encoding.md R87, R89, R95). -/

namespace Sys2Proof.Machine

/-! ### The LMEM port (R61, R63) -/

theorem limb_eq_memRead (s : State) (a : Nat) : s.limb a = s.memRead a 1 := by
  rw [memRead_succ, State.memRead, State.limbs, valOf_nil, Nat.mul_zero, Nat.add_zero]

section
variable {s : State} {a : Nat}

theorem lmemWrite_busy (h : s.busy = true) (v : Slot) : s.lmemWrite a v = s.setHostviol := by
  rw [State.lmemWrite, if_pos h]

theorem lmemWrite_inside (h : s.busy = false) (ha : a < s.lmemLimbs) (v : Slot) :
    s.lmemWrite a v = s.memWrite a 1 v.toNat := by
  rw [State.lmemWrite, h, if_neg Bool.false_ne_true, if_pos ha]

theorem lmemWrite_outside (h : s.busy = false) (ha : s.lmemLimbs ≤ a) (v : Slot) :
    s.lmemWrite a v = s := by
  rw [State.lmemWrite, h, if_neg Bool.false_ne_true, if_neg (Nat.not_lt.2 ha)]

theorem lmemRead_busy (h : s.busy = true) :
    s.lmemRead a = { s.setHostviol with readData := some 0#64 } := by
  rw [State.lmemRead, if_pos h]

theorem lmemRead_inside (h : s.busy = false) (ha : a < s.lmemLimbs) :
    s.lmemRead a = { s with readData := some (BitVec.ofNat 64 (s.limb a)) } := by
  rw [State.lmemRead, h, if_neg Bool.false_ne_true, if_pos ha]

theorem lmemRead_outside (h : s.busy = false) (ha : s.lmemLimbs ≤ a) :
    s.lmemRead a = { s with readData := some 0#64 } := by
  rw [State.lmemRead, h, if_neg Bool.false_ne_true, if_neg (Nat.not_lt.2 ha)]

end

/-- The step of a host write of one limb of an idle engine (R61). -/
theorem step_lmemWrite {s : State} {a : Nat} {v : Slot} {rest : List Event}
    (hb : s.bus = .lmemWrite a v :: rest) (hidle : s.busy = false) (ha : a < s.lmemLimbs) :
    step s = .next (State.memWrite { s with bus := rest } a 1 v.toNat) :=
  (step_event hb).trans (congrArg Host.Outcome.next (lmemWrite_inside (s := { s with bus := rest })
    hidle ha v))

/-- Settles O44: the six cases of the port. -/
theorem hostLmemPort : Obligations.HostLmemPort := by
  intro s a v rest
  refine ⟨fun hb => ⟨fun hidle ha => ?_, fun hidle ha => ?_, fun hbusy => ?_⟩,
    fun hb => ⟨fun hidle ha => ?_, fun hidle ha => ?_, fun hbusy => ?_⟩⟩
  · refine ⟨_, step_lmemWrite hb hidle ha, ?_,
      (Touches_memWrite { s with bus := rest } a 1 v.toNat).kept, rfl⟩
    rw [limb_eq_memRead, memRead_memWrite, Nat.one_mul]
    rfl
  · exact (step_event hb).trans
      (congrArg Host.Outcome.next (lmemWrite_outside (s := { s with bus := rest }) hidle ha v))
  · exact (step_event hb).trans
      (congrArg Host.Outcome.next (lmemWrite_busy (s := { s with bus := rest }) hbusy v))
  · have hread := lmemRead_inside (s := { s with bus := rest }) hidle ha
    have hsame : SameOperands s { s with bus := rest } := ⟨rfl, rfl, rfl, rfl⟩
    rw [limb_same hsame] at hread
    exact ⟨_, toNat_ofNat_limb (limb_lt s a), (step_event hb).trans (congrArg Host.Outcome.next hread)⟩
  · exact (step_event hb).trans
      (congrArg Host.Outcome.next (lmemRead_outside (s := { s with bus := rest }) hidle ha))
  · exact (step_event hb).trans
      (congrArg Host.Outcome.next (lmemRead_busy (s := { s with bus := rest }) hbusy))

/-! ### The byte window (R62) -/

/-- A limb is the window read of its bytes. -/
theorem limb_eq_windowRead (s : State) (a : Nat) :
    s.limb a = s.windowRead (a * s.limbBytes) s.limbBytes := rfl

theorem windowRead_lt (s : State) (a n : Nat) : s.windowRead a n < 2 ^ (8 * n) := by
  have h := valOf_lt (bytesAt_lt s a n)
  rwa [bytesAt_length, Nat.mul_comm] at h

/-- A window read is a window read of its first bytes and one of the rest. -/
theorem windowRead_add (s : State) (a m n : Nat) :
    s.windowRead a (m + n) = s.windowRead a m + 2 ^ (8 * m) * s.windowRead (a + m) n := by
  have hbytes : s.bytesAt a (m + n) = s.bytesAt a m ++ s.bytesAt (a + m) n := by
    induction m generalizing a with
    | zero => rw [Nat.zero_add]; rfl
    | succ m ih =>
      rw [Nat.succ_add, State.bytesAt, ih, State.bytesAt, List.cons_append, Nat.add_right_comm a 1 m]
      rfl
  rw [State.windowRead, hbytes, valOf_append, bytesAt_length, Nat.mul_comm m]
  rfl

/-- The bytes from b to b + n of a window read are its bits from 8b to 8(b + n) (R62). -/
theorem windowRead_bits (s : State) (a b n : Nat) {m : Nat} (h : b + n ≤ m) :
    s.windowRead (a + b) n = s.windowRead a m / 2 ^ (8 * b) % 2 ^ (8 * n) := by
  obtain ⟨k, rfl⟩ := Nat.exists_eq_add_of_le h
  rw [Nat.add_assoc, windowRead_add s a b, windowRead_add s (a + b) n,
    Nat.add_mul_div_left _ _ (Nat.two_pow_pos _), Nat.div_eq_of_lt (windowRead_lt s a b), Nat.zero_add,
    Nat.add_mul_mod_self_left, Nat.mod_eq_of_lt (windowRead_lt s _ n)]

theorem windowRead_eq_sum (s : State) (a n : Nat) :
    s.windowRead a n = ∑ b ∈ Finset.range n, (s.byteAt (a + b)).toNat * 2 ^ (8 * b) := by
  induction n with
  | zero => rfl
  | succ n ih =>
    have hlast : s.windowRead (a + n) 1 = (s.byteAt (a + n)).toNat := by
      rw [State.windowRead, State.bytesAt, State.bytesAt, valOf_cons, valOf_nil, Nat.mul_zero,
        Nat.add_zero]
    rw [windowRead_add, hlast, ih, Finset.sum_range_succ, Nat.mul_comm (2 ^ (8 * n))]

/-- Bytes of a limb in the window are bits of the limb. -/
theorem windowRead_limb (s : State) (a b n : Nat) (h : b + n ≤ s.limbBytes) :
    s.windowRead (a * s.limbBytes + b) n = s.limb a / 2 ^ (8 * b) % 2 ^ (8 * n) :=
  windowRead_bits s _ b n h

/-- What a window write leaves in its bytes, where they all lie in LMEM (R62). -/
theorem windowRead_windowWrite (s : State) (a n v : Nat) (h : a + n ≤ s.lmemBytes) :
    (s.windowWrite a n v).windowRead a n = v % 2 ^ (8 * n) := by
  have hbytes := bytesAt_eq (s := s.windowWrite a n v) (lo := a) (bs := bytesOf n v) fun k hk => by
    rw [bytesOf_length] at hk
    rw [byteAt_windowWrite, if_pos (by omega), bytesOf_getElem? n v k hk, Nat.add_sub_cancel_left]
  rw [bytesOf_length] at hbytes
  rw [State.windowRead, hbytes, valOf_bytesOf, Nat.mul_comm n]

/-- The bits of a limb that a window write has set (R62). -/
theorem limb_windowWrite (s : State) {a b n : Nat} (v : Nat) (hin : b + n ≤ s.limbBytes)
    (ha : a < s.lmemLimbs) :
    (s.windowWrite (a * s.limbBytes + b) n v).limb a / 2 ^ (8 * b) % 2 ^ (8 * n) = v % 2 ^ (8 * n) := by
  have hend : a * s.limbBytes + b + n ≤ s.lmemBytes := by
    have hlimb := Nat.mul_le_mul_right s.limbBytes (Nat.succ_le_of_lt ha)
    rw [Nat.succ_mul] at hlimb
    rw [State.lmemBytes]
    omega
  have hwritten := windowRead_windowWrite s _ n v hend
  have hframe := windowWrite_frame s (a * s.limbBytes + b) n v
  generalize s.windowWrite (a * s.limbBytes + b) n v = t at hwritten hframe ⊢
  have hbytes : t.limbBytes = s.limbBytes := by rw [hframe]; rfl
  rw [← windowRead_limb t a b n (by rwa [hbytes]), hbytes, hwritten]

/-- A window write beyond LMEM changes nothing (log entry 23). -/
theorem windowWrite_outside {s : State} {a : Nat} (h : s.lmemBytes ≤ a) (n v : Nat) :
    s.windowWrite a n v = s := by
  rw [State.windowWrite, if_neg (Nat.not_lt.2 h)]

/-- A half-limb is W/16 bytes (R62). -/
theorem halfLimb_bytes (s : State) : WindowWidth.bytes s.params.width .halfLimb = s.limbBits / 16 := by
  rw [WindowWidth.bytes, State.limbBits]
  cases s.params.width <;> rfl

/-- A mixed-width access fits the 64 bits of a port. -/
theorem windowWidth_bits_le (w : LimbWidth) (k : WindowWidth) : 8 * k.bytes w ≤ 64 := by
  cases k <;> cases w <;> decide

section
variable {s : State} {k : WindowWidth} {p : Nat}

theorem windowLoad_idle (h : s.busy = false) :
    s.windowLoad k p =
      { s with readData := some (BitVec.ofNat 64 (s.windowRead p (k.bytes s.params.width))) } := by
  rw [State.windowLoad, h, if_neg Bool.false_ne_true]

theorem windowLoad_busy (h : s.busy = true) :
    s.windowLoad k p = { s.setHostviol with readData := some 0#64 } := by
  rw [State.windowLoad, if_pos h]

theorem windowStore_idle (h : s.busy = false) (v : Slot) :
    s.windowStore k p v = s.windowWrite p (k.bytes s.params.width) v.toNat := by
  rw [State.windowStore, h, if_neg Bool.false_ne_true]

theorem windowStore_busy (h : s.busy = true) (v : Slot) : s.windowStore k p v = s.setHostviol := by
  rw [State.windowStore, if_pos h]

end

/-- Settles O54: limbs are window reads, so their bits are found in the window's bytes; and the four cases of a
mixed-width access. -/
theorem limbIsItsBytes : Obligations.LimbIsItsBytes := by
  refine ⟨fun s => ⟨fun a => ?_, fun _ a b hb => ?_, fun _ a b n => windowRead_limb s a b n⟩,
    fun s k n p v rest hn => ?_⟩
  · rw [limb_eq_windowRead, windowRead_eq_sum]
  · have hbyte := windowRead_limb s a b 1 hb
    rw [windowRead_eq_sum, Finset.sum_range_one, Nat.add_zero, Nat.mul_zero, pow_zero,
      Nat.mul_one] at hbyte
    exact hbyte
  · obtain rfl : n = k.bytes s.params.width := by
      cases k with
      | byte => exact hn
      | halfLimb => exact hn.trans (halfLimb_bytes s).symm
    have hbits := windowWidth_bits_le s.params.width k
    refine ⟨fun hb => ⟨fun hidle => ?_, fun hbusy => ?_⟩, fun hb => ⟨fun hidle => ?_, fun hbusy => ?_⟩⟩
    · have hload := windowLoad_idle (s := { s with bus := rest }) (k := k) (p := p) hidle
      have hread : State.windowRead { s with bus := rest } p (k.bytes s.params.width) =
          s.windowRead p (k.bytes s.params.width) := windowRead_congr fun _ _ _ => rfl
      rw [hread] at hload
      have hvalue : (BitVec.ofNat 64 (s.windowRead p (k.bytes s.params.width))).toNat =
          s.windowRead p (k.bytes s.params.width) := by
        rw [BitVec.toNat_ofNat, Nat.mod_eq_of_lt ((windowRead_lt s p _).trans_le
          (Nat.pow_le_pow_right two_pos hbits))]
      refine ⟨_, (step_event hb).trans (congrArg Host.Outcome.next hload), hvalue, ?_⟩
      rintro a b rfl hin
      exact hvalue.trans (windowRead_limb s a b _ hin)
    · exact (step_event hb).trans
        (congrArg Host.Outcome.next (windowLoad_busy (s := { s with bus := rest }) hbusy))
    · have hstore := windowStore_idle (s := { s with bus := rest }) (k := k) (p := p) hidle v
      refine ⟨_, (step_event hb).trans (congrArg Host.Outcome.next hstore),
        windowWrite_frame { s with bus := rest } p _ _, fun hout => ?_,
        byteAt_windowWrite { s with bus := rest } p _ _, ?_⟩
      · rw [windowWrite_outside (s := { s with bus := rest }) hout]
      · rintro a b rfl hin ha
        exact limb_windowWrite { s with bus := rest } v.toNat hin ha
    · exact (step_event hb).trans
        (congrArg Host.Outcome.next (windowStore_busy (s := { s with bus := rest }) hbusy v))

/-! ### STN (R87) -/

/-- What is touched does not depend on the schedule before. -/
theorem Touches.of_bus {l : List Interval} {s t : State} {b : List Event}
    (h : Touches l { s with bus := b } t) : Touches l s t :=
  ⟨h.params, h.cfg, h.powerDraw, h.draws, h.wf, h.cells, h.kept⟩

/-- One transaction of `STN`: it stores the low limb of v. -/
theorem step_storeLimb {s : State} {a v : Nat} {rest : List Event} (hidle : s.busy = false)
    (ha : a < s.lmemLimbs)
    (hb : s.bus = .lmemWrite a (BitVec.ofNat 64 (v % 2 ^ s.limbBits)) :: rest) :
    ∃ u, step s = .next u ∧ u.limb a = v % 2 ^ s.limbBits ∧ Touches [{ base := a, len := 1 }] s u ∧
      u = { s with bus := rest, lmem := u.lmem } := by
  refine ⟨_, step_lmemWrite hb hidle ha, ?_, Touches.of_bus (Touches_memWrite _ a 1 _), rfl⟩
  have hlow : v % 2 ^ s.limbBits < 2 ^ s.limbBits := Nat.mod_lt _ (Nat.two_pow_pos _)
  rw [limb_eq_memRead, memRead_memWrite, toNat_ofNat_limb hlow, Nat.one_mul]
  exact Nat.mod_mod _ _

/-- The transactions of `STN` one after the other: each stores one limb, and the later ones keep it. -/
theorem run_storeLimbs {n : Nat} {rest : List Event} : ∀ {s : State} {a v : Nat}, s.busy = false →
    a + n ≤ s.lmemLimbs → s.bus = storeLimbs s.limbBits a n v ++ rest →
    ∃ t : State, Host.Core.run Sys2Proof.core n s = .next t ∧
      t.memRead a n = v % 2 ^ (n * s.limbBits) ∧ Touches [{ base := a, len := n }] s t ∧ t = { s with bus := rest, lmem := t.lmem } := by
  induction n with
  | zero =>
    rintro s a v - - rfl
    exact ⟨s, rfl, by rw [Nat.zero_mul, pow_zero, Nat.mod_one]; rfl, Touches_refl _ s, rfl⟩
  | succ n ih =>
    intro s a v hidle ha hb
    obtain ⟨u, hstep, hlimb, hfirst, hu⟩ := step_storeLimb hidle (by omega) hb
    have hbits : u.limbBits = s.limbBits := by rw [hu]; rfl
    have hlimbs : u.lmemLimbs = s.lmemLimbs := by rw [hu]; rfl
    obtain ⟨t, hrun, hread, hlater, ht⟩ := ih (s := u) (a := a + 1) (v := v / 2 ^ s.limbBits)
      (by rw [hu]; exact hidle) (by omega) (by rw [hbits, hu]; rfl)
    have hkept : t.limb a = u.limb a := hlater.limb_kept (by simp [Interval.has])
    have htbits : t.limbBits = s.limbBits := by rw [ht, ← hbits]; rfl
    refine ⟨t, (run_succ hstep n).trans hrun, ?_, Touches_trans (Touches_mono hfirst ?_)
      (Touches_mono hlater ?_), ht.trans (by rw [hu])⟩
    · rw [memRead_succ, hkept, hlimb, hread, htbits, hbits, Nat.succ_mul,
        Nat.add_comm (n * s.limbBits), pow_add, Nat.mod_mul]
    · simp
    · simp only [List.mem_singleton, exists_eq_left, forall_eq]
      omega

/-- Settles O57: the host statement is that list of transactions. -/
theorem storeStatementStoresInteger : Obligations.StoreStatementStoresInteger := by
  intro s a n v rest hidle ha hb
  obtain ⟨t, hrun, hread, htouch, ht⟩ := run_storeLimbs hidle ha hb
  exact ⟨t, hrun, hread, htouch.kept, ht⟩

/-! ### WAIT (R87, R89) -/

/-- What a read of STATUS returns (R26, R33). -/
def State.statusSlot (s : State) : Slot := s.statusWord.setWidth 64

theorem statusWord_busy (s : State) : s.statusWord.getLsbD 0 = s.busy := (statusWordFields s).1

theorem statusSlot_busy (s : State) : s.statusSlot.getLsbD 0 = s.busy := by
  rw [State.statusSlot, BitVec.getLsbD_setWidth, statusWord_busy]
  rfl

/-- The step of a host read of STATUS. -/
theorem step_readStatus {s : State} {rest : List Event}
    (hb : s.bus = .regRead (Reg.offset .status) :: rest) :
    step s = .next { s with bus := rest, readData := some s.statusSlot } := by
  rw [step_event hb, State.serve, State.regRead, portValue_offset]
  rfl

/-- The step of a poll (R87): where the last read showed STATUS, it shows it again, or there is no read and the
last one still stands. -/
theorem step_pollStatus {s : State} {d : Slot} {rest : List Event} (hb : s.bus = .pollStatus :: rest)
    (hread : s.readData = some d) :
    step s = .next { s with
      bus := rest, readData := some (if d.getLsbD 0 then s.statusSlot else d) } := by
  have hsaw : State.sawBusy { s with bus := rest } = d.getLsbD 0 := by
    rw [State.sawBusy]
    dsimp only
    rw [hread]
  rw [step_event hb, State.serve, State.pollStatus, hsaw]
  cases d.getLsbD 0 with
  | true =>
    rw [if_pos rfl, if_pos rfl, State.regRead, portValue_offset]
    rfl
  | false =>
    rw [if_neg Bool.false_ne_true, if_neg Bool.false_ne_true, ← hread]

/-- Polls right after a read of STATUS change nothing. -/
theorem run_polls {k : Nat} {rest : List Event} : ∀ {s : State},
    s.bus = List.replicate k .pollStatus ++ rest → s.readData = some s.statusSlot →
    Host.Core.run Sys2Proof.core k s = .next { s with bus := rest } := by
  induction k with
  | zero => rintro s rfl -; rfl
  | succ k ih =>
    intro s hb hread
    have hstep := step_pollStatus (rest := List.replicate k .pollStatus ++ rest) hb hread
    rw [ite_self] at hstep
    rw [run_succ hstep, ih rfl rfl, ← hread]

/-- The reads of WAIT before the completion: `k` of them leave the value of STATUS in the host's hands. -/
theorem run_waitReads {s : State} {n k : Nat} {rest : List Event} (hk : k ≤ n)
    (hb : s.bus = .regRead (Reg.offset .status) :: List.replicate n .pollStatus ++ rest) :
    Host.Core.run Sys2Proof.core (k + 1) s =
      .next { s with bus := s.bus.drop (k + 1), readData := some s.statusSlot } := by
  obtain ⟨j, rfl⟩ := Nat.exists_eq_add_of_le hk
  rw [List.replicate_add, List.cons_append, List.append_assoc] at hb
  have hdrop : s.bus.drop (k + 1) = List.replicate j .pollStatus ++ rest := by
    rw [hb, List.drop_succ_cons, List.drop_left' (List.length_replicate ..)]
  rw [run_succ (step_readStatus hb), hdrop]
  exact run_polls rfl rfl

/-- The last two events of WAIT: the completion, if there is something to complete, and a read of STATUS. -/
def waitEnd (s : State) (ev : Event) : Prop :=
  ev = .regRead (Reg.offset .status) ∨ ev = .pollStatus ∧ s.readData = some s.statusSlot

/-- WAIT comes to its last two events after `polls` reads. -/
theorem run_waitStart {s : State} {polls : Nat} {rest : List Event}
    (hb : s.bus = waitEvents polls ++ rest) :
    ∃ ev d, waitEnd { s with bus := .complete :: ev :: rest, readData := d } ev ∧
      Host.Core.run Sys2Proof.core polls s =
        .next { s with bus := .complete :: ev :: rest, readData := d } := by
  cases polls with
  | zero =>
    have hend : s.bus = .complete :: .regRead (Reg.offset .status) :: rest := hb
    exact ⟨_, s.readData, .inl rfl, by rw [← hend]; rfl⟩
  | succ n =>
    rw [waitEvents, List.append_assoc] at hb
    refine ⟨.pollStatus, some s.statusSlot, .inr ⟨rfl, rfl⟩, ?_⟩
    rw [run_waitReads le_rfl hb, hb, List.drop_left' (by simp)]
    rfl

/-- After its completion the command shows BUSY = 0 in one more read. -/
theorem run_waitEnd_running {s : State} {e : Engine} {ev : Event} {rest : List Event}
    (hev : waitEnd s ev) (hb : s.bus = .complete :: ev :: rest) (he : s.engine = some e)
    (hc : checkOperands e.op s = .none) :
    ∃ v, exec e.op { s with bus := ev :: rest } = .next v ∧ v.busy = false ∧
      Host.Core.run Sys2Proof.core 2 s = .next { v with bus := rest, readData := some v.statusSlot } := by
  have hbusy : s.busy = true := (busy_iff s).2 ⟨e, he⟩
  have hexec := exec_completes (s := { s with bus := ev :: rest }) hbusy hc
  obtain ⟨-, -, -, hvbus, hvread, -, hvengine, -⟩ := endCommand_completedFrom e.op { s with bus := ev :: rest }
  generalize (effectOf e.op { s with bus := ev :: rest }).endCommand = v at hexec hvbus hvread hvengine
  refine ⟨v, hexec, (idle_iff v).2 hvengine, ?_⟩
  · rw [run_succ ((step_complete hb he).trans hexec)]
    obtain rfl | ⟨rfl, hread⟩ := hev
    · exact run_succ (step_readStatus hvbus) 0
    · have hstep := step_pollStatus hvbus (hvread.trans hread)
      rw [statusSlot_busy, hbusy, if_pos rfl] at hstep
      exact run_succ hstep 0

/-- On an idle engine the completion event does nothing, and STATUS is read once. -/
theorem run_waitEnd_idle {s : State} {ev : Event} {rest : List Event} (hev : waitEnd s ev)
    (hb : s.bus = .complete :: ev :: rest) (he : s.engine = none) :
    Host.Core.run Sys2Proof.core 2 s =
      .next { s with bus := rest, readData := some s.statusSlot } := by
  rw [run_succ (step_engineEvent_idle he (.inr hb))]
  obtain rfl | ⟨rfl, hread⟩ := hev
  · exact run_succ (step_readStatus rfl) 0
  · have hstep := step_pollStatus (s := { s with bus := .pollStatus :: rest }) rfl hread
    rw [statusSlot_busy, (idle_iff s).2 he, if_neg Bool.false_ne_true] at hstep
    exact run_succ hstep 0

theorem waitEvents_length (polls : Nat) : (waitEvents polls).length = polls + 2 := by
  cases polls with
  | zero => rfl
  | succ n => simp [waitEvents]

/-- Settles O59: `polls` reads, and then the end of WAIT on a running or an idle engine. -/
theorem waitReadsUntilIdle : Obligations.WaitReadsUntilIdle := by
  intro s polls rest hc hb
  refine ⟨fun e k he h1 hk => ⟨?_, ?_⟩, ?_⟩
  · rw [statusWord_busy, (busy_iff s).2 ⟨e, he⟩]
  · obtain ⟨n, rfl⟩ : ∃ n, polls = n + 1 := ⟨polls - 1, by omega⟩
    obtain ⟨j, rfl⟩ : ∃ j, k = j + 1 := ⟨k - 1, by omega⟩
    rw [HostStmt.events, waitEvents, List.append_assoc] at hb
    exact run_waitReads (by omega) hb
  · obtain ⟨ev, d, hev, hstart⟩ := run_waitStart hb
    rw [HostStmt.events, waitEvents_length, run_add hstart]
    obtain he | ⟨e, he⟩ : s.engine = none ∨ ∃ e, s.engine = some e := Option.eq_none_or_eq_some _
    · have hidle : s.busy = false := (idle_iff s).2 he
      exact ⟨_, run_waitEnd_idle hev rfl he, rfl, hidle, (statusWord_busy _).trans hidle, rfl,
        fun _ => rfl, fun e he' => nomatch he.symm.trans he'⟩
    · have hbusy : s.busy = true := (busy_iff s).2 ⟨e, he⟩
      obtain ⟨v, hexec, hidle, hrun⟩ := run_waitEnd_running
        (s := { s with bus := .complete :: ev :: rest, readData := d }) hev rfl he (hc e he)
      refine ⟨_, hrun, rfl, hidle, (statusWord_busy _).trans hidle, rfl,
        fun hs => absurd (hs.symm.trans hbusy) Bool.false_ne_true, fun f hf => ?_⟩
      obtain rfl := Option.some.inj (he.symm.trans hf)
      exact ⟨_, _, v, hexec, rfl⟩

/-! ### NQ0 (R95) -/

/-- A write-back is the register write of the value last read (log entry 21). -/
theorem step_regWriteBack {s : State} {o : Nat} {y : Slot} {rest : List Event}
    (hb : s.bus = .regWriteBack o :: rest) (hread : s.readData = some y) :
    step s = step { s with bus := .regWrite o y :: rest } := by
  rw [step_event hb, step_event (s := { s with bus := .regWrite o y :: rest }) rfl, State.serve,
    State.serve, State.writeBack]
  dsimp only
  rw [hread]

/-- The events of NQ0, statement by statement. -/
theorem nq0_events (w : LimbWidth) (n0 polls : Nat) :
    programEvents w (pseudoNq0 w n0 polls) =
      .regWrite (Reg.offset .invX) (BitVec.ofNat 64 ((2 ^ w.bits - n0) % 2 ^ w.bits)) ::
      .regWrite (Reg.offset .cmd) ((encode .inv1).setWidth 64) ::
      (HostStmt.events w (.wait polls) ++
        [.regRead (Reg.offset .invY), .regWriteBack (Reg.offset .nquote0)]) := by
  simp [programEvents, pseudoNq0, HostStmt.events]

/-- A cfg register written on an idle engine (R30), as a step. -/
theorem step_cfgWrite {s : State} {r : Reg} {v : Slot} {rest : List Event} (hidle : s.busy = false)
    (hr : r.access = .cfg) (hb : s.bus = .regWrite r.offset v :: rest) :
    step s = .next { s with bus := rest, cfg := s.cfg.set s.params.width r v } := by
  rw [step_regWrite hb (Reg.offset_ne_cmd (by simp [hr])), regWrite_cfg hr,
    writeCfg_idle (s := { s with bus := rest }) hidle]

/-- The low bits of a value that has no others. -/
theorem narrowTo_limb {s : State} {v : Nat} (h : v < 2 ^ s.limbBits) :
    narrowTo s.params.width (BitVec.ofNat 64 v) = BitVec.ofNat 64 v := by
  rw [narrowTo, toNat_ofNat_limb h]
  exact congrArg _ (Nat.mod_eq_of_lt h)

/-- A running INV1 left to complete under WAIT. -/
theorem run_wait_inv1 {s : State} {p : Position} {polls : Nat} {rest : List Event}
    (he : s.engine = some { op := .inv1, pos := p })
    (hb : s.bus = HostStmt.events s.params.width (.wait polls) ++ rest) :
    ∃ d, Host.Core.run Sys2Proof.core (polls + 2) s = .next { s with
      bus := rest
      engine := none
      status := { s.status with done := true }
      invY := BitVec.ofNat 64 (inv1 s.limbBits s.invArg)
      readData := d } := by
  have hc : ∀ e, s.engine = some e → checkOperands e.op s = .none := by
    intro e he'
    obtain rfl := Option.some.inj (he.symm.trans he')
    rfl
  obtain ⟨-, t, hrun, -, -, -, -, -, hend⟩ := waitReadsUntilIdle s polls rest hc hb
  obtain ⟨b, d, v, hexec, ht⟩ := hend _ he
  rw [inv1Completes { s with bus := b, readData := d } ((busy_iff s).2 ⟨_, he⟩)] at hexec
  obtain rfl := Host.Outcome.next.inj hexec
  rw [HostStmt.events, waitEvents_length] at hrun
  exact ⟨t.readData, hrun.trans (congrArg _ ht)⟩

/-- INV1 issued on an idle engine and left to complete under WAIT. -/
theorem run_inv1_wait {s : State} {x polls : Nat} {rest : List Event} (hidle : s.busy = false)
    (hx : s.invArg = x)
    (hb : s.bus = .regWrite (Reg.offset .cmd) ((encode .inv1).setWidth 64) ::
      (HostStmt.events s.params.width (.wait polls) ++ rest)) :
    ∃ d, Host.Core.run Sys2Proof.core (polls + 2 + 1) s = .next { s with
      bus := rest
      status := { s.status with done := true, err := .none }
      invY := BitVec.ofNat 64 (inv1 s.limbBits x)
      readData := d } := by
  have hstep := (step_command hb hidle (decode_encode_slot .inv1)).trans
    (exec_accepted (s := { s with bus := HostStmt.events s.params.width (.wait polls) ++ rest }) hidle rfl)
  rw [accept_eq] at hstep
  rw [run_succ hstep, (idle_iff s).1 hidle, ← hx]
  exact run_wait_inv1 rfl rfl

/-- A register read whose value is written back to a cfg register of an idle engine. -/
theorem run_readWriteBack {s : State} {r q : Reg} {rest : List Event} (hidle : s.busy = false)
    (hq : q.access = .cfg) (hb : s.bus = .regRead r.offset :: .regWriteBack q.offset :: rest) :
    Host.Core.run Sys2Proof.core 2 s = .next { s with
      bus := rest
      cfg := s.cfg.set s.params.width q (s.regValue r)
      readData := some (s.regValue r) } := by
  have hread : step s = .next { s with
      bus := .regWriteBack q.offset :: rest, readData := some (s.regValue r) } := by
    rw [step_event hb, State.serve, State.regRead, portValue_offset]
    rfl
  rw [run_succ hread]
  refine run_succ ((step_regWriteBack (y := s.regValue r) rfl rfl).trans ?_) 0
  exact step_cfgWrite (s := { s with bus := _, readData := _ }) hidle hq rfl

/-- The cfg registers after NQ0: both values are limbs, so they are written as they are. -/
theorem cfg_nq0 {s : State} {x y : Nat} (hx : x < 2 ^ s.limbBits) (hy : y < 2 ^ s.limbBits) :
    (s.cfg.set s.params.width .invX (BitVec.ofNat 64 x)).set s.params.width .nquote0 (BitVec.ofNat 64 y) =
      { s.cfg with invX := BitVec.ofNat 64 x, nquote0 := BitVec.ofNat 64 y } := by
  simp only [CfgRegs.set, narrowTo_limb hx, narrowTo_limb hy]

/-- The steps of NQ0 of a value x: the write of INV_X, INV1 under WAIT, and the write-back of what INV_Y was
read as. -/
theorem run_nq0 {s : State} {x polls : Nat} {rest : List Event} (hidle : s.busy = false)
    (hx : x < 2 ^ s.limbBits) (hy : inv1 s.limbBits x < 2 ^ s.limbBits)
    (hb : s.bus = .regWrite (Reg.offset .invX) (BitVec.ofNat 64 x) ::
      .regWrite (Reg.offset .cmd) ((encode .inv1).setWidth 64) ::
      (HostStmt.events s.params.width (.wait polls) ++
        .regRead (Reg.offset .invY) :: .regWriteBack (Reg.offset .nquote0) :: rest)) :
    Host.Core.run Sys2Proof.core (polls + 2 + 1 + 2 + 1) s = .next { s with
      bus := rest
      cfg := { s.cfg with invX := BitVec.ofNat 64 x, nquote0 := BitVec.ofNat 64 (inv1 s.limbBits x) }
      invY := BitVec.ofNat 64 (inv1 s.limbBits x)
      status := { s.status with done := true, err := .none }
      readData := some (BitVec.ofNat 64 (inv1 s.limbBits x)) } := by
  have harg : (narrowTo s.params.width (BitVec.ofNat 64 x)).toNat = x := by
    rw [narrowTo_limb hx, toNat_ofNat_limb hx]
  obtain ⟨d, hinv⟩ := run_inv1_wait (s := { s with
    bus := .regWrite (Reg.offset .cmd) ((encode .inv1).setWidth 64) ::
      (HostStmt.events s.params.width (.wait polls) ++
        .regRead (Reg.offset .invY) :: .regWriteBack (Reg.offset .nquote0) :: rest)
    cfg := s.cfg.set s.params.width .invX (BitVec.ofNat 64 x) }) hidle harg rfl
  rw [← cfg_nq0 hx hy]
  refine (run_succ (step_cfgWrite hidle rfl hb) _).trans ((run_add hinv 2).trans ?_)
  exact run_readWriteBack (r := .invY) (q := .nquote0) hidle rfl rfl

/-- Settles O60: the steps of NQ0, with the inverse of the negated low word negated in turn. -/
theorem nq0SetsNquote0 : Obligations.Nq0SetsNquote0 := by
  refine ⟨fun _ _ _ _ => step_regWriteBack, ?_⟩
  rintro s n polls x y rest hidle hn hb hx rfl
  obtain ⟨hodd, -⟩ := neg_low_word (limbBits_pos s) hn
  have hprod := mul_inv1_neg (limbBits_pos s) hn
  rw [← hx] at hodd hprod
  obtain ⟨hylt, -⟩ := inv1_inverts (limbBits_pos s) hodd
  have hxlt : x < 2 ^ s.limbBits := hx ▸ Nat.mod_lt _ (by positivity)
  have hvalue : (2 ^ s.params.width.bits - n % 2 ^ s.limbBits) % 2 ^ s.params.width.bits = x := hx.symm
  rw [nq0_events, hvalue] at hb
  simp only [List.cons_append, List.append_assoc, List.nil_append] at hb
  have hlen : s.bus.length - rest.length = polls + 2 + 1 + 2 + 1 := by
    simp only [hb, HostStmt.events, List.length_cons, List.length_append, waitEvents_length]
    omega
  rw [hlen]
  exact ⟨hprod, hylt, run_nq0 hidle hxlt hylt hb⟩

end Sys2Proof.Machine
end
